-- ==== Sys2Proof/Word.lean ====
section
/-! DEFINITION. The word types of the Z85C block: byte cells, base-85 digits, lengths (00_scope.md R10 to R12). -/

namespace Sys2Proof

/-- A cell of any address space: 8 bits, a byte or a character code (R12, R58, R84). -/
abbrev Byte := BitVec 8

/-- A base-85 digit, 0 to 84 (00_scope.md glossary, R85). -/
abbrev Digit := Fin 85

/-- A payload or input length: `ILEN`, `ILENL`, `DLEN` are 64 bits wide (R22, R27). -/
abbrev Len := BitVec 64

/-- A length that may exceed 64 bits: `OLEN`, `TOTAL`, `TLEN` are 65 bits wide (R26, R27, R161). -/
abbrev WideLen := BitVec 65

end Sys2Proof
end

