-- ==== Sys2Proof/Machine/Tables.lean ====
section
/-! DEFINITION. The two constant tables of the block, `ROM_A` and `ROM_D` (10_state.md R33, R34; 30_encoding.md R86,
R87). They hold their contents from reset on and nothing changes them (R41, R65, R232). -/

namespace Sys2Proof.Machine

/-- The 85 character codes of R86, digit 0 first. PRESUMED in the spec itself for 52 of the rows (K1, log 13). -/
def alphabet : List Byte :=
  [0x30, 0x31, 0x32, 0x33, 0x34, 0x35, 0x36, 0x37, 0x38, 0x39] ++
  [0x61, 0x62, 0x63, 0x64, 0x65, 0x66, 0x67, 0x68, 0x69, 0x6A, 0x6B, 0x6C, 0x6D] ++
  [0x6E, 0x6F, 0x70, 0x71, 0x72, 0x73, 0x74, 0x75, 0x76, 0x77, 0x78, 0x79, 0x7A] ++
  [0x41, 0x42, 0x43, 0x44, 0x45, 0x46, 0x47, 0x48, 0x49, 0x4A, 0x4B, 0x4C, 0x4D] ++
  [0x4E, 0x4F, 0x50, 0x51, 0x52, 0x53, 0x54, 0x55, 0x56, 0x57, 0x58, 0x59, 0x5A] ++
  [0x2E, 0x2D, 0x3A, 0x2B, 0x3D, 0x5E, 0x21, 0x2F, 0x2A, 0x3F, 0x26, 0x3C] ++
  [0x3E, 0x28, 0x29, 0x5B, 0x5D, 0x7B, 0x7D, 0x40, 0x25, 0x24, 0x23]

/-- `ROM_A[d]`: the character code of digit `d` (R33, R86). -/
def romA (d : Digit) : Byte := alphabet.getD d 0x30

/-- `ROM_D[c]`: `some d` for `valid = 1, digit = d`; `none` for `valid = 0` (R34, R87). -/
def romD (c : Byte) : Option Digit :=
  match alphabet.findIdx? (· == c) with
  | some i => if h : i < 85 then some ⟨i, h⟩ else none
  | none => none

end Sys2Proof.Machine
end

