-- ==== Sys2Proof/Machine/Operands.lean ====
section
/-! DEFINITION. Operand assembly: how bytes make a group value and how digits make one (00_scope.md R14; 20_memory.md
R50 to R52; 30_encoding.md R82, R83, R85), and how a group value is taken apart again. -/

namespace Sys2Proof.Machine

/-- `be32(b0, b1, b2, b3)`: the big-endian 32-bit number of four bytes, `b0` in bits 31:24 (R14, R50, R82). -/
def be32 (b0 b1 b2 b3 : Byte) : BitVec 32 := b0 ++ b1 ++ b2 ++ b3

/-- `unbe32(v)`: the four bytes of a 32-bit number, bits 31:24 first (R14). -/
def unbe32 (v : BitVec 32) : List Byte :=
  [v.extractLsb' 24 8, v.extractLsb' 16 8, v.extractLsb' 8 8, v.extractLsb' 0 8]

/-- `zext_64` of the two halves of a long length: the high half first (R52, R91). -/
def be64 (hi lo : BitVec 32) : Len := hi ++ lo

/-- Digit `d_k = (v div 85^(4-k)) mod 85` of a group value (R85, R110). -/
def digitOf (v : Nat) (k : Nat) : Digit := Fin.ofNat 85 (v / 85 ^ (4 - k))

/-- One turn of the accumulation `V = V * 85 + digit` in the 33-bit register `V` (R85, R125). -/
def accumulate (v : BitVec 33) (d : Digit) : BitVec 33 := v * 85 + BitVec.ofNat 33 d

/-- `V >= 2^32`: the group overflows (R127). -/
def overflows (v : BitVec 33) : Bool := decide (2 ^ 32 ≤ v.toNat)

/-- `V[31:0]`, the result of a group that does not overflow (R125). -/
def groupValue (v : BitVec 33) : BitVec 32 := v.setWidth 32

end Sys2Proof.Machine
end

