-- ==== Sys2Proof/Syntax.lean ====
section
/-! DEFINITION. The instructions of the Z85C block: one constructor per row of spec/opcode_table.json. The rows have
three formats (30_encoding.md): `CMD`, the four commands the host selects with `OP` (R80); `HDR`, the two header forms
that LHDR writes to and reads from the intermediate buffer (R90, R91); `SYM`, the 85 characters of the alphabet, which
ENC85 writes and DEC85 reads (R86). -/

namespace Sys2Proof

/-- One constructor per row of the opcode table. `symNN` is the character of digit `NN` (R86). -/
inductive Instr where
  /-- `BENC`, `OP = 00`: BaseCodec encode (R113). -/
  | benc
  /-- `BDEC`, `OP = 01`: BaseCodec decode (R129). -/
  | bdec
  /-- `FENC`, `OP = 10`: FramedCodec encode (R170). -/
  | fenc
  /-- `FDEC`, `OP = 11`: FramedCodec decode (R176). -/
  | fdec
  /-- `HDR_LONG`: the sentinel `00` and the high and low halves of a 64-bit length (R91). -/
  | hdrLong (hi lo : BitVec 32)
  /-- `HDR_SHORT`: one byte, the payload length `01 .. FF` (R90). -/
  | hdrShort (n : Byte)
  | sym00 | sym01 | sym02 | sym03 | sym04 | sym05 | sym06 | sym07 | sym08 | sym09
  | sym10 | sym11 | sym12 | sym13 | sym14 | sym15 | sym16 | sym17 | sym18 | sym19
  | sym20 | sym21 | sym22 | sym23 | sym24 | sym25 | sym26 | sym27 | sym28 | sym29
  | sym30 | sym31 | sym32 | sym33 | sym34 | sym35 | sym36 | sym37 | sym38 | sym39
  | sym40 | sym41 | sym42 | sym43 | sym44 | sym45 | sym46 | sym47 | sym48 | sym49
  | sym50 | sym51 | sym52 | sym53 | sym54 | sym55 | sym56 | sym57 | sym58 | sym59
  | sym60 | sym61 | sym62 | sym63 | sym64 | sym65 | sym66 | sym67 | sym68 | sym69
  | sym70 | sym71 | sym72 | sym73 | sym74 | sym75 | sym76 | sym77 | sym78 | sym79
  | sym80 | sym81 | sym82 | sym83 | sym84
deriving DecidableEq, Repr

/-- The three formats of the opcode table, each read in a place of its own: `cmd` in `OPL`, `hdr` at the start of `T`,
`sym` in `IN` (30_encoding.md sections 1, 5, 3). -/
inductive Format where
  | cmd | hdr | sym
deriving DecidableEq, Repr

/-- The digit a `SYM` row stands for (R86); `none` for the rows of the other formats. -/
def Instr.digit? : Instr → Option Digit
  | .benc | .bdec | .fenc | .fdec | .hdrLong _ _ | .hdrShort _ => none
  | .sym00 => some 0 | .sym01 => some 1 | .sym02 => some 2 | .sym03 => some 3 | .sym04 => some 4
  | .sym05 => some 5 | .sym06 => some 6 | .sym07 => some 7 | .sym08 => some 8 | .sym09 => some 9
  | .sym10 => some 10 | .sym11 => some 11 | .sym12 => some 12 | .sym13 => some 13 | .sym14 => some 14
  | .sym15 => some 15 | .sym16 => some 16 | .sym17 => some 17 | .sym18 => some 18 | .sym19 => some 19
  | .sym20 => some 20 | .sym21 => some 21 | .sym22 => some 22 | .sym23 => some 23 | .sym24 => some 24
  | .sym25 => some 25 | .sym26 => some 26 | .sym27 => some 27 | .sym28 => some 28 | .sym29 => some 29
  | .sym30 => some 30 | .sym31 => some 31 | .sym32 => some 32 | .sym33 => some 33 | .sym34 => some 34
  | .sym35 => some 35 | .sym36 => some 36 | .sym37 => some 37 | .sym38 => some 38 | .sym39 => some 39
  | .sym40 => some 40 | .sym41 => some 41 | .sym42 => some 42 | .sym43 => some 43 | .sym44 => some 44
  | .sym45 => some 45 | .sym46 => some 46 | .sym47 => some 47 | .sym48 => some 48 | .sym49 => some 49
  | .sym50 => some 50 | .sym51 => some 51 | .sym52 => some 52 | .sym53 => some 53 | .sym54 => some 54
  | .sym55 => some 55 | .sym56 => some 56 | .sym57 => some 57 | .sym58 => some 58 | .sym59 => some 59
  | .sym60 => some 60 | .sym61 => some 61 | .sym62 => some 62 | .sym63 => some 63 | .sym64 => some 64
  | .sym65 => some 65 | .sym66 => some 66 | .sym67 => some 67 | .sym68 => some 68 | .sym69 => some 69
  | .sym70 => some 70 | .sym71 => some 71 | .sym72 => some 72 | .sym73 => some 73 | .sym74 => some 74
  | .sym75 => some 75 | .sym76 => some 76 | .sym77 => some 77 | .sym78 => some 78 | .sym79 => some 79
  | .sym80 => some 80 | .sym81 => some 81 | .sym82 => some 82 | .sym83 => some 83 | .sym84 => some 84

/-- The format of each row (the column "format" of the opcode table). -/
def Instr.format : Instr → Format
  | .benc | .bdec | .fenc | .fdec => .cmd
  | .hdrLong _ _ | .hdrShort _ => .hdr
  | .sym00 | .sym01 | .sym02 | .sym03 | .sym04 | .sym05 | .sym06 | .sym07 | .sym08 | .sym09
  | .sym10 | .sym11 | .sym12 | .sym13 | .sym14 | .sym15 | .sym16 | .sym17 | .sym18 | .sym19
  | .sym20 | .sym21 | .sym22 | .sym23 | .sym24 | .sym25 | .sym26 | .sym27 | .sym28 | .sym29
  | .sym30 | .sym31 | .sym32 | .sym33 | .sym34 | .sym35 | .sym36 | .sym37 | .sym38 | .sym39
  | .sym40 | .sym41 | .sym42 | .sym43 | .sym44 | .sym45 | .sym46 | .sym47 | .sym48 | .sym49
  | .sym50 | .sym51 | .sym52 | .sym53 | .sym54 | .sym55 | .sym56 | .sym57 | .sym58 | .sym59
  | .sym60 | .sym61 | .sym62 | .sym63 | .sym64 | .sym65 | .sym66 | .sym67 | .sym68 | .sym69
  | .sym70 | .sym71 | .sym72 | .sym73 | .sym74 | .sym75 | .sym76 | .sym77 | .sym78 | .sym79
  | .sym80 | .sym81 | .sym82 | .sym83 | .sym84 => .sym

/-- The rows of digits 0 to 42, in order. -/
def symRowsLow : List Instr :=
  [.sym00, .sym01, .sym02, .sym03, .sym04, .sym05, .sym06, .sym07, .sym08, .sym09,
    .sym10, .sym11, .sym12, .sym13, .sym14, .sym15, .sym16, .sym17, .sym18, .sym19,
    .sym20, .sym21, .sym22, .sym23, .sym24, .sym25, .sym26, .sym27, .sym28, .sym29,
    .sym30, .sym31, .sym32, .sym33, .sym34, .sym35, .sym36, .sym37, .sym38, .sym39,
    .sym40, .sym41, .sym42]

/-- The rows of digits 43 to 84, in order. -/
def symRowsHigh : List Instr :=
  [.sym43, .sym44, .sym45, .sym46, .sym47, .sym48, .sym49, .sym50, .sym51, .sym52,
    .sym53, .sym54, .sym55, .sym56, .sym57, .sym58, .sym59, .sym60, .sym61, .sym62,
    .sym63, .sym64, .sym65, .sym66, .sym67, .sym68, .sym69, .sym70, .sym71, .sym72,
    .sym73, .sym74, .sym75, .sym76, .sym77, .sym78, .sym79, .sym80, .sym81, .sym82,
    .sym83, .sym84]

/-- The `SYM` rows in digit order. -/
def symRows : List Instr := symRowsLow ++ symRowsHigh

/-- The `SYM` row of a digit. -/
def Instr.sym (d : Digit) : Instr := symRows.getD d .sym00

end Sys2Proof
end

