-- ==== Sys2Proof/WellFormed.lean ====
section
/-! DEFINITION. Which terms of `Instr` are words of the opcode table. -/

namespace Sys2Proof

/-- A short header holds a length in `01 .. FF`: `00` is the sentinel of the long form (30_encoding.md R90, R92,
R93). Every other row is well formed with every operand (R94 for long headers with a small length). -/
def Instr.wellFormed (i : Instr) : Bool :=
  match i with
  | .hdrShort n => n != 0
  | _ => true

end Sys2Proof
end

