-- ==== Sys2Proof/Decode.lean ====
section
/-! DEFINITION. The decoder of the three formats, total on any bytes, and the encoder. The block reads each format in
its own place, so the decoder is told the format (log 15): a command in `OPL` (30_encoding.md R80), a header at the
start of `T` (R93, 42_lhdr.md R144), a character in `IN` (R87, 41_dec85.md R125). -/

namespace Sys2Proof

open Machine

/-- Why bytes are no word of the format. -/
inductive DecodeError where
  /-- There is no byte to decode. -/
  | empty
  /-- A command byte with a bit above `OP[1:0]` (R80, log 25). -/
  | notTwoBits (b : Byte)
  /-- The sentinel `00` with fewer than eight bytes after it (R146). -/
  | truncatedHeader
  /-- A character code that is not in the alphabet (R88, R126). -/
  | unrecognisedCharacter (c : Byte)
deriving DecidableEq, Repr

/-- The outcome of decoding: the instruction and the bytes after it, or the reason there is none. -/
inductive Decoded where
  | instr (i : Instr) (rest : List Byte)
  | error (e : DecodeError)
deriving DecidableEq, Repr

/-- A command word: `OP = 00` to `11` (R80, R96). -/
def decodeCmd (b : Byte) (rest : List Byte) : Decoded :=
  if b = 0 then .instr .benc rest
  else if b = 1 then .instr .bdec rest
  else if b = 2 then .instr .fenc rest
  else if b = 3 then .instr .fdec rest
  else .error (.notTwoBits b)

/-- A header: byte 0 alone decides the form (R93, R145); the long form takes eight more bytes (R91). -/
def decodeHdr (b0 : Byte) (rest : List Byte) : Decoded :=
  if b0 = 0 then
    match rest with
    | h0 :: h1 :: h2 :: h3 :: l0 :: l1 :: l2 :: l3 :: rest' =>
      .instr (.hdrLong (be32 h0 h1 h2 h3) (be32 l0 l1 l2 l3)) rest'
    | _ => .error .truncatedHeader
  else .instr (.hdrShort b0) rest

/-- A character: the row of its digit in `ROM_D` (R87), or unrecognised (R88). -/
def decodeSym (c : Byte) (rest : List Byte) : Decoded :=
  match romD c with
  | some d => .instr (.sym d) rest
  | none => .error (.unrecognisedCharacter c)

/-- The decoder. -/
def decode (f : Format) (bytes : List Byte) : Decoded :=
  match bytes with
  | [] => .error .empty
  | b :: rest =>
    match f with
    | .cmd => decodeCmd b rest
    | .hdr => decodeHdr b rest
    | .sym => decodeSym b rest

/-- The word of an instruction, byte 0 first: `OP` in the low bits of a byte (R80), the header bytes (R90, R91), the
character code (R86). -/
def encode (i : Instr) : List Byte :=
  match i with
  | .benc => [0]
  | .bdec => [1]
  | .fenc => [2]
  | .fdec => [3]
  | .hdrLong hi lo => 0 :: (unbe32 hi ++ unbe32 lo)
  | .hdrShort n => [n]
  | i => match i.digit? with | some d => [romA d] | none => []

/-- The first `k` bytes of a word numbered as the opcode table numbers it: bits 7:0 are byte 0. -/
def wordBytes (w : Nat) : Nat → List Byte
  | 0 => []
  | k + 1 => BitVec.ofNat 8 w :: wordBytes (w / 256) k

/-- The instruction of a decoding, when there is one. -/
def Decoded.toOption : Decoded → Option Instr
  | .instr i _ => some i
  | .error _ => none

/-- The instruction of a table word. A word of one byte is tried as a command, then as a character, then as a short
header, because the three formats share byte values (log 15); a longer word is a long header. -/
def decodeTableWord (nbits w : Nat) : Option Instr :=
  if nbits = 0 then none
  else if nbits ≤ 8 then
    let b := wordBytes w 1
    (decode .cmd b).toOption <|> (decode .sym b).toOption <|> (decode .hdr b).toOption
  else
    match decode .hdr (wordBytes w 9) with
    | .instr (.hdrLong hi lo) _ => some (.hdrLong hi lo)
    | _ => none

end Sys2Proof
end

