-- ==== Sys2Proof/Config.lean ====
section
/-! DEFINITION. What the spec leaves open for good: the free values of the block, each an opaque constant applied to
the counter `State.draws`. No proof can see a value of one; a statement about a free value holds for every value. -/

namespace Sys2Proof.Config

/-- `pad_fill[j]` of the `draw`-th draw (43_padc.md R158, D12, U3): three bytes under no law, of which `FENC` uses
the first `PADN`. Log 4. -/
opaque padFill (draw j : Nat) : Byte

/-- What a host read of an `OUT` cell gives where the spec leaves the cell unspecified (10_state.md R31, U4). Log 5. -/
opaque outCell (draw a : Nat) : Byte

/-- What the `field`-th working register holds once an operation has ended (10_state.md R27, U11). Log 11. -/
opaque workBits (draw field w : Nat) : BitVec w

/-- What `CUT k` writes to `ILEN` when `k` exceeds it: 30_encoding.md R98 states no result for `ILEN - k` below 0.
Log 27. -/
opaque cutIlen (draw : Nat) : Len

end Sys2Proof.Config
end

