-- ==== Sys2Proof/Machine/State.lean ====
section
/-! DEFINITION. The state of one Z85C block and its host (10_state.md), and the state after reset (R39). Plain data. -/

namespace Sys2Proof.Machine

/-- `PHASE` (10_state.md R24). Its code 3 never occurs, so it is no value of the type. -/
inductive Phase where
  | idle | busy | done
deriving DecidableEq, Repr

/-- `ERR` (10_state.md R25, 60_exceptions.md R200). -/
inductive ErrCode where
  | ok | invalidLength | encodingFailure | truncatedInput
deriving DecidableEq, Repr

/-- An address space `IN`, `OUT` or `T`: (index, cell) pairs, indices strictly rising. An index that is not listed has
no value (R39, R233; log 5, log 6, log 11). -/
abbrev Memory := List Host.Cell

/-- The model's own: where the sequencer stands inside an operation (log 3). None of it is observable (R239, U13). -/
inductive Stage where
  /-- The operation is latched and nothing of it is done: the next word is the command in `OPL`. -/
  | command
  /-- The LHDR mux is next (R183): the next word is a header. -/
  | header
  /-- `FENC` only: pad count and assembly of `T` are next (R172 steps 2 and 3). -/
  | pad
  /-- `FDEC` only: the truncation test and the slice are next (R178 steps 2 and 3). -/
  | strip
  /-- Between two groups: group `GI` is next (R53). -/
  | group
  /-- Inside group `GI`: the next word is the character at index `k` of it; with `k = 5` the group ends. -/
  | symbol
deriving DecidableEq, Repr

/-- The internal working registers (10_state.md R27), which the host cannot reach, and the model's own `stage` and
`k`. They carry nothing from one operation to the next (R37). -/
structure Work where
  /-- `OP` as latched at `START`. -/
  opl : BitVec 2
  /-- `ILEN` as latched at `START`. -/
  ilenl : Len
  /-- Index of the group being processed. -/
  gi : BitVec 64
  /-- Group value being split or accumulated. -/
  v : BitVec 33
  /-- Header length in bytes. -/
  hlen : BitVec 4
  /-- Payload length (`FENC`) or declared length (`FDEC`). -/
  dlen : Len
  /-- `HLEN + DLEN`. -/
  total : WideLen
  /-- Number of pad bytes. -/
  padn : BitVec 2
  /-- Length of `T`. -/
  tlen : WideLen
  /-- The model's own (log 3). -/
  stage : Stage
  /-- The model's own: index of the character inside the group (R125's loop variable). -/
  k : Nat
deriving DecidableEq, Repr

/-- One turn of the schedule (10_state.md R36, 30_encoding.md R98): an action of the host, or a turn of the block. -/
inductive HostTurn where
  /-- The host writes `OP`. -/
  | writeOp (v : BitVec 2)
  /-- The host writes `ILEN`. -/
  | writeIlen (n : Len)
  /-- The host writes one cell of `IN`. -/
  | writeIn (a : Nat) (b : Byte)
  /-- The host asserts `START`. -/
  | start
  /-- The host asserts reset. -/
  | reset
  /-- The host polls `PHASE`. -/
  | readPhase
  /-- The host reads `ERR`. -/
  | readErr
  /-- The host reads `OLEN`. -/
  | readOlen
  /-- The host reads one cell of `OUT`. -/
  | readOut (a : Nat)
  /-- Script line `MOVE`: `OUT[0 .. OLEN)` to `IN`, `OLEN` to `ILEN` (R98). -/
  | move
  /-- Script line `CUT k`: `ILEN - k` to `ILEN` (R98), a free value where that is below 0 (log 27). -/
  | cut (k : Nat)
  /-- The host waits for `PHASE = DONE`: the block takes one step, a latched operation in one piece (log 1). -/
  | wait
  /-- The block takes one internal step (log 3). -/
  | pass
deriving DecidableEq, Repr

/-- What a read of the host returned (R36 "poll", "collect"), as the bits it sees. -/
inductive HostRead where
  | phase (v : BitVec 2)
  | err (v : BitVec 2)
  | olen (v : WideLen)
  | out (a : Nat) (b : Byte)
deriving DecidableEq, Repr

/-- The state of the block, and the model's own fields (INVENTORY.md). -/
structure State where
  /-- `OP` (R21). -/
  op : BitVec 2
  /-- `ILEN` (R22). -/
  ilen : Len
  /-- `PHASE` (R24). -/
  phase : Phase
  /-- `ERR` (R25). -/
  err : ErrCode
  /-- `OLEN` (R26). -/
  olen : WideLen
  /-- The working registers (R27). -/
  work : Work
  /-- `IN` (R30). -/
  inp : Memory
  /-- `OUT` (R31). -/
  out : Memory
  /-- `T` (R32). -/
  t : Memory
  /-- The model's own: free values used so far (log 4). -/
  draws : Nat
  /-- The parameter `CAP_IN` (R40); `none` is unbounded. No step writes it (log 7). -/
  capIn : Option Nat
  /-- The parameter `CAP_OUT` (R40); `none` is unbounded. No step writes it (log 7). -/
  capOut : Option Nat
  /-- The store for `T` of a realisation that stores it (R40, D19), in cells; `none` is an unbounded store, or a
  realisation that streams `T` (R32). No step writes it (log 7). -/
  capT : Option Nat
  /-- The model's own: the turns still to come; with none left the host waits (log 2). -/
  host : List HostTurn
  /-- The model's own: what the host's last read returned (log 21). -/
  lastRead : Option HostRead
deriving DecidableEq, Repr

/-- Why the machine stops because an address does not exist (20_memory.md R59). -/
inductive Fault where
  /-- Raised by a host write of `IN`, or a `MOVE`, at an index not below `CAP_IN` (R40, R59). Safe: the spec has no
  such cell. -/
  | noSuchInCell
  /-- Raised by a host read of `OUT` at an index not below `CAP_OUT` (R40, R59). Safe: the spec has no such cell. -/
  | noSuchOutCell
deriving DecidableEq, Repr

/-- Why there is no step. -/
inductive Refusal where
  /-- An arm of `exec` that has no meaning yet. Safe. -/
  | notModelled (mnemonic : String)
  /-- Raised by a command, and by the `START` of it, whose `ILEN` exceeds `CAP_IN` (R40, U7 "refuse"). Safe. -/
  | inputExceedsCapacity
  /-- Raised by an operation, and by the `START` of it, whose output exceeds `CAP_OUT` (R40, U7 "refuse"). Safe. -/
  | outputExceedsCapacity
  /-- Raised by `FENC` and `FDEC`, and by the `START` of them, whose `TLEN` does not fit the store for `T` (R40,
  D19). Safe. -/
  | intermediateExceedsStore
  /-- Raised by an operation, and by the `START` of it, that needs a cell of `IN` nobody has written (R233, U6
  "refuse"). Safe. -/
  | unwrittenInput
  /-- Raised by the sequencer on a cell of `T` that the operation has not written; R32 and R39 say it never happens.
  Safe. -/
  | unwrittenIntermediate
  /-- Raised by a host write of `IN[0 .. ILENL)` while `PHASE = BUSY` (R38, R234, U5 "refuse"). Safe. -/
  | inputWrittenWhileBusy
  /-- Raised by `MOVE` unless `ERR = 0` and `OLEN < 2^64` (R98 "only legal when"). Safe. -/
  | moveNotLegal
deriving DecidableEq, Repr

/-- The working registers after reset: R39 leaves them unspecified. DESIGN CHOICE, log 10: all zero. -/
def Work.reset : Work :=
  { opl := 0, ilenl := 0, gi := 0, v := 0, hlen := 0, dlen := 0, total := 0, padn := 0, tlen := 0,
    stage := .command, k := 0 }

/-- The machine right after reset (10_state.md R39, 70_reset_and_hazards.md R230). -/
def State.reset : State :=
  { op := 0, ilen := 0, phase := .idle, err := .ok, olen := 0, work := Work.reset,
    inp := [], out := [], t := [], draws := 0, capIn := none, capOut := none, capT := none,
    host := [], lastRead := none }

end Sys2Proof.Machine
end

