-- ==== Sys2Proof/Machine/Flags.lean ====
section
/-! DEFINITION. The codes of the two status registers `PHASE` and `ERR`, the block's only flags (10_state.md R24, R25,
R29), and the two bits of `OP` (30_encoding.md R80). -/

namespace Sys2Proof.Machine

/-- The code the host reads from `PHASE` (R24). -/
def Phase.code : Phase → BitVec 2
  | .idle => 0
  | .busy => 1
  | .done => 2

/-- The code the host reads from `ERR` (R25, R200). -/
def ErrCode.code : ErrCode → BitVec 2
  | .ok => 0
  | .invalidLength => 1
  | .encodingFailure => 2
  | .truncatedInput => 3

/-- `DIR`, bit 0 of a command: 1 is decode (R80). -/
def decodes (op : BitVec 2) : Bool := op.getLsbD 0

/-- `FRM`, bit 1 of a command: 1 is FramedCodec (R80). -/
def framed (op : BitVec 2) : Bool := op.getLsbD 1

end Sys2Proof.Machine
end

