-- ==== Sys2Proof/Machine/Ops.lean ====
section
/-! DEFINITION. The named operations over the address spaces and the registers: reading and writing cells, latching an
operation (10_state.md R23), raising an error (60_exceptions.md R204), ending an operation, and the shared operation on
one character. -/

namespace Sys2Proof.Machine

/-! ## Address spaces -/

/-- The cell at index `a`, if it has a value. -/
def Memory.read (m : Memory) (a : Nat) : Option Byte :=
  match m with
  | [] => none
  | (x, b) :: r => if x = a then some b else Memory.read r a

/-- Write one cell, keeping the indices strictly rising. -/
def Memory.write (m : Memory) (a : Nat) (b : Byte) : Memory :=
  match m with
  | [] => [(a, b)]
  | (x, c) :: r =>
    if a < x then (a, b) :: (x, c) :: r
    else if a = x then (a, b) :: r
    else (x, c) :: Memory.write r a b

/-- `MemRead(S:a, n)` (R15): the cells at `a .. a+n-1`, if all of them have a value. -/
def Memory.readCells (m : Memory) (a : Nat) : Nat → Option (List Byte)
  | 0 => some []
  | n + 1 =>
    match m.read a with
    | some b => (Memory.readCells m (a + 1) n).map (b :: ·)
    | none => none

/-- `MemWrite(S:a, n, s)` (R15). -/
def Memory.writeCells (m : Memory) (a : Nat) : List Byte → Memory
  | [] => m
  | b :: bs => Memory.writeCells (m.write a b) (a + 1) bs

/-- The canonical form: indices strictly rising. -/
def Memory.wf (m : Memory) : Bool := decide (m.Pairwise fun c d => c.1 < d.1)

/-- Whether a capacity parameter provides `n` cells (R40). -/
def fits (cap : Option Nat) (n : Nat) : Bool :=
  match cap with
  | none => true
  | some c => decide (n ≤ c)

/-- One cell of `OUT` written by the block. An index that `CAP_OUT` does not provide is no cell (R59), so nothing is
written there (log 22). -/
def writeOut (s : State) (a : Nat) (b : Byte) : State :=
  if fits s.capOut (a + 1) then { s with out := s.out.write a b } else s

/-- Several cells of `OUT` written by the block, in index order. -/
def writeOutCells (s : State) (a : Nat) : List Byte → State
  | [] => s
  | b :: bs => writeOutCells (writeOut s a b) (a + 1) bs

/-! ## The life of an operation -/

/-- An honoured `START` (R23): `OP` and `ILEN` are latched, `PHASE` is `BUSY`, `ERR` and `OLEN` are cleared, which is
all the return from an error there is (R208). `OUT` and `T` hold no specified value from here on (R31, R61, R32). -/
def latch (s : State) : State :=
  { s with
    phase := .busy, err := .ok, olen := 0, out := [], t := []
    work := { s.work with opl := s.op, ilenl := s.ilen, stage := .command, k := 0 } }

/-- The working registers once an operation has ended: values under no law (R27, U11; log 11). -/
def Work.unspecified (draw : Nat) : Work :=
  { opl := Config.workBits draw 0 2, ilenl := Config.workBits draw 1 64, gi := Config.workBits draw 2 64
    v := Config.workBits draw 3 33, hlen := Config.workBits draw 4 4, dlen := Config.workBits draw 5 64
    total := Config.workBits draw 6 65, padn := Config.workBits draw 7 2, tlen := Config.workBits draw 8 65
    stage := .command, k := 0 }

/-- What every end of an operation does to the working registers and to `T` (R27, R32). -/
def dropWork (s : State) : State :=
  { s with work := Work.unspecified s.draws, draws := s.draws + 1, t := [] }

/-- `raise E` (60_exceptions.md R204): `ERR <- code(E)`, `OLEN <- 0`, `PHASE <- DONE`, and nothing else; the cells of
`OUT` are unspecified afterwards (R31, R206). This is the block's one way of taking an exception. -/
def raise (e : ErrCode) (s : State) : State :=
  { dropWork s with err := e, olen := 0, phase := .done, out := [] }

/-- The state after the successful end of an operation with `n` elements (R113, R129, R170, R176): `OLEN <- n`,
`ERR <- 0`, `PHASE <- DONE`. -/
def finished (n : Nat) (s : State) : State :=
  { dropWork s with err := .ok, olen := BitVec.ofNat 65 n, phase := .done }

/-- The successful end of an operation. An output that `CAP_OUT` does not hold was not admitted (R40). -/
def finish (n : Nat) (s : State) : Host.Outcome State Fault Refusal :=
  if fits s.capOut n then .next (finished n s) else .refused .outputExceedsCapacity

/-- The successful end of an operation whose whole output is at hand: `OUT[0 .. len)` holds it and no other cell of
`OUT` is specified (R31). -/
def deliver (bytes : List Byte) (s : State) : Host.Outcome State Fault Refusal :=
  finish bytes.length { s with out := Memory.writeCells [] 0 bytes }

/-- An operation is admitted only if `ILEN <= CAP_IN` (R40). -/
def withCapacity (s : State) (body : Host.Outcome State Fault Refusal) : Host.Outcome State Fault Refusal :=
  if fits s.capIn s.work.ilenl.toNat then body else .refused .inputExceedsCapacity

/-- A framed operation with an intermediate buffer of `tlen` bytes is admitted only if the store for `T` holds it
(R40). -/
def withStore (tlen : Nat) (s : State) (body : Host.Outcome State Fault Refusal) : Host.Outcome State Fault Refusal :=
  if fits s.capT tlen then body else .refused .intermediateExceedsStore

/-- The input sequence `IN[0 .. ILENL)` (R22, R30); without a value in each of its cells the operation has no meaning
(R233, U6; log 6). -/
def withInput (s : State) (body : List Byte → Host.Outcome State Fault Refusal) :
    Host.Outcome State Fault Refusal :=
  match s.inp.readCells 0 s.work.ilenl.toNat with
  | some xs => body xs
  | none => .refused .unwrittenInput

/-! ## One character of a text group -/

/-- Cell index `5*GI + k` of the character being processed (R83, R113, R129). -/
def charIndex (s : State) : Nat := 5 * s.work.gi.toNat + s.work.k

/-- The character of digit `d` as the next one of group `GI`. Encode direction: `ROM_A[d]` goes to its cell of `OUT`
(R110, R113). Decode direction: `V = V * 85 + d` (R125). Either way the next character of the group is next. -/
def symbol (d : Digit) (s : State) : Host.Outcome State Fault Refusal :=
  let s' := if decodes s.work.opl then { s with work := { s.work with v := accumulate s.work.v d } }
    else writeOut s (charIndex s) (romA d)
  .next { s' with work := { s'.work with k := s'.work.k + 1 } }

end Sys2Proof.Machine
end

