-- ==== Sys2Proof/Machine/Base.lean ====
section
/-! DEFINITION. BaseCodec: the sub-blocks ENC85 and DEC85 (40_enc85.md, 41_dec85.md) and the commands `BENC` and
`BDEC`. -/

namespace Sys2Proof.Machine

/-- `ENC85(v)`: the five characters of a group value, most significant digit first (R110). -/
def enc85 (v : BitVec 32) : List Byte :=
  [romA (digitOf v.toNat 0), romA (digitOf v.toNat 1), romA (digitOf v.toNat 2), romA (digitOf v.toNat 3),
    romA (digitOf v.toNat 4)]

/-- `DEC85(c0 .. c4)`: the group value, or `none` for `EncodingFailure` (R125): a cell outside the alphabet (R126) or
a value of `2^32` or more (R127). -/
def dec85 (c0 c1 c2 c3 c4 : Byte) : Option (BitVec 32) :=
  match romD c0, romD c1, romD c2, romD c3, romD c4 with
  | some d0, some d1, some d2, some d3, some d4 =>
    let v := accumulate (accumulate (accumulate (accumulate (accumulate 0 d0) d1) d2) d3) d4
    if overflows v then none else some (groupValue v)
  | _, _, _, _, _ => none

/-- The group loop of `BENC`: consecutive 4-byte groups in input order (R53, R113). -/
def encodeText : List Byte → List Byte
  | b0 :: b1 :: b2 :: b3 :: rest => enc85 (be32 b0 b1 b2 b3) ++ encodeText rest
  | _ => []

/-- The group loop of `BDEC`: consecutive 5-character groups in input order (R53, R129); `none` as soon as one group
fails (R132). -/
def decodeText : List Byte → Option (List Byte)
  | c0 :: c1 :: c2 :: c3 :: c4 :: rest =>
    match dec85 c0 c1 c2 c3 c4, decodeText rest with
    | some v, some bytes => some (unbe32 v ++ bytes)
    | _, _ => none
  | _ => some []

/-- `BENC` (R113): the length check on `ILENL` alone (R114), then the group loop. -/
def execBenc (s : State) : Host.Outcome State Fault Refusal :=
  withCapacity s <|
    if s.work.ilenl.toNat % 4 ≠ 0 then .next (raise .invalidLength s)
    else withInput s fun xs => deliver (encodeText xs) s

/-- `BDEC` (R129): the length check on `ILENL` alone (R130), then the group loop, which may fail (R132). -/
def execBdec (s : State) : Host.Outcome State Fault Refusal :=
  withCapacity s <|
    if s.work.ilenl.toNat % 5 ≠ 0 then .next (raise .invalidLength s)
    else withInput s fun xs =>
      match decodeText xs with
      | some bytes => deliver bytes s
      | none => .next (raise .encodingFailure s)

end Sys2Proof.Machine
end

