-- ==== Sys2Proof/Machine/Header.lean ====
section
/-! DEFINITION. LHDR: the length-header encoder and decoder (42_lhdr.md), and the two rows of format `HDR`. -/

namespace Sys2Proof.Machine

/-- `HDRENC(n)`: one byte up to 255, else the sentinel `00` and the two big-endian halves (R140, R141). -/
def hdrenc (n : Len) : List Byte :=
  if n.toNat ≤ 255 then [n.setWidth 8]
  else 0 :: (unbe32 (n.extractLsb' 32 32) ++ unbe32 (n.extractLsb' 0 32))

/-- The length in bytes 1 to 8 of a long header, if all of them are there: `hi * 2^32 + lo` (R144, R52). -/
def longLength (rest : List Byte) : Option Len :=
  match rest with
  | h0 :: h1 :: h2 :: h3 :: l0 :: l1 :: l2 :: l3 :: _ => some (be64 (be32 h0 h1 h2 h3) (be32 l0 l1 l2 l3))
  | _ => none

/-- `HDRDEC(T)`: header length and declared length, or `none` for `TruncatedInput` (R144, R146). It is never applied to
an empty buffer (R177). -/
def hdrdec (t : List Byte) : Option (Nat × Len) :=
  match t with
  | [] => none
  | b0 :: rest => if b0 ≠ 0 then some (1, b0.setWidth 64) else (longLength rest).map fun d => (9, d)

/-- The header mux of `FENC` (R183): the bytes of the header go to `T[0 .. HLEN)`, and the pad comes next (R172). -/
def putHeader (bytes : List Byte) (s : State) : Host.Outcome State Fault Refusal :=
  .next { s with
    t := s.t.writeCells 0 bytes
    work := { s.work with hlen := BitVec.ofNat 4 bytes.length, stage := .pad } }

/-- The header mux of `FDEC` (R183): header length and declared length, and the truncation test comes next (R178). -/
def takeHeader (hlen : Nat) (dlen : Len) (s : State) : Host.Outcome State Fault Refusal :=
  .next { s with work := { s.work with hlen := BitVec.ofNat 4 hlen, dlen := dlen, stage := .strip } }

/-- `HDR_SHORT` (R90): written by `FENC` as the one byte `n` (R140), read by `FDEC` as the declared length `n` (R144). -/
def execHdrShort (n : Byte) (s : State) : Host.Outcome State Fault Refusal :=
  if decodes s.work.opl then takeHeader 1 (n.setWidth 64) s
  else putHeader [n] s

/-- `HDR_LONG` (R91): written by `FENC` as nine bytes (R140), read by `FDEC` as the declared length `hi * 2^32 + lo`,
unless `T` is shorter than nine bytes (R144, R146). -/
def execHdrLong (hi lo : BitVec 32) (s : State) : Host.Outcome State Fault Refusal :=
  if decodes s.work.opl then
    if s.work.tlen.toNat < 9 then .next (raise .truncatedInput s)
    else takeHeader 9 (be64 hi lo) s
  else putHeader (0 :: (unbe32 hi ++ unbe32 lo)) s

end Sys2Proof.Machine
end

