-- ==== Sys2Proof/Machine/Frame.lean ====
section
/-! DEFINITION. FramedCodec: the sub-block PADC (43_padc.md), the framing wrapper FRAME (44_frame.md) and the commands
`FENC` and `FDEC`. -/

namespace Sys2Proof.Machine

/-- `PADCALC(total)` (R155). -/
def padcalc (total : Nat) : Nat := (4 - total % 4) % 4

/-- `pad_fill[0 .. p)` of a draw (R158). -/
def padBytes (draw p : Nat) : List Byte := (List.range p).map (Config.padFill draw)

/-- `STRIP(T, h, d)`: the payload, or `none` for `TruncatedInput`; the sum is on natural numbers (R159, R160, R161). -/
def strip (t : List Byte) (h : Nat) (d : Len) : Option (List Byte) :=
  if h + d.toNat > t.length then none else some ((t.drop h).take d.toNat)

/-- `TLEN` of a `FENC` of `n` payload bytes (R170, R173). -/
def framedLength (n : Len) : Nat :=
  let total := (hdrenc n).length + n.toNat
  total + padcalc total

/-- The intermediate buffer `header ++ payload ++ pad` of a non-empty `FENC` (30_encoding.md R95, R172 steps 1 to 3). -/
def assemble (payload : List Byte) (n : Len) (draw : Nat) : List Byte :=
  let hdr := hdrenc n
  hdr ++ payload ++ padBytes draw (padcalc (hdr.length + n.toNat))

/-- What `FDEC` makes of the intermediate buffer (R178): the payload, or `none` for `TruncatedInput`. -/
def unframe (t : List Byte) : Option (List Byte) :=
  match hdrdec t with
  | some (h, d) => strip t h d
  | none => none

/-- `FENC` (R170): the empty bypass (R171), or, with a `T` that fits its store (R40), the four steps of R172 with a
fresh pad-fill draw (R158, log 4). -/
def execFenc (s : State) : Host.Outcome State Fault Refusal :=
  withCapacity s <|
    if s.work.ilenl = 0 then deliver [] s
    else withStore (framedLength s.work.ilenl) s <| withInput s fun xs =>
      deliver (encodeText (assemble xs s.work.ilenl s.draws)) { s with draws := s.draws + 1 }

/-- `FDEC` (R176): the empty bypass (R177), then the errors in the order of R179, then the payload (R180).
Past the length check `TLEN` is `(ILENL div 5) * 4`, and that must fit the store for `T` (R40). -/
def execFdec (s : State) : Host.Outcome State Fault Refusal :=
  withCapacity s <|
    if s.work.ilenl = 0 then deliver [] s
    else if s.work.ilenl.toNat % 5 ≠ 0 then .next (raise .invalidLength s)
    else withStore (s.work.ilenl.toNat / 5 * 4) s <| withInput s fun xs =>
      match decodeText xs with
      | none => .next (raise .encodingFailure s)
      | some t =>
        match unframe t with
        | none => .next (raise .truncatedInput s)
        | some payload => deliver payload s

end Sys2Proof.Machine
end

