-- ==== Sys2Proof/Machine/Symbols.lean ====
section
/-! DEFINITION. The 85 rows of format `SYM` (30_encoding.md R86): each is `symbol`, the shared operation on one
character of a text group, at its own digit. A definition for each row, so that each can be mended alone. -/

namespace Sys2Proof.Machine

/-- `SYM_00`: digit 0, code `0x30`. -/
def execSym00 (s : State) : Host.Outcome State Fault Refusal := symbol 0 s

/-- `SYM_01`: digit 1, code `0x31`. -/
def execSym01 (s : State) : Host.Outcome State Fault Refusal := symbol 1 s

/-- `SYM_02`: digit 2, code `0x32`. -/
def execSym02 (s : State) : Host.Outcome State Fault Refusal := symbol 2 s

/-- `SYM_03`: digit 3, code `0x33`. -/
def execSym03 (s : State) : Host.Outcome State Fault Refusal := symbol 3 s

/-- `SYM_04`: digit 4, code `0x34`. -/
def execSym04 (s : State) : Host.Outcome State Fault Refusal := symbol 4 s

/-- `SYM_05`: digit 5, code `0x35`. -/
def execSym05 (s : State) : Host.Outcome State Fault Refusal := symbol 5 s

/-- `SYM_06`: digit 6, code `0x36`. -/
def execSym06 (s : State) : Host.Outcome State Fault Refusal := symbol 6 s

/-- `SYM_07`: digit 7, code `0x37`. -/
def execSym07 (s : State) : Host.Outcome State Fault Refusal := symbol 7 s

/-- `SYM_08`: digit 8, code `0x38`. -/
def execSym08 (s : State) : Host.Outcome State Fault Refusal := symbol 8 s

/-- `SYM_09`: digit 9, code `0x39`. -/
def execSym09 (s : State) : Host.Outcome State Fault Refusal := symbol 9 s

/-- `SYM_10`: digit 10, code `0x61`. -/
def execSym10 (s : State) : Host.Outcome State Fault Refusal := symbol 10 s

/-- `SYM_11`: digit 11, code `0x62`. -/
def execSym11 (s : State) : Host.Outcome State Fault Refusal := symbol 11 s

/-- `SYM_12`: digit 12, code `0x63`. -/
def execSym12 (s : State) : Host.Outcome State Fault Refusal := symbol 12 s

/-- `SYM_13`: digit 13, code `0x64`. -/
def execSym13 (s : State) : Host.Outcome State Fault Refusal := symbol 13 s

/-- `SYM_14`: digit 14, code `0x65`. -/
def execSym14 (s : State) : Host.Outcome State Fault Refusal := symbol 14 s

/-- `SYM_15`: digit 15, code `0x66`. -/
def execSym15 (s : State) : Host.Outcome State Fault Refusal := symbol 15 s

/-- `SYM_16`: digit 16, code `0x67`. -/
def execSym16 (s : State) : Host.Outcome State Fault Refusal := symbol 16 s

/-- `SYM_17`: digit 17, code `0x68`. -/
def execSym17 (s : State) : Host.Outcome State Fault Refusal := symbol 17 s

/-- `SYM_18`: digit 18, code `0x69`. -/
def execSym18 (s : State) : Host.Outcome State Fault Refusal := symbol 18 s

/-- `SYM_19`: digit 19, code `0x6A`. -/
def execSym19 (s : State) : Host.Outcome State Fault Refusal := symbol 19 s

/-- `SYM_20`: digit 20, code `0x6B`. -/
def execSym20 (s : State) : Host.Outcome State Fault Refusal := symbol 20 s

/-- `SYM_21`: digit 21, code `0x6C`. -/
def execSym21 (s : State) : Host.Outcome State Fault Refusal := symbol 21 s

/-- `SYM_22`: digit 22, code `0x6D`. -/
def execSym22 (s : State) : Host.Outcome State Fault Refusal := symbol 22 s

/-- `SYM_23`: digit 23, code `0x6E`. -/
def execSym23 (s : State) : Host.Outcome State Fault Refusal := symbol 23 s

/-- `SYM_24`: digit 24, code `0x6F`. -/
def execSym24 (s : State) : Host.Outcome State Fault Refusal := symbol 24 s

/-- `SYM_25`: digit 25, code `0x70`. -/
def execSym25 (s : State) : Host.Outcome State Fault Refusal := symbol 25 s

/-- `SYM_26`: digit 26, code `0x71`. -/
def execSym26 (s : State) : Host.Outcome State Fault Refusal := symbol 26 s

/-- `SYM_27`: digit 27, code `0x72`. -/
def execSym27 (s : State) : Host.Outcome State Fault Refusal := symbol 27 s

/-- `SYM_28`: digit 28, code `0x73`. -/
def execSym28 (s : State) : Host.Outcome State Fault Refusal := symbol 28 s

/-- `SYM_29`: digit 29, code `0x74`. -/
def execSym29 (s : State) : Host.Outcome State Fault Refusal := symbol 29 s

/-- `SYM_30`: digit 30, code `0x75`. -/
def execSym30 (s : State) : Host.Outcome State Fault Refusal := symbol 30 s

/-- `SYM_31`: digit 31, code `0x76`. -/
def execSym31 (s : State) : Host.Outcome State Fault Refusal := symbol 31 s

/-- `SYM_32`: digit 32, code `0x77`. -/
def execSym32 (s : State) : Host.Outcome State Fault Refusal := symbol 32 s

/-- `SYM_33`: digit 33, code `0x78`. -/
def execSym33 (s : State) : Host.Outcome State Fault Refusal := symbol 33 s

/-- `SYM_34`: digit 34, code `0x79`. -/
def execSym34 (s : State) : Host.Outcome State Fault Refusal := symbol 34 s

/-- `SYM_35`: digit 35, code `0x7A`. -/
def execSym35 (s : State) : Host.Outcome State Fault Refusal := symbol 35 s

/-- `SYM_36`: digit 36, code `0x41`. -/
def execSym36 (s : State) : Host.Outcome State Fault Refusal := symbol 36 s

/-- `SYM_37`: digit 37, code `0x42`. -/
def execSym37 (s : State) : Host.Outcome State Fault Refusal := symbol 37 s

/-- `SYM_38`: digit 38, code `0x43`. -/
def execSym38 (s : State) : Host.Outcome State Fault Refusal := symbol 38 s

/-- `SYM_39`: digit 39, code `0x44`. -/
def execSym39 (s : State) : Host.Outcome State Fault Refusal := symbol 39 s

/-- `SYM_40`: digit 40, code `0x45`. -/
def execSym40 (s : State) : Host.Outcome State Fault Refusal := symbol 40 s

/-- `SYM_41`: digit 41, code `0x46`. -/
def execSym41 (s : State) : Host.Outcome State Fault Refusal := symbol 41 s

/-- `SYM_42`: digit 42, code `0x47`. -/
def execSym42 (s : State) : Host.Outcome State Fault Refusal := symbol 42 s

/-- `SYM_43`: digit 43, code `0x48`. -/
def execSym43 (s : State) : Host.Outcome State Fault Refusal := symbol 43 s

/-- `SYM_44`: digit 44, code `0x49`. -/
def execSym44 (s : State) : Host.Outcome State Fault Refusal := symbol 44 s

/-- `SYM_45`: digit 45, code `0x4A`. -/
def execSym45 (s : State) : Host.Outcome State Fault Refusal := symbol 45 s

/-- `SYM_46`: digit 46, code `0x4B`. -/
def execSym46 (s : State) : Host.Outcome State Fault Refusal := symbol 46 s

/-- `SYM_47`: digit 47, code `0x4C`. -/
def execSym47 (s : State) : Host.Outcome State Fault Refusal := symbol 47 s

/-- `SYM_48`: digit 48, code `0x4D`. -/
def execSym48 (s : State) : Host.Outcome State Fault Refusal := symbol 48 s

/-- `SYM_49`: digit 49, code `0x4E`. -/
def execSym49 (s : State) : Host.Outcome State Fault Refusal := symbol 49 s

/-- `SYM_50`: digit 50, code `0x4F`. -/
def execSym50 (s : State) : Host.Outcome State Fault Refusal := symbol 50 s

/-- `SYM_51`: digit 51, code `0x50`. -/
def execSym51 (s : State) : Host.Outcome State Fault Refusal := symbol 51 s

/-- `SYM_52`: digit 52, code `0x51`. -/
def execSym52 (s : State) : Host.Outcome State Fault Refusal := symbol 52 s

/-- `SYM_53`: digit 53, code `0x52`. -/
def execSym53 (s : State) : Host.Outcome State Fault Refusal := symbol 53 s

/-- `SYM_54`: digit 54, code `0x53`. -/
def execSym54 (s : State) : Host.Outcome State Fault Refusal := symbol 54 s

/-- `SYM_55`: digit 55, code `0x54`. -/
def execSym55 (s : State) : Host.Outcome State Fault Refusal := symbol 55 s

/-- `SYM_56`: digit 56, code `0x55`. -/
def execSym56 (s : State) : Host.Outcome State Fault Refusal := symbol 56 s

/-- `SYM_57`: digit 57, code `0x56`. -/
def execSym57 (s : State) : Host.Outcome State Fault Refusal := symbol 57 s

/-- `SYM_58`: digit 58, code `0x57`. -/
def execSym58 (s : State) : Host.Outcome State Fault Refusal := symbol 58 s

/-- `SYM_59`: digit 59, code `0x58`. -/
def execSym59 (s : State) : Host.Outcome State Fault Refusal := symbol 59 s

/-- `SYM_60`: digit 60, code `0x59`. -/
def execSym60 (s : State) : Host.Outcome State Fault Refusal := symbol 60 s

/-- `SYM_61`: digit 61, code `0x5A`. -/
def execSym61 (s : State) : Host.Outcome State Fault Refusal := symbol 61 s

/-- `SYM_62`: digit 62, code `0x2E`. -/
def execSym62 (s : State) : Host.Outcome State Fault Refusal := symbol 62 s

/-- `SYM_63`: digit 63, code `0x2D`. -/
def execSym63 (s : State) : Host.Outcome State Fault Refusal := symbol 63 s

/-- `SYM_64`: digit 64, code `0x3A`. -/
def execSym64 (s : State) : Host.Outcome State Fault Refusal := symbol 64 s

/-- `SYM_65`: digit 65, code `0x2B`. -/
def execSym65 (s : State) : Host.Outcome State Fault Refusal := symbol 65 s

/-- `SYM_66`: digit 66, code `0x3D`. -/
def execSym66 (s : State) : Host.Outcome State Fault Refusal := symbol 66 s

/-- `SYM_67`: digit 67, code `0x5E`. -/
def execSym67 (s : State) : Host.Outcome State Fault Refusal := symbol 67 s

/-- `SYM_68`: digit 68, code `0x21`. -/
def execSym68 (s : State) : Host.Outcome State Fault Refusal := symbol 68 s

/-- `SYM_69`: digit 69, code `0x2F`. -/
def execSym69 (s : State) : Host.Outcome State Fault Refusal := symbol 69 s

/-- `SYM_70`: digit 70, code `0x2A`. -/
def execSym70 (s : State) : Host.Outcome State Fault Refusal := symbol 70 s

/-- `SYM_71`: digit 71, code `0x3F`. -/
def execSym71 (s : State) : Host.Outcome State Fault Refusal := symbol 71 s

/-- `SYM_72`: digit 72, code `0x26`. -/
def execSym72 (s : State) : Host.Outcome State Fault Refusal := symbol 72 s

/-- `SYM_73`: digit 73, code `0x3C`. -/
def execSym73 (s : State) : Host.Outcome State Fault Refusal := symbol 73 s

/-- `SYM_74`: digit 74, code `0x3E`. -/
def execSym74 (s : State) : Host.Outcome State Fault Refusal := symbol 74 s

/-- `SYM_75`: digit 75, code `0x28`. -/
def execSym75 (s : State) : Host.Outcome State Fault Refusal := symbol 75 s

/-- `SYM_76`: digit 76, code `0x29`. -/
def execSym76 (s : State) : Host.Outcome State Fault Refusal := symbol 76 s

/-- `SYM_77`: digit 77, code `0x5B`. -/
def execSym77 (s : State) : Host.Outcome State Fault Refusal := symbol 77 s

/-- `SYM_78`: digit 78, code `0x5D`. -/
def execSym78 (s : State) : Host.Outcome State Fault Refusal := symbol 78 s

/-- `SYM_79`: digit 79, code `0x7B`. -/
def execSym79 (s : State) : Host.Outcome State Fault Refusal := symbol 79 s

/-- `SYM_80`: digit 80, code `0x7D`. -/
def execSym80 (s : State) : Host.Outcome State Fault Refusal := symbol 80 s

/-- `SYM_81`: digit 81, code `0x40`. -/
def execSym81 (s : State) : Host.Outcome State Fault Refusal := symbol 81 s

/-- `SYM_82`: digit 82, code `0x25`. -/
def execSym82 (s : State) : Host.Outcome State Fault Refusal := symbol 82 s

/-- `SYM_83`: digit 83, code `0x24`. -/
def execSym83 (s : State) : Host.Outcome State Fault Refusal := symbol 83 s

/-- `SYM_84`: digit 84, code `0x23`. -/
def execSym84 (s : State) : Host.Outcome State Fault Refusal := symbol 84 s

end Sys2Proof.Machine
end

