-- ==== Sys2Proof/Machine/Dispatch.lean ====
section
/-! DEFINITION. One arm per row of the opcode table, each one call of that row's meaning. -/

namespace Sys2Proof.Machine

def exec (i : Instr) (s : State) : Host.Outcome State Fault Refusal :=
  match i with
  | .benc => Sys2Proof.Machine.execBenc s
  | .bdec => Sys2Proof.Machine.execBdec s
  | .fenc => Sys2Proof.Machine.execFenc s
  | .fdec => Sys2Proof.Machine.execFdec s
  | .hdrLong hi lo => Sys2Proof.Machine.execHdrLong hi lo s
  | .hdrShort n => Sys2Proof.Machine.execHdrShort n s
  | .sym00 => Sys2Proof.Machine.execSym00 s
  | .sym01 => Sys2Proof.Machine.execSym01 s
  | .sym02 => Sys2Proof.Machine.execSym02 s
  | .sym03 => Sys2Proof.Machine.execSym03 s
  | .sym04 => Sys2Proof.Machine.execSym04 s
  | .sym05 => Sys2Proof.Machine.execSym05 s
  | .sym06 => Sys2Proof.Machine.execSym06 s
  | .sym07 => Sys2Proof.Machine.execSym07 s
  | .sym08 => Sys2Proof.Machine.execSym08 s
  | .sym09 => Sys2Proof.Machine.execSym09 s
  | .sym10 => Sys2Proof.Machine.execSym10 s
  | .sym11 => Sys2Proof.Machine.execSym11 s
  | .sym12 => Sys2Proof.Machine.execSym12 s
  | .sym13 => Sys2Proof.Machine.execSym13 s
  | .sym14 => Sys2Proof.Machine.execSym14 s
  | .sym15 => Sys2Proof.Machine.execSym15 s
  | .sym16 => Sys2Proof.Machine.execSym16 s
  | .sym17 => Sys2Proof.Machine.execSym17 s
  | .sym18 => Sys2Proof.Machine.execSym18 s
  | .sym19 => Sys2Proof.Machine.execSym19 s
  | .sym20 => Sys2Proof.Machine.execSym20 s
  | .sym21 => Sys2Proof.Machine.execSym21 s
  | .sym22 => Sys2Proof.Machine.execSym22 s
  | .sym23 => Sys2Proof.Machine.execSym23 s
  | .sym24 => Sys2Proof.Machine.execSym24 s
  | .sym25 => Sys2Proof.Machine.execSym25 s
  | .sym26 => Sys2Proof.Machine.execSym26 s
  | .sym27 => Sys2Proof.Machine.execSym27 s
  | .sym28 => Sys2Proof.Machine.execSym28 s
  | .sym29 => Sys2Proof.Machine.execSym29 s
  | .sym30 => Sys2Proof.Machine.execSym30 s
  | .sym31 => Sys2Proof.Machine.execSym31 s
  | .sym32 => Sys2Proof.Machine.execSym32 s
  | .sym33 => Sys2Proof.Machine.execSym33 s
  | .sym34 => Sys2Proof.Machine.execSym34 s
  | .sym35 => Sys2Proof.Machine.execSym35 s
  | .sym36 => Sys2Proof.Machine.execSym36 s
  | .sym37 => Sys2Proof.Machine.execSym37 s
  | .sym38 => Sys2Proof.Machine.execSym38 s
  | .sym39 => Sys2Proof.Machine.execSym39 s
  | .sym40 => Sys2Proof.Machine.execSym40 s
  | .sym41 => Sys2Proof.Machine.execSym41 s
  | .sym42 => Sys2Proof.Machine.execSym42 s
  | .sym43 => Sys2Proof.Machine.execSym43 s
  | .sym44 => Sys2Proof.Machine.execSym44 s
  | .sym45 => Sys2Proof.Machine.execSym45 s
  | .sym46 => Sys2Proof.Machine.execSym46 s
  | .sym47 => Sys2Proof.Machine.execSym47 s
  | .sym48 => Sys2Proof.Machine.execSym48 s
  | .sym49 => Sys2Proof.Machine.execSym49 s
  | .sym50 => Sys2Proof.Machine.execSym50 s
  | .sym51 => Sys2Proof.Machine.execSym51 s
  | .sym52 => Sys2Proof.Machine.execSym52 s
  | .sym53 => Sys2Proof.Machine.execSym53 s
  | .sym54 => Sys2Proof.Machine.execSym54 s
  | .sym55 => Sys2Proof.Machine.execSym55 s
  | .sym56 => Sys2Proof.Machine.execSym56 s
  | .sym57 => Sys2Proof.Machine.execSym57 s
  | .sym58 => Sys2Proof.Machine.execSym58 s
  | .sym59 => Sys2Proof.Machine.execSym59 s
  | .sym60 => Sys2Proof.Machine.execSym60 s
  | .sym61 => Sys2Proof.Machine.execSym61 s
  | .sym62 => Sys2Proof.Machine.execSym62 s
  | .sym63 => Sys2Proof.Machine.execSym63 s
  | .sym64 => Sys2Proof.Machine.execSym64 s
  | .sym65 => Sys2Proof.Machine.execSym65 s
  | .sym66 => Sys2Proof.Machine.execSym66 s
  | .sym67 => Sys2Proof.Machine.execSym67 s
  | .sym68 => Sys2Proof.Machine.execSym68 s
  | .sym69 => Sys2Proof.Machine.execSym69 s
  | .sym70 => Sys2Proof.Machine.execSym70 s
  | .sym71 => Sys2Proof.Machine.execSym71 s
  | .sym72 => Sys2Proof.Machine.execSym72 s
  | .sym73 => Sys2Proof.Machine.execSym73 s
  | .sym74 => Sys2Proof.Machine.execSym74 s
  | .sym75 => Sys2Proof.Machine.execSym75 s
  | .sym76 => Sys2Proof.Machine.execSym76 s
  | .sym77 => Sys2Proof.Machine.execSym77 s
  | .sym78 => Sys2Proof.Machine.execSym78 s
  | .sym79 => Sys2Proof.Machine.execSym79 s
  | .sym80 => Sys2Proof.Machine.execSym80 s
  | .sym81 => Sys2Proof.Machine.execSym81 s
  | .sym82 => Sys2Proof.Machine.execSym82 s
  | .sym83 => Sys2Proof.Machine.execSym83 s
  | .sym84 => Sys2Proof.Machine.execSym84 s

end Sys2Proof.Machine
end

