-- ==== Sys2Proof/Machine/Sequencer.lean ====
section
/-! DEFINITION. One step of the block while `PHASE = BUSY`. A latched command runs in one piece when the host waits
(70_reset_and_hazards.md R239, log 1), or word by word when the schedule lets the block take single internal steps: then
the control decisions of 44_frame.md R182 are made here, and each header and each character is a word that is decoded
and run (log 3). -/

namespace Sys2Proof.Machine

/-- What the block finds where its next word stands. -/
inductive Fetch where
  /-- A word of the opcode table. -/
  | word (i : Instr)
  /-- Data that is no word: the operation ends with this error (R126, R146). -/
  | error (e : ErrCode)
  /-- A cell without a value. -/
  | refuse (r : Refusal)
deriving DecidableEq, Repr

/-- The word decoded, or the error that bytes outside the format raise. -/
def Fetch.ofDecoded (e : ErrCode) : Decoded → Fetch
  | .instr i _ => .word i
  | .error _ => .error e

/-! ## Where the next word stands -/

/-- The command in `OPL` (R80). All four values are commands (R96), so this is always a word. -/
def fetchCommand (s : State) : Fetch :=
  .ofDecoded .invalidLength (decode .cmd [s.work.opl.setWidth 8])

/-- The header `FENC` writes: the form is selected by the payload length alone (R141, R183). -/
def headerOf (n : Len) : Instr :=
  if n.toNat ≤ 255 then .hdrShort (n.setWidth 8)
  else .hdrLong (n.extractLsb' 32 32) (n.extractLsb' 0 32)

/-- The header `FENC` selects, or the header `FDEC` finds at the start of `T`; no byte beyond `TLEN` is read (R146). -/
def fetchHeader (s : State) : Fetch :=
  if decodes s.work.opl then
    match s.t.readCells 0 (min 9 s.work.tlen.toNat) with
    | some bytes => .ofDecoded .truncatedInput (decode .hdr bytes)
    | none => .refuse .unwrittenIntermediate
  else .word (headerOf s.work.ilenl)

/-- The character of digit `k` of `V` (R110), or the character in `IN` (R125, R126). -/
def fetchSymbol (s : State) : Fetch :=
  if decodes s.work.opl then
    match s.inp.read (charIndex s) with
    | some c => .ofDecoded .encodingFailure (decode .sym [c])
    | none => .refuse .unwrittenInput
  else .word (.sym (digitOf s.work.v.toNat s.work.k))

/-- Run what was fetched: a word by its meaning, no word by the error it raises. -/
def runFetched (f : Fetch) (s : State) : Host.Outcome State Fault Refusal :=
  match f with
  | .word i => exec i s
  | .error e => .next (raise e s)
  | .refuse r => .refused r

/-! ## The control decisions of R182 -/

/-- Before the first group. -/
def enterGroups (s : State) : State :=
  { s with work := { s.work with gi := 0, stage := .group } }

/-- Command select, empty bypass and length check (R182); a framed operation needs room for its `T` (R40). -/
def beginOperation (s : State) : Host.Outcome State Fault Refusal :=
  withCapacity s <|
    let n := s.work.ilenl.toNat
    if framed s.work.opl && n == 0 then finish 0 s
    else if decodes s.work.opl then
      if n % 5 ≠ 0 then .next (raise .invalidLength s)
      else if framed s.work.opl then
        withStore (n / 5 * 4) s <|
          .next (enterGroups { s with work := { s.work with tlen := BitVec.ofNat 65 (n / 5 * 4) } })
      else .next (enterGroups s)
    else if framed s.work.opl then
      withStore (framedLength s.work.ilenl) s <|
        .next { s with work := { s.work with dlen := s.work.ilenl, stage := .header } }
    else if n % 4 ≠ 0 then .next (raise .invalidLength s)
    else .next (enterGroups s)

/-- Pad count and assembly of `T` behind its header (R172 steps 2 and 3), with a fresh pad-fill draw (R158). -/
def padStep (s : State) : Host.Outcome State Fault Refusal :=
  withInput s fun xs =>
    let total := s.work.hlen.toNat + s.work.dlen.toNat
    let p := padcalc total
    .next (enterGroups { s with
      t := (s.t.writeCells s.work.hlen.toNat xs).writeCells total (padBytes s.draws p)
      draws := s.draws + 1
      work := { s.work with
        total := BitVec.ofNat 65 total, padn := BitVec.ofNat 2 p, tlen := BitVec.ofNat 65 (total + p) } })

/-- Truncation test and slice (R178 steps 2 and 3). -/
def stripStep (s : State) : Host.Outcome State Fault Refusal :=
  let total := s.work.hlen.toNat + s.work.dlen.toNat
  if total > s.work.tlen.toNat then .next (raise .truncatedInput s)
  else
    match s.t.readCells s.work.hlen.toNat s.work.dlen.toNat with
    | some payload => deliver payload { s with work := { s.work with total := BitVec.ofNat 65 total } }
    | none => .refused .unwrittenIntermediate

/-- Number of groups of the operation (R113, R129, R170, R176). -/
def groupCount (s : State) : Nat :=
  if decodes s.work.opl then s.work.ilenl.toNat / 5
  else if framed s.work.opl then s.work.tlen.toNat / 4
  else s.work.ilenl.toNat / 4

/-- Start group `GI`: `V` is the group's value (encode), or 0 (decode). -/
def loadGroup (s : State) : Host.Outcome State Fault Refusal :=
  if decodes s.work.opl then .next { s with work := { s.work with v := 0, k := 0, stage := .symbol } }
  else
    match (if framed s.work.opl then s.t else s.inp).readCells (4 * s.work.gi.toNat) 4 with
    | some [b0, b1, b2, b3] =>
      .next { s with work := { s.work with v := (be32 b0 b1 b2 b3).setWidth 33, k := 0, stage := .symbol } }
    | _ => .refused (if framed s.work.opl then .unwrittenIntermediate else .unwrittenInput)

/-- After the last group: the operation ends, or `FDEC` goes on to the header in `T`. -/
def endGroups (s : State) : Host.Outcome State Fault Refusal :=
  if !decodes s.work.opl then finish (groupCount s * 5) s
  else if framed s.work.opl then .next { s with work := { s.work with stage := .header } }
  else finish (groupCount s * 4) s

/-- Between two groups: the group loop in index order (R53, R182). -/
def nextGroup (s : State) : Host.Outcome State Fault Refusal :=
  if s.work.gi.toNat < groupCount s then loadGroup s else endGroups s

/-- After the fifth character. Decode direction: the overflow test (R127), then the group's four bytes go to `OUT`
(`BDEC`, R129) or to `T` (`FDEC`, R176). -/
def endGroup (s : State) : Host.Outcome State Fault Refusal :=
  let advance (s : State) : State := { s with work := { s.work with gi := s.work.gi + 1, stage := .group } }
  if decodes s.work.opl then
    if overflows s.work.v then .next (raise .encodingFailure s)
    else
      let bytes := unbe32 (groupValue s.work.v)
      if framed s.work.opl then .next (advance { s with t := s.t.writeCells (4 * s.work.gi.toNat) bytes })
      else .next (advance (writeOutCells s (4 * s.work.gi.toNat) bytes))
  else .next (advance s)

/-! ## The step of the block -/

/-- Where the sequencer stands at a word: the fetch of that word. `whole` says that a latched command runs in one
piece. -/
def wordHere (whole : Bool) (s : State) : Option Fetch :=
  match s.work.stage with
  | .command => if whole then some (fetchCommand s) else none
  | .header => some (fetchHeader s)
  | .symbol => if s.work.k < 5 then some (fetchSymbol s) else none
  | .pad | .strip | .group => none

/-- Where the sequencer stands at a control decision: that decision. -/
def controlHere (s : State) : Host.Outcome State Fault Refusal :=
  match s.work.stage with
  | .command => beginOperation s
  | .header => runFetched (fetchHeader s) s
  | .pad => padStep s
  | .strip => stripStep s
  | .group => nextGroup s
  | .symbol => endGroup s

/-- One step of the block. Between operations nothing advances (R28). -/
def blockStep (whole : Bool) (s : State) : Host.Outcome State Fault Refusal :=
  match s.phase with
  | .idle | .done => .next s
  | .busy =>
    match wordHere whole s with
    | some f => runFetched f s
    | none => controlHere s

/-! ## Placing a word where the block fetches it -/

/-- A command: `OP` is written and `START` latches it. -/
def placeCommand (s : State) (b : Byte) : State := latch { s with op := b.setWidth 2 }

/-- A header: an `FDEC` stands at the header of a `T` of twelve bytes that begins with `bytes`. -/
def placeHeader (s : State) (bytes : List Byte) : State :=
  { s with
    phase := .busy
    t := Memory.writeCells [] 0 bytes
    work := { s.work with opl := 3, tlen := BitVec.ofNat 65 bytes.length, stage := .header } }

/-- A character: a `BDEC` stands at the first character of its first group. -/
def placeSymbol (s : State) (c : Byte) : State :=
  { s with
    phase := .busy
    inp := s.inp.write 0 c
    work := { s.work with opl := 1, gi := 0, k := 0, stage := .symbol } }

/-- The word of the opcode table placed where the block fetches that row's format (log 15, log 17). -/
def placeWord (s : State) (nbits w : Nat) : State :=
  let bytes := wordBytes w 12
  match (decodeTableWord nbits w).map Instr.format with
  | some .cmd => placeCommand s (BitVec.ofNat 8 w)
  | some .hdr => placeHeader s bytes
  | some .sym => placeSymbol s (BitVec.ofNat 8 w)
  | none => s

end Sys2Proof.Machine
end

