-- ==== Sys2Proof/Machine/Handshake.lean ====
section
/-! DEFINITION. What the host can do to the block (10_state.md R36, R38; 30_encoding.md R98; 70_reset_and_hazards.md
R230): its writes, `START`, reset, its reads, and the script lines `MOVE` and `CUT`. -/

namespace Sys2Proof.Machine

/-- The host writes one cell of `IN`. While `PHASE = BUSY` a cell below `ILENL` has no step (R38, U5, log 19); an index
outside `CAP_IN` is no cell (R59, log 18). -/
def hostWriteIn (a : Nat) (b : Byte) (s : State) : Host.Outcome State Fault Refusal :=
  if !fits s.capIn (a + 1) then .fault .noSuchInCell
  else if s.phase = .busy ∧ a < s.work.ilenl.toNat then .refused .inputWrittenWhileBusy
  else .next { s with inp := s.inp.write a b }

/-- The host asserts `START` (R23): ignored while `BUSY`; otherwise the operation is latched, provided it is admitted,
that is, provided the operation it would begin has a step (R40, log 8). -/
def hostStart (s : State) : Host.Outcome State Fault Refusal :=
  if s.phase = .busy then .next s
  else
    match runFetched (fetchCommand (latch s)) (latch s) with
    | .next _ => .next (latch s)
    | .fault f => .fault f
    | .refused r => .refused r

/-- Reset (R39, R230): every register and address space as after reset; the platform's parameters, the host's own
turns and what it has read, and the count of free values are no part of the block (log 24). -/
def hostReset (s : State) : State :=
  { State.reset with
    draws := s.draws, capIn := s.capIn, capOut := s.capOut, capT := s.capT, host := s.host
    lastRead := s.lastRead }

/-- The value a host read of `OUT[a]` gives: the delivered cell while `PHASE = DONE`, `ERR = 0` and `a < OLEN` (R26,
R31, R235), otherwise a free value (U4, log 5). -/
def outCell (s : State) (a : Nat) : Byte :=
  if s.phase = .done ∧ s.err = .ok ∧ a < s.olen.toNat then (s.out.read a).getD (Config.outCell s.draws a)
  else Config.outCell s.draws a

/-- The host reads one cell of `OUT`; an index outside `CAP_OUT` is no cell (R59, log 18). -/
def hostReadOut (a : Nat) (s : State) : Host.Outcome State Fault Refusal :=
  if !fits s.capOut (a + 1) then .fault .noSuchOutCell
  else .next { s with lastRead := some (.out a (outCell s a)), draws := s.draws + 1 }

/-- `MOVE` (R98): legal when `ERR = 0` and `OLEN < 2^64`. Before the first operation and while `BUSY`, `OLEN` is 0 (R26,
R39) and so it copies no cell. -/
def hostMove (s : State) : Host.Outcome State Fault Refusal :=
  if s.err = .ok ∧ s.olen.toNat < 2 ^ 64 then
    if !fits s.capIn s.olen.toNat then .fault .noSuchInCell
    else .next { s with
      inp := s.inp.writeCells 0 ((List.range s.olen.toNat).map (outCell s))
      ilen := s.olen.setWidth 64
      draws := s.draws + 1 }
  else .refused .moveNotLegal

/-- `CUT k` (R98): `ILEN - k` goes to `ILEN`. The rule states no result below 0: there `ILEN` takes a free value
(log 27). -/
def hostCut (k : Nat) (s : State) : Host.Outcome State Fault Refusal :=
  if k ≤ s.ilen.toNat then .next { s with ilen := s.ilen - BitVec.ofNat 64 k }
  else .next { s with ilen := Config.cutIlen s.draws, draws := s.draws + 1 }

/-- One turn of the schedule. -/
def takeTurn (turn : HostTurn) (s : State) : Host.Outcome State Fault Refusal :=
  match turn with
  | .writeOp v => .next { s with op := v }
  | .writeIlen n => .next { s with ilen := n }
  | .writeIn a b => hostWriteIn a b s
  | .start => hostStart s
  | .reset => .next (hostReset s)
  | .readPhase => .next { s with lastRead := some (.phase s.phase.code) }
  | .readErr => .next { s with lastRead := some (.err s.err.code) }
  | .readOlen => .next { s with lastRead := some (.olen s.olen) }
  | .readOut a => hostReadOut a s
  | .move => hostMove s
  | .cut k => hostCut k s
  | .wait => blockStep true s
  | .pass => blockStep false s

/-- Cells written from index `a` on. -/
def writeInTurns (a : Nat) : List Byte → List HostTurn
  | [] => []
  | b :: bs => .writeIn a b :: writeInTurns (a + 1) bs

/-- Script lines `LOAD hex` and `LOAD text` (R98): the bytes to `IN[0 ..]`, their count to `ILEN`. -/
def loadTurns (bytes : List Byte) : List HostTurn :=
  writeInTurns 0 bytes ++ [.writeIlen (BitVec.ofNat 64 bytes.length)]

/-- Script lines `BENC`, `BDEC`, `FENC`, `FDEC` (R98): write `OP`, assert `START`, wait. -/
def commandTurns (op : BitVec 2) : List HostTurn := [.writeOp op, .start, .wait]

end Sys2Proof.Machine
end

