-- ==== Sys2Proof/Machine/Step.lean ====
section
/-! DEFINITION. One step of the machine: the next turn of the schedule, or, when the host has no turn left, a step of
the block (log 2). -/

namespace Sys2Proof.Machine

/-- One step. -/
def step (s : State) : Host.Outcome State Fault Refusal :=
  match s.host with
  | [] => blockStep true s
  | turn :: rest => takeTurn turn { s with host := rest }

/-- The table word placed where the block fetches it, and the next turn given to the block (log 17). -/
def State.withFetchWord (s : State) (nbits w : Nat) : State :=
  let s' := placeWord s nbits w
  { s' with host := match s.host with | [] => [] | turns => .wait :: turns }

end Sys2Proof.Machine
end

