-- ==== Sys2Proof/Safety.lean ====
section
/-! DEFINITION. The terms claims are made in: how an operation ends, what a step leaves alone, and the invariant of the
machine. -/

namespace Sys2Proof.Machine

/-! ## How an operation ends -/

/-- What no operation of the block ever writes: `OP`, `ILEN`, `IN` (10_state.md R21, R22, R30; 60_exceptions.md R206),
the parameters, and the host's side. -/
def KeepsInputs (s t : State) : Prop :=
  t.op = s.op ∧ t.ilen = s.ilen ∧ t.inp = s.inp ∧ t.capIn = s.capIn ∧ t.capOut = s.capOut ∧
    t.capT = s.capT ∧ t.host = s.host ∧ t.lastRead = s.lastRead

/-- The operation has ended with `ERR = 0` and delivered exactly `bytes` (10_state.md R26, R31). -/
def Delivers (bytes : List Byte) (t : State) : Prop :=
  t.phase = .done ∧ t.err = .ok ∧ t.olen.toNat = bytes.length ∧
    t.out.readCells 0 bytes.length = some bytes ∧ ∀ a, bytes.length ≤ a → t.out.read a = none

/-- The operation has ended with an error and no output (60_exceptions.md R204, R206). -/
def FailsWith (e : ErrCode) (t : State) : Prop :=
  t.phase = .done ∧ t.err = e ∧ t.olen = 0 ∧ ∀ a, t.out.read a = none

/-- The operation latched in `s` is admitted as far as its input goes, and `xs` is its input sequence (10_state.md R22,
R30, R40; 70_reset_and_hazards.md R233). -/
def HasInput (s : State) (xs : List Byte) : Prop :=
  fits s.capIn s.work.ilenl.toNat = true ∧ s.inp.readCells 0 s.work.ilenl.toNat = some xs

/-! ## Groups, numbered as 20_memory.md R53 numbers them -/

/-- The number group `i` of a byte sequence stands for (20_memory.md R50). -/
def groupNumber (bytes : List Byte) (i : Nat) : Nat :=
  (bytes.getD (4 * i) 0).toNat * 2 ^ 24 + (bytes.getD (4 * i + 1) 0).toNat * 2 ^ 16 +
    (bytes.getD (4 * i + 2) 0).toNat * 2 ^ 8 + (bytes.getD (4 * i + 3) 0).toNat

/-- The number group `i` of a text stands for (20_memory.md R51), if all its five characters are recognised. -/
def textNumber (text : List Byte) (i : Nat) : Option Nat :=
  match romD (text.getD (5 * i) 0), romD (text.getD (5 * i + 1) 0), romD (text.getD (5 * i + 2) 0),
    romD (text.getD (5 * i + 3) 0), romD (text.getD (5 * i + 4) 0) with
  | some d0, some d1, some d2, some d3, some d4 =>
    some (d0.val * 85 ^ 4 + d1.val * 85 ^ 3 + d2.val * 85 ^ 2 + d3.val * 85 + d4.val)
  | _, _, _, _, _ => none

/-- `m` holds the text of `bytes` from index 0 on: character `k` of group `i` is that of digit
`(v div 85^(4-k)) mod 85` (30_encoding.md R85, 40_enc85.md R110, R113). -/
def HoldsTextOf (bytes : List Byte) (m : Memory) : Prop :=
  ∀ i k, i < bytes.length / 4 → k < 5 →
    m.read (5 * i + k) = some (romA (Fin.ofNat 85 (groupNumber bytes i / 85 ^ (4 - k))))

/-- Every group of `text` decodes, and group `i` of `bytes` is its value (41_dec85.md R129, R133). -/
def DecodesTo (text bytes : List Byte) : Prop :=
  bytes.length = text.length / 5 * 4 ∧ ∀ i, i < text.length / 5 → textNumber text i = some (groupNumber bytes i)

/-- Group `i` of `text` holds an unrecognised character or spells `2^32` or more (41_dec85.md R126, R127). -/
def GroupFails (text : List Byte) (i : Nat) : Prop :=
  ∀ v, textNumber text i = some v → 2 ^ 32 ≤ v

/-- The header at the start of `buffer` has `h` bytes and declares `d` (30_encoding.md R90, R91, R93). -/
def HasHeader (buffer : List Byte) (h d : Nat) : Prop :=
  (buffer.getD 0 0 ≠ 0 ∧ h = 1 ∧ d = (buffer.getD 0 0).toNat) ∨
    (buffer.getD 0 0 = 0 ∧ 9 ≤ buffer.length ∧ h = 9 ∧
      d = groupNumber (buffer.drop 1) 0 * 2 ^ 32 + groupNumber (buffer.drop 1) 1)

/-- The command an `OP` value selects (10_state.md R21). -/
def selected (op : BitVec 2) : Instr :=
  if op = 0 then .benc else if op = 1 then .bdec else if op = 2 then .fenc else .fdec

/-- `START` given in `s` would be honoured on the input `xs`: no operation is running, the cells of `IN[0 .. ILEN)` hold
`xs`, within `CAP_IN` (10_state.md R23, R40; 70_reset_and_hazards.md R233). -/
def ReadyWith (s : State) (xs : List Byte) : Prop :=
  s.phase ≠ .busy ∧ fits s.capIn s.ilen.toNat = true ∧ s.inp.readCells 0 s.ilen.toNat = some xs

/-- The machine run for exactly the turns `turns` from `s`. -/
def runTurns (s : State) (turns : List HostTurn) : Host.Outcome State Fault Refusal :=
  Host.Core.run core turns.length { s with host := turns }

/-! ## The invariant -/

/-- The listed cells are exactly those at indices below `n`. -/
abbrev Covers (m : Memory) (n : Nat) : Prop := m.map Prod.fst = List.range n

/-- How many of `n` cells a capacity provides. -/
def capped (cap : Option Nat) (n : Nat) : Nat :=
  match cap with
  | none => n
  | some c => min n c

/-- `OLEN` of a `FENC` of `n` payload bytes, by the closed form of 44_frame.md R173. -/
def framedTextLength (n : Nat) : Nat :=
  if n = 0 then 0 else if n ≤ 255 then 5 * (n / 4 + 1) else 5 * (n / 4 + 3)

/-- What `OUT` and `T` hold once `done` characters of group `GI` are processed (20_memory.md R67). -/
def GroupsInv (s : State) (done : Nat) : Prop :=
  let w := s.work
  if decodes w.opl then
    w.ilenl.toNat % 5 = 0 ∧
    if framed w.opl then
      w.ilenl ≠ 0 ∧ w.tlen.toNat = w.ilenl.toNat / 5 * 4 ∧ Covers s.t (4 * w.gi.toNat) ∧ s.out = [] ∧
        fits s.capT w.tlen.toNat = true
    else s.t = [] ∧ Covers s.out (capped s.capOut (4 * w.gi.toNat))
  else
    Covers s.out (capped s.capOut (5 * w.gi.toNat + done)) ∧
    if framed w.opl then
      w.ilenl ≠ 0 ∧ w.tlen.toNat = framedLength w.ilenl ∧ Covers s.t w.tlen.toNat
    else w.ilenl.toNat % 4 = 0 ∧ s.t = []

/-- What holds inside an operation, by the place of the sequencer. -/
def StageInv (s : State) : Prop :=
  let w := s.work
  match w.stage with
  | .command => s.out = [] ∧ s.t = []
  | .header =>
    framed w.opl = true ∧ w.ilenl ≠ 0 ∧ s.out = [] ∧
      if decodes w.opl then
        w.ilenl.toNat % 5 = 0 ∧ w.tlen.toNat = w.ilenl.toNat / 5 * 4 ∧ Covers s.t w.tlen.toNat
      else w.dlen = w.ilenl ∧ s.t = [] ∧ fits s.capT (framedLength w.ilenl) = true
  | .pad =>
    w.opl = 2 ∧ w.ilenl ≠ 0 ∧ w.dlen = w.ilenl ∧ w.hlen.toNat = (hdrenc w.ilenl).length ∧
      Covers s.t w.hlen.toNat ∧ s.out = [] ∧ fits s.capT (framedLength w.ilenl) = true
  | .strip => w.opl = 3 ∧ Covers s.t w.tlen.toNat ∧ s.out = []
  | .group => w.gi.toNat ≤ groupCount s ∧ GroupsInv s 0
  | .symbol => w.gi.toNat < groupCount s ∧ w.k ≤ 5 ∧ GroupsInv s w.k

/-- What the status registers promise of `OUT` and `T` in each phase (10_state.md R24, R25, R26, R31, R32). -/
def PhaseInv (s : State) : Prop :=
  match s.phase with
  | .idle => s.err = .ok ∧ s.olen = 0 ∧ s.out = [] ∧ s.t = []
  | .busy => s.err = .ok ∧ s.olen = 0 ∧ StageInv s
  | .done =>
    s.t = [] ∧
      if s.err = .ok then Covers s.out s.olen.toNat ∧ fits s.capOut s.olen.toNat = true
      else s.olen = 0 ∧ s.out = []

/-- The invariant: `IN` is in canonical form within its capacity, `T` lies within its store, and the phase keeps its
promise. -/
def MachineInv (s : State) : Prop :=
  s.inp.wf = true ∧ (∀ c ∈ s.inp, fits s.capIn (c.1 + 1) = true) ∧
    (∀ c ∈ s.t, fits s.capT (c.1 + 1) = true) ∧ PhaseInv s

end Sys2Proof.Machine
end

