-- ==== Sys2Proof/Certificates/Slice0/Obligations.lean ====
section
/-! DEFINITION. The statements for the provers. Each docstring names the rule of spec/ it formalises. Where a statement
speaks of `pad_fill` it holds for every value of the draw, because `Config.padFill` has no body. -/

open Sys2Proof Sys2Proof.Machine

/-! ## Tables and encodings -/

/-- 30_encoding.md R86, the closed form of the alphabet (52 rows are the spec's general knowledge, log 13). -/
def Obligations.AlphabetClosedForm : Prop :=
  ∀ d : Digit,
    (d.val < 10 → (romA d).toNat = 0x30 + d.val) ∧
    (10 ≤ d.val ∧ d.val < 36 → (romA d).toNat = 0x61 + (d.val - 10)) ∧
    (36 ≤ d.val ∧ d.val < 62 → (romA d).toNat = 0x41 + (d.val - 36)) ∧
    (62 ≤ d.val → [0x2E, 0x2D, 0x3A, 0x2B, 0x3D, 0x5E, 0x21, 0x2F, 0x2A, 0x3F, 0x26, 0x3C, 0x3E, 0x28, 0x29, 0x5B,
      0x5D, 0x7B, 0x7D, 0x40, 0x25, 0x24, 0x23][d.val - 62]? = some (romA d))

/-- 30_encoding.md R87: `ROM_D` is the inverse of `ROM_A`, and the valid codes are the ranges the rule lists. -/
def Obligations.RomDIsTheInverseOfRomA : Prop :=
  (∀ (c : Byte) (d : Digit), romD c = some d ↔ romA d = c) ∧
  ∀ c : Byte, (romD c).isSome = true ↔
    (c = 0x21 ∨ (0x23 ≤ c ∧ c ≤ 0x26) ∨ (0x28 ≤ c ∧ c ≤ 0x2B) ∨ (0x2D ≤ c ∧ c ≤ 0x3A) ∨ (0x3C ≤ c ∧ c ≤ 0x5B) ∨
      (0x5D ≤ c ∧ c ≤ 0x5E) ∨ (0x61 ≤ c ∧ c ≤ 0x7B) ∨ c = 0x7D)

/-- 30_encoding.md R80, R96: each of the four values of `OP` is the word of its command. -/
def Obligations.OpSelectsTheCommand : Prop :=
  ∀ op : BitVec 2, decode .cmd [op.setWidth 8] = .instr (selected op) [] ∧
    (selected op).format = .cmd ∧
    (decodes op = true ↔ selected op = .bdec ∨ selected op = .fdec) ∧
    (framed op = true ↔ selected op = .fenc ∨ selected op = .fdec)

/-- Words written out from the encodings of R80, R86, R90, R91 decode to their instructions. -/
def Obligations.SampleWordsDecode : Prop :=
  decode .cmd [0b00] = .instr .benc [] ∧ decode .cmd [0b01] = .instr .bdec [] ∧
  decode .cmd [0b10] = .instr .fenc [] ∧ decode .cmd [0b11] = .instr .fdec [] ∧
  decode .hdr [0x03, 0x61] = .instr (.hdrShort 3) [0x61] ∧
  decode .hdr [0x00, 0x00, 0x00, 0x00, 0x01, 0x00, 0x00, 0x04, 0xB0, 0x61] = .instr (.hdrLong 1 1200) [0x61] ∧
  decode .sym [0x30] = .instr .sym00 [] ∧ decode .sym [0x61] = .instr .sym10 [] ∧
  decode .sym [0x41] = .instr .sym36 [] ∧ decode .sym [0x23] = .instr .sym84 [] ∧
  decode .sym [0x20] = .error (.unrecognisedCharacter 0x20)

/-- Every well-formed row of the opcode table, with every operand, decodes from its own word and leaves the bytes after
it. -/
def Obligations.DecodeInvertsEncode : Prop :=
  ∀ (i : Instr) (rest : List Byte), i.wellFormed = true →
    decode i.format (encode i ++ rest) = .instr i rest

/-- Every word has one meaning in its format: what decodes is the encoding of a well-formed row of that format. -/
def Obligations.EncodeInvertsDecode : Prop :=
  ∀ (f : Format) (bytes rest : List Byte) (i : Instr), decode f bytes = .instr i rest →
    i.format = f ∧ i.wellFormed = true ∧ encode i ++ rest = bytes

/-- A step runs the decoded instruction, in each of the three places the block fetches from: the command in `OPL`, the
header in `T`, the character in `IN`. With no turn left the step is `exec` itself; a turn `wait` is taken off first.
(How the sequencer stands is the model's own, log 3.) -/
def Obligations.StepRunsTheDecodedWord : Prop :=
  ∀ (s : State) (i : Instr) (rest : List Byte), s.phase = .busy →
    (s.work.stage = .command ∧ decode .cmd [s.work.opl.setWidth 8] = .instr i rest) ∨
    (s.work.stage = .header ∧ decodes s.work.opl = true ∧ ∃ bytes,
      s.t.readCells 0 (min 9 s.work.tlen.toNat) = some bytes ∧ decode .hdr bytes = .instr i rest) ∨
    (s.work.stage = .symbol ∧ s.work.k < 5 ∧ decodes s.work.opl = true ∧ ∃ c,
      s.inp.read (5 * s.work.gi.toNat + s.work.k) = some c ∧ decode .sym [c] = .instr i rest) →
    (s.host = [] → step s = exec i s) ∧
    ∀ turns, s.host = .wait :: turns → step s = exec i { s with host := turns }

/-! ## ENC85, DEC85, BENC, BDEC -/

/-- 40_enc85.md R110: five digits, most significant first, each through `ROM_A`. -/
def Obligations.Enc85Characters : Prop :=
  ∀ v : BitVec 32, ∃ d0 d1 d2 d3 d4 : Digit,
    d0.val = v.toNat / 52200625 % 85 ∧ d1.val = v.toNat / 614125 % 85 ∧ d2.val = v.toNat / 7225 % 85 ∧
    d3.val = v.toNat / 85 % 85 ∧ d4.val = v.toNat % 85 ∧
    enc85 v = [romA d0, romA d1, romA d2, romA d3, romA d4]

/-- 41_dec85.md R125, R126: five recognised characters accumulate to their base-85 number, which is the result if it
is below `2^32`; one unrecognised character, wherever it stands, makes the group fail; so does a number of `2^32` or
more (R127, the spec's decision D10, log 14). -/
def Obligations.Dec85Accumulates : Prop :=
  ∀ c0 c1 c2 c3 c4 : Byte,
    (∀ d0 d1 d2 d3 d4 : Digit, romD c0 = some d0 → romD c1 = some d1 → romD c2 = some d2 → romD c3 = some d3 →
      romD c4 = some d4 → ∀ n : Nat, n = (((d0.val * 85 + d1.val) * 85 + d2.val) * 85 + d3.val) * 85 + d4.val →
      (n < 2 ^ 32 → ∃ v, dec85 c0 c1 c2 c3 c4 = some v ∧ v.toNat = n) ∧
      (2 ^ 32 ≤ n → dec85 c0 c1 c2 c3 c4 = none)) ∧
    ((romD c0 = none ∨ romD c1 = none ∨ romD c2 = none ∨ romD c3 = none ∨ romD c4 = none) →
      dec85 c0 c1 c2 c3 c4 = none)

/-- 41_dec85.md R128: `DEC85` inverts `ENC85`, and `ENC85` gives back every group on which `DEC85` succeeds. -/
def Obligations.Dec85InvertsEnc85 : Prop :=
  (∀ (v : BitVec 32) (c0 c1 c2 c3 c4 : Byte), enc85 v = [c0, c1, c2, c3, c4] → dec85 c0 c1 c2 c3 c4 = some v) ∧
  ∀ (v : BitVec 32) (c0 c1 c2 c3 c4 : Byte), dec85 c0 c1 c2 c3 c4 = some v → enc85 v = [c0, c1, c2, c3, c4]

/-- 40_enc85.md R113, R117: `BENC` on a whole number of groups ends with `ERR = 0`, `OLEN = (ILEN div 4) * 5`, and in
`OUT` the text of the input; each character has bit 7 clear; nothing the host wrote changes, and no cell of `OUT` at
`OLEN` or above has a specified value. -/
def Obligations.BencEncodesTheInput : Prop :=
  ∀ (s : State) (xs : List Byte), HasInput s xs → s.work.ilenl.toNat % 4 = 0 →
    fits s.capOut (s.work.ilenl.toNat / 4 * 5) = true →
    ∃ t, exec .benc s = .next t ∧ KeepsInputs s t ∧ t.phase = .done ∧ t.err = .ok ∧
      t.olen.toNat = s.work.ilenl.toNat / 4 * 5 ∧ HoldsTextOf xs t.out ∧
      (∀ a c, t.out.read a = some c → c.getLsbD 7 = false) ∧
      ∀ a, t.olen.toNat ≤ a → t.out.read a = none

/-- 40_enc85.md R114, 41_dec85.md R130: the length check of `BENC` and of `BDEC` is made on `ILENL` alone, whatever `IN`
holds. That it needs no written cell of `IN` is the model's reading (60_exceptions.md R201, log 9). -/
def Obligations.BaseCommandsRejectOtherLengths : Prop :=
  ∀ s : State, fits s.capIn s.work.ilenl.toNat = true →
    (s.work.ilenl.toNat % 4 ≠ 0 → ∃ t, exec .benc s = .next t ∧ KeepsInputs s t ∧ FailsWith .invalidLength t) ∧
    (s.work.ilenl.toNat % 5 ≠ 0 → ∃ t, exec .bdec s = .next t ∧ KeepsInputs s t ∧ FailsWith .invalidLength t)

/-- 41_dec85.md R129, R133: `BDEC` on groups that all decode ends with `ERR = 0` and delivers their values as
big-endian bytes. -/
def Obligations.BdecDecodesTheInput : Prop :=
  ∀ (s : State) (text bytes : List Byte), HasInput s text → s.work.ilenl.toNat % 5 = 0 → DecodesTo text bytes →
    fits s.capOut bytes.length = true →
    ∃ t, exec .bdec s = .next t ∧ KeepsInputs s t ∧ Delivers bytes t ∧
      t.olen.toNat = s.work.ilenl.toNat / 5 * 4

/-- 41_dec85.md R132: one failing group, whichever it is, ends `BDEC` with `EncodingFailure` and no output; and without
a failing group it does not fail. (That overflow is a failure is the spec's decision D10, log 14.) -/
def Obligations.BdecFailsExactlyOnAFailingGroup : Prop :=
  ∀ (s : State) (text : List Byte), HasInput s text → s.work.ilenl.toNat % 5 = 0 →
    ((∃ i, i < text.length / 5 ∧ GroupFails text i) →
      ∃ t, exec .bdec s = .next t ∧ KeepsInputs s t ∧ FailsWith .encodingFailure t) ∧
    ∀ t, exec .bdec s = .next t → t.err ≠ .ok →
      t.err = .encodingFailure ∧ ∃ i, i < text.length / 5 ∧ GroupFails text i

/-- 40_enc85.md R115, 41_dec85.md R131, 60_exceptions.md R215: every command on the empty input ends with `ERR = 0`,
`OLEN = 0` and writes no cell of `OUT`. -/
def Obligations.EmptyInputIsNoError : Prop :=
  ∀ (s : State) (op : BitVec 2), s.work.ilenl = 0 →
    ∃ t, exec (selected op) s = .next t ∧ KeepsInputs s t ∧ Delivers [] t

/-! ## LHDR, PADC -/

/-- 42_lhdr.md R140: the short form is the length byte, the long form is `00` and the eight big-endian bytes of the
length. -/
def Obligations.HdrencForms : Prop :=
  ∀ n : Len,
    (n.toNat ≤ 255 → ∃ b : Byte, hdrenc n = [b] ∧ b.toNat = n.toNat) ∧
    (255 < n.toNat → (hdrenc n).length = 9 ∧ (hdrenc n)[0]? = some 0 ∧
      ∀ j, j < 8 → ∃ b : Byte, (hdrenc n)[j + 1]? = some b ∧ b.toNat = n.toNat / 2 ^ (8 * (7 - j)) % 256)

/-- 42_lhdr.md R144: byte 0 alone decides the form; the short form declares byte 0, the long form the 64-bit number of
bytes 1 to 8, and a long form in fewer than nine bytes is truncated (R146, the spec's decision D11, log 14). -/
def Obligations.HdrdecForms : Prop :=
  ∀ (b0 : Byte) (rest : List Byte),
    (b0 ≠ 0 → ∃ d : Len, hdrdec (b0 :: rest) = some (1, d) ∧ d.toNat = b0.toNat) ∧
    (b0 = 0 → rest.length < 8 → hdrdec (b0 :: rest) = none) ∧
    (b0 = 0 → 8 ≤ rest.length → ∃ d : Len, hdrdec (b0 :: rest) = some (9, d) ∧
      d.toNat = groupNumber rest 0 * 2 ^ 32 + groupNumber rest 1)

/-- 42_lhdr.md R147: `HDRDEC` inverts `HDRENC` for every length from 1 on, whatever follows the header. -/
def Obligations.HdrdecInvertsHdrenc : Prop :=
  ∀ (n : Len) (rest : List Byte), n ≠ 0 → hdrdec (hdrenc n ++ rest) = some ((hdrenc n).length, n)

/-- 43_padc.md R155, R156: the pad is the least number that makes the total divisible by 4; behind a header of either
form it is `3 - (n mod 4)`. -/
def Obligations.PadcalcIsTheLeastPad : Prop :=
  ∀ total : Nat, padcalc total = (4 - total % 4) % 4 ∧ (total + padcalc total) % 4 = 0 ∧
    (∀ p, (total + p) % 4 = 0 → padcalc total ≤ p) ∧
    ∀ n : Nat, padcalc (1 + n) = 3 - n % 4 ∧ padcalc (9 + n) = 3 - n % 4

/-- 43_padc.md R159, R160, R161: the sum of header length and declared length is compared without wrap-around; if the
buffer holds that many bytes the slice is cut out, whatever follows it. -/
def Obligations.StripCutsTheDeclaredPayload : Prop :=
  ∀ (buffer : List Byte) (h : Nat) (d : Len),
    (h + d.toNat > buffer.length → strip buffer h d = none) ∧
    (h + d.toNat ≤ buffer.length → ∃ payload, strip buffer h d = some payload ∧ payload.length = d.toNat ∧
      ∀ i, i < d.toNat → payload[i]? = buffer[h + i]?)

/-- 42_lhdr.md R140, R144, 44_frame.md R183, row `HDR_SHORT`: in the encode direction the byte goes to `T[0]` and no
other cell of `T` changes; in the decode direction it is the declared length. Nothing else but `HLEN` and the model's
own `stage` changes. -/
def Obligations.HdrShortBothDirections : Prop :=
  ∀ (s : State) (n : Byte),
    (decodes s.work.opl = false → ∃ t, exec (.hdrShort n) s = .next t ∧ t.t.read 0 = some n ∧
      (∀ a, 1 ≤ a → t.t.read a = s.t.read a) ∧
      t = { s with t := t.t, work := { s.work with hlen := 1, stage := .pad } }) ∧
    (decodes s.work.opl = true → ∃ t d, exec (.hdrShort n) s = .next t ∧ d.toNat = n.toNat ∧
      t = { s with work := { s.work with hlen := 1, dlen := d, stage := .strip } })

/-- 42_lhdr.md R140, R144, R146, 44_frame.md R183, row `HDR_LONG`: in the encode direction `00` and the two halves go
to `T[0 .. 9)` and no other cell of `T` changes; in the decode direction the declared length is `hi * 2^32 + lo`; in a
`T` shorter than nine bytes the operation ends with `TruncatedInput` (the spec's decision D11, log 14). The places of
the sequencer are log 3. -/
def Obligations.HdrLongBothDirections : Prop :=
  ∀ (s : State) (hi lo : BitVec 32),
    (decodes s.work.opl = false → ∃ t, exec (.hdrLong hi lo) s = .next t ∧ t.t.read 0 = some 0 ∧
      (∀ j, j < 4 → ∃ b : Byte, t.t.read (1 + j) = some b ∧ b.toNat = hi.toNat / 2 ^ (8 * (3 - j)) % 256) ∧
      (∀ j, j < 4 → ∃ b : Byte, t.t.read (5 + j) = some b ∧ b.toNat = lo.toNat / 2 ^ (8 * (3 - j)) % 256) ∧
      (∀ a, 9 ≤ a → t.t.read a = s.t.read a) ∧
      t = { s with t := t.t, work := { s.work with hlen := 9, stage := .pad } }) ∧
    (decodes s.work.opl = true → 9 ≤ s.work.tlen.toNat → ∃ t d, exec (.hdrLong hi lo) s = .next t ∧
      d.toNat = hi.toNat * 2 ^ 32 + lo.toNat ∧
      t = { s with work := { s.work with hlen := 9, dlen := d, stage := .strip } }) ∧
    (decodes s.work.opl = true → s.work.tlen.toNat < 9 → ∃ t, exec (.hdrLong hi lo) s = .next t ∧
      KeepsInputs s t ∧ FailsWith .truncatedInput t)

/-! ## The characters -/

/-- 30_encoding.md R85, 41_dec85.md R125, rows `SYM_00` to `SYM_84`: in the decode direction a character of digit `d`
makes `V = V * 85 + d` in the 33-bit register, and nothing else but the model's own `k` changes. -/
def Obligations.CharacterAccumulatesItsDigit : Prop :=
  ∀ (s : State) (i : Instr) (d : Digit), i.digit? = some d → decodes s.work.opl = true →
    ∃ t v, exec i s = .next t ∧ v.toNat = (s.work.v.toNat * 85 + d.val) % 2 ^ 33 ∧
      t = { s with work := { s.work with v := v, k := s.work.k + 1 } }

/-- 40_enc85.md R110, R113, rows `SYM_00` to `SYM_84`: in the encode direction a character of digit `d` puts the code
`ROM_A[d]` into its cell of `OUT`, if `CAP_OUT` provides that cell (log 22), and nothing else but the model's own `k`
changes. -/
def Obligations.CharacterIsWrittenToOut : Prop :=
  ∀ (s : State) (i : Instr) (d : Digit), i.digit? = some d → decodes s.work.opl = false →
    ∃ t, exec i s = .next t ∧
      (fits s.capOut (5 * s.work.gi.toNat + s.work.k + 1) = true →
        t.out.read (5 * s.work.gi.toNat + s.work.k) = some (romA d)) ∧
      (fits s.capOut (5 * s.work.gi.toNat + s.work.k + 1) = false → t.out = s.out) ∧
      (∀ a, a ≠ 5 * s.work.gi.toNat + s.work.k → t.out.read a = s.out.read a) ∧
      t = { s with out := t.out, work := { s.work with k := s.work.k + 1 } }

/-- 41_dec85.md R126, 60_exceptions.md R204: where the sequencer stands at a character that is not in the alphabet, the
next step ends the operation with `EncodingFailure`. (That characters are read one a step is log 3.) -/
def Obligations.UnrecognisedCharacterEndsTheOperation : Prop :=
  ∀ (s : State) (c : Byte), s.phase = .busy → s.host = [] → s.work.stage = .symbol → s.work.k < 5 →
    decodes s.work.opl = true → s.inp.read (5 * s.work.gi.toNat + s.work.k) = some c →
    (∀ d : Digit, romA d ≠ c) →
    ∃ t, step s = .next t ∧ KeepsInputs s t ∧ FailsWith .encodingFailure t

/-! ## FENC, FDEC -/

/-- 44_frame.md R170, R172, 30_encoding.md R95: a non-empty `FENC` ends with `ERR = 0` and the text of
`header ++ payload ++ pad`, the pad being the draw of `padcalc` bytes (any draw, log 4), wherever `OUT` holds the text
and the store for `T` holds the buffer (10_state.md R40). -/
def Obligations.FencEncodesTheFramedPayload : Prop :=
  ∀ (s : State) (xs buffer : List Byte), HasInput s xs → s.work.ilenl ≠ 0 →
    buffer = hdrenc s.work.ilenl ++ xs ++
      (List.range (padcalc ((hdrenc s.work.ilenl).length + s.work.ilenl.toNat))).map (Config.padFill s.draws) →
    fits s.capOut (buffer.length / 4 * 5) = true → fits s.capT buffer.length = true →
    ∃ t, exec .fenc s = .next t ∧ KeepsInputs s t ∧ t.phase = .done ∧ t.err = .ok ∧ buffer.length % 4 = 0 ∧
      t.olen.toNat = buffer.length / 4 * 5 ∧ HoldsTextOf buffer t.out ∧
      ∀ a, t.olen.toNat ≤ a → t.out.read a = none

/-- 44_frame.md R173: the closed form of the output length of `FENC`. -/
def Obligations.FencOutputLength : Prop :=
  ∀ (s t : State), exec .fenc s = .next t →
    (s.work.ilenl = 0 → t.olen = 0) ∧
    (1 ≤ s.work.ilenl.toNat → s.work.ilenl.toNat ≤ 255 → t.olen.toNat = 5 * (s.work.ilenl.toNat / 4 + 1)) ∧
    (256 ≤ s.work.ilenl.toNat → t.olen.toNat = 5 * (s.work.ilenl.toNat / 4 + 3))

/-- 43_padc.md R163: two `FENC`s of the same payload under different draws give the same `ERR`, the same `OLEN` and the
same characters but for the last group, and the same text altogether when there is no pad. -/
def Obligations.PadDrawChangesOnlyTheLastGroup : Prop :=
  ∀ (s₁ s₂ t₁ t₂ : State) (xs : List Byte), s₁.work.ilenl = s₂.work.ilenl → HasInput s₁ xs → HasInput s₂ xs →
    exec .fenc s₁ = .next t₁ → exec .fenc s₂ = .next t₂ →
    t₁.err = t₂.err ∧ t₁.olen = t₂.olen ∧
      (∀ a, a + 5 < t₁.olen.toNat → t₁.out.read a = t₂.out.read a) ∧
      (s₁.work.ilenl.toNat % 4 = 3 → ∀ a, t₁.out.read a = t₂.out.read a)

/-- 44_frame.md R176, R178, R180: `FDEC` on groups that all decode, with a header whose payload is there, delivers
exactly the declared payload, whatever bytes follow it, wherever the store for `T` holds the buffer (10_state.md R40).
-/
def Obligations.FdecDeliversTheDeclaredPayload : Prop :=
  ∀ (s : State) (text buffer : List Byte) (h d : Nat), HasInput s text → s.work.ilenl ≠ 0 →
    s.work.ilenl.toNat % 5 = 0 → DecodesTo text buffer → HasHeader buffer h d → h + d ≤ buffer.length →
    fits s.capOut d = true → fits s.capT buffer.length = true →
    ∃ t, exec .fdec s = .next t ∧ KeepsInputs s t ∧ t.olen.toNat = d ∧ Delivers ((buffer.drop h).take d) t

/-- 44_frame.md R179, 60_exceptions.md R205: how `FDEC` ends, in the order of the rule: the empty input is a success;
then the length, by `ILENL` alone; then a failing group, wherever it is and whatever the header says; then truncation,
by a long form in fewer than nine bytes or by a declared length that is not there; otherwise it is a success. Past the
length check `TLEN` is `(ILEN div 5) * 4`, which the store for `T` has to hold (10_state.md R40). (That the length
check needs no written cell of `IN` is log 9; that overflow and a short long form are errors is log 14, the spec's
decisions D10 and D11.) -/
def Obligations.FdecErrorOrder : Prop :=
  ∀ s : State, fits s.capIn s.work.ilenl.toNat = true →
    (s.work.ilenl = 0 → ∃ t, exec .fdec s = .next t ∧ KeepsInputs s t ∧ Delivers [] t) ∧
    (s.work.ilenl.toNat % 5 ≠ 0 →
      ∃ t, exec .fdec s = .next t ∧ KeepsInputs s t ∧ FailsWith .invalidLength t) ∧
    ∀ text, HasInput s text → s.work.ilenl ≠ 0 → s.work.ilenl.toNat % 5 = 0 →
      fits s.capT (s.work.ilenl.toNat / 5 * 4) = true →
      ((∃ i, i < text.length / 5 ∧ GroupFails text i) →
        ∃ t, exec .fdec s = .next t ∧ KeepsInputs s t ∧ FailsWith .encodingFailure t) ∧
      ∀ buffer, DecodesTo text buffer →
        ((∀ h d, HasHeader buffer h d → buffer.length < h + d) →
          ∃ t, exec .fdec s = .next t ∧ KeepsInputs s t ∧ FailsWith .truncatedInput t) ∧
        ∀ h d, HasHeader buffer h d → h + d ≤ buffer.length → fits s.capOut d = true →
          ∃ t, exec .fdec s = .next t ∧ KeepsInputs s t ∧ t.err = .ok

/-! ## Errors and codes -/

/-- 60_exceptions.md R204: raising an error sets `ERR`, `OLEN`, `PHASE`, and leaves what the host wrote alone; no cell
of `OUT` or `T` has a specified value afterwards. -/
def Obligations.RaiseIsTheErrorEntry : Prop :=
  ∀ (e : ErrCode) (s : State), FailsWith e (raise e s) ∧ KeepsInputs s (raise e s) ∧ ∀ a, (raise e s).t.read a = none

/-- 60_exceptions.md R214: which command can end with which code; and every step of a command is an end. -/
def Obligations.EndCodesOfEachCommand : Prop :=
  ∀ s t : State,
    (exec .benc s = .next t → t.phase = .done ∧ (t.err = .ok ∨ t.err = .invalidLength)) ∧
    (exec .bdec s = .next t → t.phase = .done ∧ t.err ≠ .truncatedInput) ∧
    (exec .fenc s = .next t → t.phase = .done ∧ t.err = .ok) ∧
    (exec .fdec s = .next t → t.phase = .done) ∧
    (∀ op, exec (selected op) s = .next t → t.err ≠ .ok → t.olen = 0 ∧ t.out = [])

/-- The codes of `PHASE` and `ERR` (10_state.md R24, R25, 60_exceptions.md R200), as the host reads them. -/
def Obligations.StatusCodes : Prop :=
  (∀ p : Phase, p.code ≠ 3) ∧ Phase.idle.code = 0 ∧ Phase.busy.code = 1 ∧ Phase.done.code = 2 ∧
  ErrCode.ok.code = 0 ∧ ErrCode.invalidLength.code = 1 ∧ ErrCode.encodingFailure.code = 2 ∧
  ErrCode.truncatedInput.code = 3

/-! ## The whole block: frames, reset, phases, host -/

/-- 10_state.md R21, R22, R30, 60_exceptions.md R206: no instruction and no step of the block writes `OP`, `ILEN` or a
cell of `IN` (nor the parameters, nor anything of the host's). -/
def Obligations.BlockKeepsWhatTheHostWrote : Prop :=
  (∀ (i : Instr) (s t : State), exec i s = .next t → KeepsInputs s t) ∧
  ∀ (whole : Bool) (s t : State), blockStep whole s = .next t → KeepsInputs s t

/-- 10_state.md R37, R30: the result of a command is a function of the latched operands, the input sequence and the
draw: nothing left by an earlier operation, and no cell of `IN` at `ILEN` or above, has an effect. (The two blocks have
the same capacities, R40.) -/
def Obligations.NothingCarriesOver : Prop :=
  ∀ (s₁ s₂ t₁ : State) (op : BitVec 2) (xs : List Byte), s₁.work.ilenl = s₂.work.ilenl → HasInput s₁ xs →
    HasInput s₂ xs → s₁.capOut = s₂.capOut → s₁.capT = s₂.capT → (selected op = .fenc → s₁.draws = s₂.draws) →
    exec (selected op) s₁ = .next t₁ →
    ∃ t₂, exec (selected op) s₂ = .next t₂ ∧ t₂.phase = t₁.phase ∧ t₂.err = t₁.err ∧ t₂.olen = t₁.olen ∧
      ∀ a, t₂.out.read a = t₁.out.read a

/-- 10_state.md R38, U9: what the host writes to `OP` and `ILEN` after `START` does not affect the running operation:
neither an instruction nor any step of the block, whole or single, reads them. -/
def Obligations.LatchedOperandsAreUsed : Prop :=
  (∀ (i : Instr) (s t : State) (op : BitVec 2) (n : Len), exec i s = .next t →
    exec i { s with op := op, ilen := n } = .next { t with op := op, ilen := n }) ∧
  ∀ (whole : Bool) (s t : State) (op : BitVec 2) (n : Len), blockStep whole s = .next t →
    blockStep whole { s with op := op, ilen := n } = .next { t with op := op, ilen := n }

/-- 10_state.md R39: the reset values the spec gives, no cell of a buffer with a value (log 5, log 6), and the `START`
given straight after reset, which runs `BENC` on the empty sequence. (Working registers at zero are the model's choice,
log 10, and not stated.) -/
def Obligations.ResetState : Prop :=
  State.reset.phase = .idle ∧ State.reset.err = .ok ∧ State.reset.olen = 0 ∧ State.reset.op = 0 ∧
  State.reset.ilen = 0 ∧
  (∀ a, State.reset.inp.read a = none ∧ State.reset.out.read a = none ∧ State.reset.t.read a = none) ∧
  ∃ t, runTurns State.reset [.start, .wait] = .next t ∧ Delivers [] t

/-- 70_reset_and_hazards.md R230: reset is allowed at any time, a running operation included, and puts every register
and buffer as after reset. That the buffers list nothing afterwards, and that the host's turns and the capacities
survive, is the model's reading (log 24). -/
def Obligations.ResetAtAnyTime : Prop :=
  ∀ (s : State) (turns : List HostTurn), s.host = .reset :: turns →
    ∃ t, step s = .next t ∧ t.phase = .idle ∧ t.err = .ok ∧ t.olen = 0 ∧ t.op = 0 ∧ t.ilen = 0 ∧
      (∀ a, t.inp.read a = none ∧ t.out.read a = none ∧ t.t.read a = none) ∧
      t.host = turns ∧ t.capIn = s.capIn ∧ t.capOut = s.capOut ∧ t.capT = s.capT

/-- 10_state.md R24, 70_reset_and_hazards.md R231: the transitions of `PHASE`. Reset puts `IDLE`, an honoured `START`
puts `BUSY`, the end of the operation puts `DONE`, and there is no other. -/
def Obligations.PhaseTransitions : Prop :=
  ∀ s t : State, step s = .next t →
    (t.phase = s.phase) ∨
    (t.phase = .idle ∧ s.host.head? = some .reset) ∨
    (t.phase = .busy ∧ s.phase ≠ .busy ∧ s.host.head? = some .start) ∨
    (t.phase = .done ∧ s.phase = .busy ∧
      (s.host.head? = none ∨ s.host.head? = some .wait ∨ s.host.head? = some .pass))

/-- 10_state.md R23, R40: a `START` in any phase but `BUSY` latches `OP` and `ILEN`, sets `PHASE`, clears `ERR` and
`OLEN`, and changes no input, exactly when the operation it selects has a step; otherwise it has the refusal of that
operation. -/
def Obligations.StartLatchesAnAdmittedOperation : Prop :=
  ∀ (s : State) (turns : List HostTurn), s.phase ≠ .busy → s.host = .start :: turns →
    ∀ s', s' = latch { s with host := turns } →
    (s'.phase = .busy ∧ s'.err = .ok ∧ s'.olen = 0 ∧ s'.work.opl = s.op ∧ s'.work.ilenl = s.ilen ∧
      s'.op = s.op ∧ s'.ilen = s.ilen ∧ s'.inp = s.inp) ∧
    (∀ t, exec (selected s.op) s' = .next t → step s = .next s') ∧
    (∀ r, exec (selected s.op) s' = .refused r → step s = .refused r) ∧
    (∀ t, step s = .next t → t = s' ∧ ∃ u, exec (selected s.op) s' = .next u)

/-- 10_state.md R40: with unbounded buffers every `START` on a written input is admitted. -/
def Obligations.UnboundedBuffersAdmitEveryStart : Prop :=
  ∀ (s : State) (turns : List HostTurn) (xs : List Byte), s.capIn = none → s.capOut = none → s.capT = none →
    ReadyWith s xs → s.host = .start :: turns →
    ∃ t, step s = .next t ∧ t.phase = .busy ∧ t.work.opl = s.op ∧ t.work.ilenl = s.ilen

/-- 10_state.md R40, 70_reset_and_hazards.md R233: an input beyond `CAP_IN` is refused, and so is a non-empty `FENC` or
`FDEC` whose `TLEN` the store for `T` does not hold; an operation admitted so far is refused if it would read a cell
nobody has written (log 6). That an `FDEC` that fails its length check needs neither the store nor a written cell is the
model's reading (log 8, log 9). -/
def Obligations.UnadmittedOperationsHaveNoStep : Prop :=
  ∀ (s : State) (op : BitVec 2),
    (fits s.capIn s.work.ilenl.toNat = false → exec (selected op) s = .refused .inputExceedsCapacity) ∧
    (fits s.capIn s.work.ilenl.toNat = true → s.work.ilenl ≠ 0 →
      (fits s.capT (framedLength s.work.ilenl) = false → exec .fenc s = .refused .intermediateExceedsStore) ∧
      (s.work.ilenl.toNat % 5 = 0 → fits s.capT (s.work.ilenl.toNat / 5 * 4) = false →
        exec .fdec s = .refused .intermediateExceedsStore)) ∧
    (fits s.capIn s.work.ilenl.toNat = true → s.inp.readCells 0 s.work.ilenl.toNat = none →
      (selected op = .fenc → fits s.capT (framedLength s.work.ilenl) = true) →
      (selected op = .fdec → fits s.capT (s.work.ilenl.toNat / 5 * 4) = true) →
      (selected op = .benc → s.work.ilenl.toNat % 4 = 0) →
      (selected op = .bdec ∨ selected op = .fdec → s.work.ilenl.toNat % 5 = 0) →
      exec (selected op) s = .refused .unwrittenInput)

/-- 10_state.md R40: an operation whose output does not fit `CAP_OUT` has no step: each command, on an input on which it
would succeed (for `FENC` and `FDEC`, with a `T` that its store holds). -/
def Obligations.OutputBeyondTheCapacityIsRefused : Prop :=
  ∀ (s : State) (xs : List Byte), HasInput s xs →
    (s.work.ilenl.toNat % 4 = 0 → fits s.capOut (s.work.ilenl.toNat / 4 * 5) = false →
      exec .benc s = .refused .outputExceedsCapacity) ∧
    (∀ bytes, s.work.ilenl.toNat % 5 = 0 → DecodesTo xs bytes → fits s.capOut bytes.length = false →
      exec .bdec s = .refused .outputExceedsCapacity) ∧
    (s.work.ilenl ≠ 0 → fits s.capT (framedLength s.work.ilenl) = true →
      fits s.capOut (framedLength s.work.ilenl / 4 * 5) = false →
      exec .fenc s = .refused .outputExceedsCapacity) ∧
    ∀ buffer h d, s.work.ilenl ≠ 0 → s.work.ilenl.toNat % 5 = 0 → DecodesTo xs buffer → HasHeader buffer h d →
      h + d ≤ buffer.length → fits s.capT buffer.length = true → fits s.capOut d = false →
      exec .fdec s = .refused .outputExceedsCapacity

/-- 10_state.md R23, 70_reset_and_hazards.md R236: a `START` while `BUSY` is lost and changes nothing. -/
def Obligations.StartWhileBusyIsIgnored : Prop :=
  ∀ (s : State) (turns : List HostTurn), s.phase = .busy → s.host = .start :: turns →
    step s = .next { s with host := turns }

/-- 10_state.md R21, R22, R36, R38, U9: the host's write of `OP` or of `ILEN` completes in every phase, changes that
register, and changes nothing else, the latched `OPL` and `ILENL` of a running operation included. -/
def Obligations.HostWritesOfOpAndIlen : Prop :=
  ∀ (s : State) (turns : List HostTurn),
    (∀ op : BitVec 2, s.host = .writeOp op :: turns → step s = .next { s with host := turns, op := op }) ∧
    ∀ n : Len, s.host = .writeIlen n :: turns → step s = .next { s with host := turns, ilen := n }

/-- 10_state.md R38, 70_reset_and_hazards.md R234, U5: a host write of `IN[0 .. ILENL)` while `BUSY` has no step; any
other host write of `IN` within `CAP_IN` changes that cell and nothing else. (That a write at `ILENL` or above completes
while `BUSY` is the model's reading, log 19.) -/
def Obligations.HostWritesOfIn : Prop :=
  ∀ (s : State) (turns : List HostTurn) (a : Nat) (b : Byte), s.host = .writeIn a b :: turns →
    fits s.capIn (a + 1) = true →
    (s.phase = .busy → a < s.work.ilenl.toNat → step s = .refused .inputWrittenWhileBusy) ∧
    (s.phase ≠ .busy ∨ s.work.ilenl.toNat ≤ a → ∃ t, step s = .next t ∧ t.inp.read a = some b ∧
      (∀ c, c ≠ a → t.inp.read c = s.inp.read c) ∧ t = { s with host := turns, inp := t.inp })

/-- 20_memory.md R59, 10_state.md R40: `IN` and `OUT` have no cell at any index that the platform does not provide; the
host's write or read of one, and a `MOVE` of a result that `IN` does not hold, is a fault (log 18), and its access to
any cell below the capacity completes. -/
def Obligations.CellsOutsideTheCapacityDoNotExist : Prop :=
  ∀ (s : State) (turns : List HostTurn) (a c : Nat) (b : Byte),
    (s.capIn = some c → s.host = .writeIn a b :: turns →
      (c ≤ a → step s = .fault .noSuchInCell) ∧ (a < c → s.phase ≠ .busy → ∃ t, step s = .next t)) ∧
    (s.capOut = some c → s.host = .readOut a :: turns →
      (c ≤ a → step s = .fault .noSuchOutCell) ∧ (a < c → ∃ t, step s = .next t)) ∧
    (s.capIn = some c → s.host = .move :: turns → s.err = .ok → s.olen.toNat < 2 ^ 64 →
      (c < s.olen.toNat → step s = .fault .noSuchInCell) ∧ (s.olen.toNat ≤ c → ∃ t, step s = .next t))

/-- 30_encoding.md R98, 10_state.md R36: `LOAD` leaves the bytes in `IN[0 ..]`, their count in `ILEN`, and every other
cell of `IN` as it was. -/
def Obligations.LoadWritesTheInput : Prop :=
  ∀ (s : State) (bytes : List Byte), s.phase ≠ .busy → fits s.capIn bytes.length = true → bytes.length < 2 ^ 64 →
    ∃ t, runTurns s (loadTurns bytes) = .next t ∧ t.ilen.toNat = bytes.length ∧
      t.inp.readCells 0 bytes.length = some bytes ∧ (∀ a, bytes.length ≤ a → t.inp.read a = s.inp.read a) ∧
      t = { s with host := [], ilen := t.ilen, inp := t.inp }

/-- 10_state.md R24, R25, R26, R31, R36, 60_exceptions.md R200, R204, R210, 70_reset_and_hazards.md R235: in every state
the host reads the code of `PHASE`, the code of `ERR` and the number in `OLEN`, and the block does nothing on a read:
but for the host's turns and what it has read (`lastRead` is the model's own, log 21) nothing changes. After a delivered
result `ERR` reads as 0, `OLEN` as the length of the result, and `OUT` as its cells. That a read of a cell of `OUT`
completes in every phase, and moves the count of free values, is the model's reading (log 4, log 5). -/
def Obligations.CollectReadsTheResult : Prop :=
  ∀ (s : State) (turns : List HostTurn),
    (s.host = .readPhase :: turns →
      ∃ v, step s = .next { s with host := turns, lastRead := some (.phase v) } ∧
        (s.phase = .idle → v = 0) ∧ (s.phase = .busy → v = 1) ∧ (s.phase = .done → v = 2)) ∧
    (s.host = .readErr :: turns →
      ∃ v, step s = .next { s with host := turns, lastRead := some (.err v) } ∧
        (s.err = .ok → v = 0) ∧ (s.err = .invalidLength → v = 1) ∧ (s.err = .encodingFailure → v = 2) ∧
        (s.err = .truncatedInput → v = 3)) ∧
    (s.host = .readOlen :: turns → step s = .next { s with host := turns, lastRead := some (.olen s.olen) }) ∧
    (∀ a, fits s.capOut (a + 1) = true → s.host = .readOut a :: turns →
      ∃ b, step s = .next { s with host := turns, lastRead := some (.out a b), draws := s.draws + 1 }) ∧
    ∀ bytes, Delivers bytes s →
      (s.host = .readErr :: turns → ∃ t, step s = .next t ∧ t.lastRead = some (.err 0)) ∧
      (s.host = .readOlen :: turns →
        ∃ t n, step s = .next t ∧ t.lastRead = some (.olen n) ∧ n.toNat = bytes.length) ∧
      ∀ a b, bytes[a]? = some b → fits s.capOut (a + 1) = true → s.host = .readOut a :: turns →
        ∃ t, step s = .next t ∧ t.lastRead = some (.out a b) ∧ t.out = s.out

/-- 20_memory.md R61, U10, 10_state.md R36: while `BUSY` the host reads `PHASE = 1`, `ERR = 0` and `OLEN = 0`, and a
read disturbs nothing of the running operation: only the host's turns and what it has read change. -/
def Obligations.ReadsWhileBusy : Prop :=
  ∀ (s : State) (turns : List HostTurn), MachineInv s → s.phase = .busy →
    (s.host = .readPhase :: turns → ∃ t, step s = .next t ∧ t.lastRead = some (.phase 1) ∧
      t = { s with host := turns, lastRead := t.lastRead }) ∧
    (s.host = .readErr :: turns → ∃ t, step s = .next t ∧ t.lastRead = some (.err 0) ∧
      t = { s with host := turns, lastRead := t.lastRead }) ∧
    (s.host = .readOlen :: turns → ∃ t, step s = .next t ∧ t.lastRead = some (.olen 0) ∧
      t = { s with host := turns, lastRead := t.lastRead })

/-- 60_exceptions.md R208, 92_eei_decisions.md D16: while `PHASE = DONE` nothing but an honoured `START` or reset
changes `PHASE`, `ERR`, `OLEN` or a cell of `OUT`. -/
def Obligations.ResultLastsUntilTheNextStart : Prop :=
  ∀ s t : State, s.phase = .done → s.host.head? ≠ some .start → s.host.head? ≠ some .reset → step s = .next t →
    t.phase = .done ∧ t.err = s.err ∧ t.olen = s.olen ∧ t.out = s.out

/-- 10_state.md R28: with no operation running and no turn of the host left, nothing advances. -/
def Obligations.NothingAdvancesBetweenOperations : Prop :=
  ∀ s : State, s.phase ≠ .busy → s.host = [] → step s = .next s

/-- 30_encoding.md R98: `MOVE` copies the result to `IN` and its length to `ILEN`, and changes nothing else (but the
model's count of free values, log 4). With `ERR = 0` and `OLEN = 0` it is legal in every phase: it copies nothing and
writes 0 to `ILEN`. That this holds before the first operation and while `BUSY` too, where there is no result to copy,
is the model's reading (log 20). `CUT k` writes `ILEN - k` to `ILEN`. R98 says that `MOVE` is only legal when `ERR = 0`
and `OLEN < 2^64` and not what an illegal one does: that it has no step is the model's choice (log 20). Where `k`
exceeds `ILEN` the rule states no result: that `CUT` completes all the same and changes nothing but `ILEN`, whose value
is free, and the model's count of free values is the model's choice too (log 27). -/
def Obligations.MoveAndCut : Prop :=
  (∀ (s : State) (bytes : List Byte) (turns : List HostTurn), Delivers bytes s → bytes.length < 2 ^ 64 →
    fits s.capIn bytes.length = true → s.host = .move :: turns →
    ∃ t, step s = .next t ∧ t.ilen.toNat = bytes.length ∧ t.inp.readCells 0 bytes.length = some bytes ∧
      (∀ a, bytes.length ≤ a → t.inp.read a = s.inp.read a) ∧
      t = { s with host := turns, inp := t.inp, ilen := t.ilen, draws := s.draws + 1 }) ∧
  (∀ (s : State) (turns : List HostTurn), s.err = .ok → s.olen = 0 → s.host = .move :: turns →
    step s = .next { s with host := turns, ilen := 0, draws := s.draws + 1 }) ∧
  (∀ (s : State) (turns : List HostTurn), s.err ≠ .ok ∨ 2 ^ 64 ≤ s.olen.toNat → s.host = .move :: turns →
    step s = .refused .moveNotLegal) ∧
  ∀ (s : State) (k : Nat) (turns : List HostTurn), s.host = .cut k :: turns →
    (k ≤ s.ilen.toNat → ∃ n : Len, n.toNat = s.ilen.toNat - k ∧ step s = .next { s with host := turns, ilen := n }) ∧
    (s.ilen.toNat < k →
      ∃ n : Len, step s = .next { s with host := turns, ilen := n, draws := s.draws + 1 })

/-! ## Invariants -/

/-- The state after reset meets the invariant (10_state.md R24, R25, R26, R39). -/
def Obligations.ResetMeetsTheInvariant : Prop := MachineInv State.reset

/-- Every step keeps the invariant: `IN` canonical and within capacity; `T` within its store; in `IDLE` no error and no
output; in `BUSY` `ERR` and `OLEN` clear and the buffers as far written as the sequencer has come; in `DONE` `OUT`
holds exactly the cells below `OLEN`, or nothing after an error (10_state.md R24, R25, R26, R31, R32, R40). -/
def Obligations.StepKeepsTheInvariant : Prop :=
  ∀ s t : State, MachineInv s → step s = .next t → MachineInv t

/-- Every step keeps the canonical form of the three buffers, from every state that has it. -/
def Obligations.StepKeepsMemoryCanonical : Prop :=
  ∀ s t : State, s.inp.wf = true → s.out.wf = true → s.t.wf = true → step s = .next t →
    t.inp.wf = true ∧ t.out.wf = true ∧ t.t.wf = true

/-! ## Headlines -/

/-- 70_reset_and_hazards.md R239, 20_memory.md R61: an admitted operation that the block takes word by word ends, after
a number of steps bounded by the input length, in exactly the state in which it ends when it is run in one piece. Both
forms are the model's own: the sequencer that a turn `pass` moves by one word (log 3, DESIGN CHOICE) and the one-step
form (log 1, DEDUCED); the bound on the number of steps is the sequencer's, and R239 promises only that it ends. -/
def Obligations.WordByWordRunEqualsTheWhole : Prop :=
  ∀ (s t : State), s.phase = .busy → s.work.stage = .command → s.out = [] → s.t = [] →
    exec (selected s.work.opl) s = .next t →
    ∃ n, n ≤ 2 * s.work.ilenl.toNat + 40 ∧
      Host.Core.run core n { s with host := List.replicate n .pass ++ s.host } = .next t

/-- 41_dec85.md R134: `BENC`, `MOVE`, `BDEC` gives back the input; and on every text that `BDEC` decodes, `BDEC`,
`MOVE`, `BENC` gives back the text. -/
def Obligations.BaseRoundTrip : Prop :=
  (∀ (s : State) (xs : List Byte), ReadyWith s xs → xs.length % 4 = 0 → xs.length / 4 * 5 < 2 ^ 64 →
    fits s.capOut (xs.length / 4 * 5) = true → fits s.capIn (xs.length / 4 * 5) = true →
    ∃ t, runTurns s (commandTurns 0 ++ [.move] ++ commandTurns 1) = .next t ∧ Delivers xs t) ∧
  ∀ (s : State) (text bytes : List Byte), ReadyWith s text → text.length % 5 = 0 → DecodesTo text bytes →
    fits s.capOut text.length = true →
    ∃ t, runTurns s (commandTurns 1 ++ [.move] ++ commandTurns 0) = .next t ∧ Delivers text t

/-- 44_frame.md R181: `FENC`, `MOVE`, `FDEC` gives back the payload, for every payload, the empty one included, and
every draw, wherever the buffers hold the text of that payload (R173), and the store for `T` its four bytes for every
five characters (10_state.md R40). -/
def Obligations.FramedRoundTrip : Prop :=
  ∀ (s : State) (xs : List Byte), ReadyWith s xs → framedTextLength xs.length < 2 ^ 64 →
    fits s.capOut (framedTextLength xs.length) = true → fits s.capIn (framedTextLength xs.length) = true →
    fits s.capT (framedTextLength xs.length / 5 * 4) = true →
    ∃ t, runTurns s (commandTurns 2 ++ [.move] ++ commandTurns 3) = .next t ∧ Delivers xs t

/-- 44_frame.md R175: `BDEC` on the output of a `FENC` gives its intermediate buffer: for a small payload byte 0 is the
length; for a large one byte 0 is `00` and bytes 1 to 8 are the length; the last bytes are the draw. (The store for `T`
holds that buffer, 10_state.md R40.) -/
def Obligations.BdecShowsTheIntermediateBuffer : Prop :=
  ∀ (s : State) (xs : List Byte), ReadyWith s xs → s.ilen ≠ 0 → framedTextLength xs.length < 2 ^ 64 →
    fits s.capOut (framedTextLength xs.length) = true → fits s.capIn (framedTextLength xs.length) = true →
    fits s.capT (framedTextLength xs.length / 5 * 4) = true →
    ∃ t header pad, runTurns s (commandTurns 2 ++ [.move] ++ commandTurns 1) = .next t ∧
      Delivers (header ++ xs ++ pad) t ∧ (header ++ xs ++ pad).length % 4 = 0 ∧ pad.length < 4 ∧
      (∀ j b, pad[j]? = some b → b = Config.padFill s.draws j) ∧
      (xs.length ≤ 255 → ∃ b : Byte, header = [b] ∧ b.toNat = xs.length) ∧
      (255 < xs.length → header.length = 9 ∧ header[0]? = some 0 ∧
        groupNumber (header.drop 1) 0 * 2 ^ 32 + groupNumber (header.drop 1) 1 = xs.length)
end

