-- ==== Sys2Proof/Laws/Memory.lean ====
section
/-! SUPPORT. The laws of the address spaces: read after write, the canonical form, and what a run of writes leaves. -/

namespace Sys2Proof.Machine

namespace Memory

@[simp] theorem read_nil (a : Nat) : Memory.read [] a = none := rfl

@[simp] theorem wf_nil : Memory.wf [] = true := rfl

theorem wf_iff (m : Memory) : m.wf = true ↔ m.Pairwise fun c d => c.1 < d.1 := by
  simp [Memory.wf]

theorem wf_cons (c : Host.Cell) (m : Memory) :
    Memory.wf (c :: m) = true ↔ (∀ d ∈ m, c.1 < d.1) ∧ m.wf = true := by
  simp [Memory.wf, List.pairwise_cons]

/-- A write lists its own index and the indices listed before. -/
theorem mem_write (m : Memory) (a : Nat) (b : Byte) (c : Host.Cell) (h : c ∈ m.write a b) :
    c = (a, b) ∨ c ∈ m := by
  induction m with
  | nil => simp_all [Memory.write]
  | cons d r ih =>
    simp only [Memory.write] at h
    split at h
    · simpa using h
    · split at h
      · rcases List.mem_cons.mp h with h | h
        · exact .inl h
        · exact .inr (List.mem_cons_of_mem _ h)
      · rcases List.mem_cons.mp h with h | h
        · exact .inr (h ▸ List.mem_cons_self)
        · exact (ih h).imp id (List.mem_cons_of_mem _)

/-- Every write keeps the canonical form. -/
theorem write_keeps_wf (m : Memory) (a : Nat) (b : Byte) (h : m.wf = true) : (m.write a b).wf = true := by
  induction m with
  | nil => simp [Memory.write, Memory.wf]
  | cons d r ih =>
    obtain ⟨hd, hr⟩ := (wf_cons d r).mp h
    simp only [Memory.write]
    split
    · next hlt =>
      refine (wf_cons _ _).mpr ⟨fun e he => ?_, h⟩
      rcases List.mem_cons.mp he with rfl | he
      · exact hlt
      · exact Nat.lt_trans hlt (hd e he)
    · split
      · next _ heq => exact (wf_cons _ _).mpr ⟨fun e he => by simpa [heq] using hd e he, hr⟩
      · next hge hne =>
        refine (wf_cons _ _).mpr ⟨fun e he => ?_, ih hr⟩
        rcases mem_write r a b e he with rfl | he
        · simp only; omega
        · exact hd e he

/-- An index below every listed one has no value. -/
theorem read_none_of_lt (m : Memory) (a : Nat) (h : ∀ d ∈ m, a < d.1) : m.read a = none := by
  induction m with
  | nil => rfl
  | cons d r ih =>
    have hd := h d List.mem_cons_self
    rw [Memory.read, if_neg (by omega)]
    exact ih fun e he => h e (List.mem_cons_of_mem _ he)

/-- Read after write at the same index. -/
@[simp] theorem read_write_same (m : Memory) (a : Nat) (b : Byte) : (m.write a b).read a = some b := by
  induction m with
  | nil => simp [Memory.write, Memory.read]
  | cons d r ih =>
    simp only [Memory.write]
    split
    · simp [Memory.read]
    · split
      · simp [Memory.read]
      · next hne => rw [Memory.read, if_neg (by omega)]; exact ih

/-- A write leaves every other index alone. -/
theorem read_write_of_ne (m : Memory) (a c : Nat) (b : Byte) (h : c ≠ a) : (m.write a b).read c = m.read c := by
  induction m with
  | nil => simp [Memory.write, Memory.read, Ne.symm h]
  | cons d r ih =>
    simp only [Memory.write]
    split
    · rw [Memory.read, if_neg (by omega)]
    · split
      · next heq => rw [Memory.read, if_neg (by omega), Memory.read, if_neg (by omega)]
      · simp only [Memory.read]; rw [ih]

theorem read_write (m : Memory) (a c : Nat) (b : Byte) :
    (m.write a b).read c = if c = a then some b else m.read c := by
  split
  · next h => subst h; exact read_write_same m c b
  · next h => exact read_write_of_ne m a c b h

/-! ### Runs of cells -/

@[simp] theorem writeCells_nil (m : Memory) (a : Nat) : m.writeCells a [] = m := rfl

@[simp] theorem writeCells_cons (m : Memory) (a : Nat) (b : Byte) (bs : List Byte) :
    m.writeCells a (b :: bs) = (m.write a b).writeCells (a + 1) bs := rfl

theorem writeCells_append (m : Memory) (a : Nat) (xs ys : List Byte) :
    m.writeCells a (xs ++ ys) = (m.writeCells a xs).writeCells (a + xs.length) ys := by
  induction xs generalizing m a with
  | nil => rfl
  | cons x xs ih =>
    simp only [List.cons_append, writeCells_cons, ih, List.length_cons]
    congr 1; omega

theorem writeCells_keeps_wf (m : Memory) (a : Nat) (bs : List Byte) (h : m.wf = true) :
    (m.writeCells a bs).wf = true := by
  induction bs generalizing m a with
  | nil => exact h
  | cons b bs ih => exact ih _ _ (write_keeps_wf m a b h)

/-- What a run of writes reads as: the bytes written inside it, the old cells outside it. -/
theorem read_writeCells (m : Memory) (a c : Nat) (bs : List Byte) :
    (m.writeCells a bs).read c = if a ≤ c ∧ c < a + bs.length then bs[c - a]? else m.read c := by
  induction bs generalizing m a with
  | nil => rw [writeCells_nil, if_neg (by simp)]
  | cons b bs ih =>
    rw [writeCells_cons, ih, read_write]
    by_cases h0 : c = a
    · subst h0
      rw [if_neg (by omega), if_pos rfl, if_pos (by simp)]
      simp
    · rw [if_neg h0]
      by_cases h1 : a + 1 ≤ c ∧ c < a + 1 + bs.length
      · rw [if_pos h1, if_pos (by simp only [List.length_cons]; omega)]
        obtain ⟨k, rfl⟩ : ∃ k, c = a + 1 + k := ⟨c - (a + 1), by omega⟩
        rw [show a + 1 + k - a = k + 1 by omega, show a + 1 + k - (a + 1) = k by omega]
        rfl
      · rw [if_neg h1, if_neg (by simp only [List.length_cons]; omega)]

theorem length_readCells (m : Memory) (a n : Nat) (bs : List Byte) (h : m.readCells a n = some bs) :
    bs.length = n := by
  induction n generalizing a bs with
  | zero => simp_all [Memory.readCells]
  | succ n ih =>
    simp only [Memory.readCells] at h
    split at h
    · obtain ⟨bs', hbs, rfl⟩ := Option.map_eq_some_iff.mp h
      simp [ih _ _ hbs]
    · cases h

/-- A run of cells reads as `bs` exactly when each of its cells does. -/
theorem readCells_eq_some_iff (m : Memory) (a n : Nat) (bs : List Byte) :
    m.readCells a n = some bs ↔ bs.length = n ∧ ∀ i, i < n → m.read (a + i) = bs[i]? := by
  induction n generalizing a bs with
  | zero => cases bs <;> simp [Memory.readCells]
  | succ n ih =>
    cases bs with
    | nil =>
      simp only [Memory.readCells]
      constructor
      · intro h; split at h <;> simp at h
      · rintro ⟨h, -⟩; cases h
    | cons b bs =>
      have hsplit : m.readCells a (n + 1) = some (b :: bs) ↔
          m.read a = some b ∧ m.readCells (a + 1) n = some bs := by
        simp only [Memory.readCells]
        cases m.read a <;> cases m.readCells (a + 1) n <;> simp
      rw [hsplit, ih, List.length_cons]
      constructor
      · rintro ⟨h0, hl, hr⟩
        refine ⟨by omega, fun i hi => ?_⟩
        cases i with
        | zero => simpa using h0
        | succ i => simpa [Nat.add_assoc, Nat.add_comm 1] using hr i (by omega)
      · rintro ⟨hl, hr⟩
        refine ⟨by simpa using hr 0 (by omega), by omega, fun i hi => ?_⟩
        simpa [Nat.add_assoc, Nat.add_comm 1] using hr (i + 1) (by omega)

/-- A run that was just written reads back. -/
theorem readCells_writeCells (m : Memory) (a : Nat) (bs : List Byte) :
    (m.writeCells a bs).readCells a bs.length = some bs := by
  refine (readCells_eq_some_iff _ _ _ _).mpr ⟨rfl, fun i hi => ?_⟩
  rw [read_writeCells, if_pos (by omega), Nat.add_sub_cancel_left]

end Memory

end Sys2Proof.Machine
end

