-- ==== Sys2Proof/Laws/State.lean ====
section
/-! SUPPORT. One lemma per field for each operation that updates `State`, so that no later proof unfolds a record
update. -/

namespace Sys2Proof.Machine

/-! ### `latch` -/

@[simp] theorem latch_op (s : State) : (latch s).op = s.op := rfl
@[simp] theorem latch_ilen (s : State) : (latch s).ilen = s.ilen := rfl
@[simp] theorem latch_phase (s : State) : (latch s).phase = .busy := rfl
@[simp] theorem latch_err (s : State) : (latch s).err = .ok := rfl
@[simp] theorem latch_olen (s : State) : (latch s).olen = 0 := rfl
@[simp] theorem latch_work (s : State) : (latch s).work = { s.work with opl := s.op, ilenl := s.ilen, stage := .command, k := 0 } := rfl
@[simp] theorem latch_inp (s : State) : (latch s).inp = s.inp := rfl
@[simp] theorem latch_out (s : State) : (latch s).out = [] := rfl
@[simp] theorem latch_t (s : State) : (latch s).t = [] := rfl
@[simp] theorem latch_draws (s : State) : (latch s).draws = s.draws := rfl
@[simp] theorem latch_capIn (s : State) : (latch s).capIn = s.capIn := rfl
@[simp] theorem latch_capOut (s : State) : (latch s).capOut = s.capOut := rfl
@[simp] theorem latch_capT (s : State) : (latch s).capT = s.capT := rfl
@[simp] theorem latch_host (s : State) : (latch s).host = s.host := rfl
@[simp] theorem latch_lastRead (s : State) : (latch s).lastRead = s.lastRead := rfl

/-! ### `dropWork` -/

@[simp] theorem dropWork_op (s : State) : (dropWork s).op = s.op := rfl
@[simp] theorem dropWork_ilen (s : State) : (dropWork s).ilen = s.ilen := rfl
@[simp] theorem dropWork_phase (s : State) : (dropWork s).phase = s.phase := rfl
@[simp] theorem dropWork_err (s : State) : (dropWork s).err = s.err := rfl
@[simp] theorem dropWork_olen (s : State) : (dropWork s).olen = s.olen := rfl
@[simp] theorem dropWork_work (s : State) : (dropWork s).work = Work.unspecified s.draws := rfl
@[simp] theorem dropWork_inp (s : State) : (dropWork s).inp = s.inp := rfl
@[simp] theorem dropWork_out (s : State) : (dropWork s).out = s.out := rfl
@[simp] theorem dropWork_t (s : State) : (dropWork s).t = [] := rfl
@[simp] theorem dropWork_draws (s : State) : (dropWork s).draws = s.draws + 1 := rfl
@[simp] theorem dropWork_capIn (s : State) : (dropWork s).capIn = s.capIn := rfl
@[simp] theorem dropWork_capOut (s : State) : (dropWork s).capOut = s.capOut := rfl
@[simp] theorem dropWork_capT (s : State) : (dropWork s).capT = s.capT := rfl
@[simp] theorem dropWork_host (s : State) : (dropWork s).host = s.host := rfl
@[simp] theorem dropWork_lastRead (s : State) : (dropWork s).lastRead = s.lastRead := rfl

/-! ### `raise` -/

@[simp] theorem raise_op (e : ErrCode) (s : State) : (raise e s).op = s.op := rfl
@[simp] theorem raise_ilen (e : ErrCode) (s : State) : (raise e s).ilen = s.ilen := rfl
@[simp] theorem raise_phase (e : ErrCode) (s : State) : (raise e s).phase = .done := rfl
@[simp] theorem raise_err (e : ErrCode) (s : State) : (raise e s).err = e := rfl
@[simp] theorem raise_olen (e : ErrCode) (s : State) : (raise e s).olen = 0 := rfl
@[simp] theorem raise_work (e : ErrCode) (s : State) : (raise e s).work = Work.unspecified s.draws := rfl
@[simp] theorem raise_inp (e : ErrCode) (s : State) : (raise e s).inp = s.inp := rfl
@[simp] theorem raise_out (e : ErrCode) (s : State) : (raise e s).out = [] := rfl
@[simp] theorem raise_t (e : ErrCode) (s : State) : (raise e s).t = [] := rfl
@[simp] theorem raise_draws (e : ErrCode) (s : State) : (raise e s).draws = s.draws + 1 := rfl
@[simp] theorem raise_capIn (e : ErrCode) (s : State) : (raise e s).capIn = s.capIn := rfl
@[simp] theorem raise_capOut (e : ErrCode) (s : State) : (raise e s).capOut = s.capOut := rfl
@[simp] theorem raise_capT (e : ErrCode) (s : State) : (raise e s).capT = s.capT := rfl
@[simp] theorem raise_host (e : ErrCode) (s : State) : (raise e s).host = s.host := rfl
@[simp] theorem raise_lastRead (e : ErrCode) (s : State) : (raise e s).lastRead = s.lastRead := rfl

/-! ### `finished` -/

@[simp] theorem finished_op (n : Nat) (s : State) : (finished n s).op = s.op := rfl
@[simp] theorem finished_ilen (n : Nat) (s : State) : (finished n s).ilen = s.ilen := rfl
@[simp] theorem finished_phase (n : Nat) (s : State) : (finished n s).phase = .done := rfl
@[simp] theorem finished_err (n : Nat) (s : State) : (finished n s).err = .ok := rfl
@[simp] theorem finished_olen (n : Nat) (s : State) : (finished n s).olen = BitVec.ofNat 65 n := rfl
@[simp] theorem finished_work (n : Nat) (s : State) : (finished n s).work = Work.unspecified s.draws := rfl
@[simp] theorem finished_inp (n : Nat) (s : State) : (finished n s).inp = s.inp := rfl
@[simp] theorem finished_out (n : Nat) (s : State) : (finished n s).out = s.out := rfl
@[simp] theorem finished_t (n : Nat) (s : State) : (finished n s).t = [] := rfl
@[simp] theorem finished_draws (n : Nat) (s : State) : (finished n s).draws = s.draws + 1 := rfl
@[simp] theorem finished_capIn (n : Nat) (s : State) : (finished n s).capIn = s.capIn := rfl
@[simp] theorem finished_capOut (n : Nat) (s : State) : (finished n s).capOut = s.capOut := rfl
@[simp] theorem finished_capT (n : Nat) (s : State) : (finished n s).capT = s.capT := rfl
@[simp] theorem finished_host (n : Nat) (s : State) : (finished n s).host = s.host := rfl
@[simp] theorem finished_lastRead (n : Nat) (s : State) : (finished n s).lastRead = s.lastRead := rfl

/-! ### `enterGroups` -/

@[simp] theorem enterGroups_op (s : State) : (enterGroups s).op = s.op := rfl
@[simp] theorem enterGroups_ilen (s : State) : (enterGroups s).ilen = s.ilen := rfl
@[simp] theorem enterGroups_phase (s : State) : (enterGroups s).phase = s.phase := rfl
@[simp] theorem enterGroups_err (s : State) : (enterGroups s).err = s.err := rfl
@[simp] theorem enterGroups_olen (s : State) : (enterGroups s).olen = s.olen := rfl
@[simp] theorem enterGroups_work (s : State) : (enterGroups s).work = { s.work with gi := 0, stage := .group } := rfl
@[simp] theorem enterGroups_inp (s : State) : (enterGroups s).inp = s.inp := rfl
@[simp] theorem enterGroups_out (s : State) : (enterGroups s).out = s.out := rfl
@[simp] theorem enterGroups_t (s : State) : (enterGroups s).t = s.t := rfl
@[simp] theorem enterGroups_draws (s : State) : (enterGroups s).draws = s.draws := rfl
@[simp] theorem enterGroups_capIn (s : State) : (enterGroups s).capIn = s.capIn := rfl
@[simp] theorem enterGroups_capOut (s : State) : (enterGroups s).capOut = s.capOut := rfl
@[simp] theorem enterGroups_capT (s : State) : (enterGroups s).capT = s.capT := rfl
@[simp] theorem enterGroups_host (s : State) : (enterGroups s).host = s.host := rfl
@[simp] theorem enterGroups_lastRead (s : State) : (enterGroups s).lastRead = s.lastRead := rfl

/-! ### `hostReset` -/

@[simp] theorem hostReset_op (s : State) : (hostReset s).op = 0 := rfl
@[simp] theorem hostReset_ilen (s : State) : (hostReset s).ilen = 0 := rfl
@[simp] theorem hostReset_phase (s : State) : (hostReset s).phase = .idle := rfl
@[simp] theorem hostReset_err (s : State) : (hostReset s).err = .ok := rfl
@[simp] theorem hostReset_olen (s : State) : (hostReset s).olen = 0 := rfl
@[simp] theorem hostReset_work (s : State) : (hostReset s).work = Work.reset := rfl
@[simp] theorem hostReset_inp (s : State) : (hostReset s).inp = [] := rfl
@[simp] theorem hostReset_out (s : State) : (hostReset s).out = [] := rfl
@[simp] theorem hostReset_t (s : State) : (hostReset s).t = [] := rfl
@[simp] theorem hostReset_draws (s : State) : (hostReset s).draws = s.draws := rfl
@[simp] theorem hostReset_capIn (s : State) : (hostReset s).capIn = s.capIn := rfl
@[simp] theorem hostReset_capOut (s : State) : (hostReset s).capOut = s.capOut := rfl
@[simp] theorem hostReset_capT (s : State) : (hostReset s).capT = s.capT := rfl
@[simp] theorem hostReset_host (s : State) : (hostReset s).host = s.host := rfl
@[simp] theorem hostReset_lastRead (s : State) : (hostReset s).lastRead = s.lastRead := rfl

/-! ### `writeOut` -/

@[simp] theorem writeOut_op (s : State) (a : Nat) (b : Byte) : (writeOut s a b).op = s.op := by
  unfold writeOut; split <;> rfl
@[simp] theorem writeOut_ilen (s : State) (a : Nat) (b : Byte) : (writeOut s a b).ilen = s.ilen := by
  unfold writeOut; split <;> rfl
@[simp] theorem writeOut_phase (s : State) (a : Nat) (b : Byte) : (writeOut s a b).phase = s.phase := by
  unfold writeOut; split <;> rfl
@[simp] theorem writeOut_err (s : State) (a : Nat) (b : Byte) : (writeOut s a b).err = s.err := by
  unfold writeOut; split <;> rfl
@[simp] theorem writeOut_olen (s : State) (a : Nat) (b : Byte) : (writeOut s a b).olen = s.olen := by
  unfold writeOut; split <;> rfl
@[simp] theorem writeOut_work (s : State) (a : Nat) (b : Byte) : (writeOut s a b).work = s.work := by
  unfold writeOut; split <;> rfl
@[simp] theorem writeOut_inp (s : State) (a : Nat) (b : Byte) : (writeOut s a b).inp = s.inp := by
  unfold writeOut; split <;> rfl
@[simp] theorem writeOut_t (s : State) (a : Nat) (b : Byte) : (writeOut s a b).t = s.t := by
  unfold writeOut; split <;> rfl
@[simp] theorem writeOut_draws (s : State) (a : Nat) (b : Byte) : (writeOut s a b).draws = s.draws := by
  unfold writeOut; split <;> rfl
@[simp] theorem writeOut_capIn (s : State) (a : Nat) (b : Byte) : (writeOut s a b).capIn = s.capIn := by
  unfold writeOut; split <;> rfl
@[simp] theorem writeOut_capOut (s : State) (a : Nat) (b : Byte) : (writeOut s a b).capOut = s.capOut := by
  unfold writeOut; split <;> rfl
@[simp] theorem writeOut_capT (s : State) (a : Nat) (b : Byte) : (writeOut s a b).capT = s.capT := by
  unfold writeOut; split <;> rfl
@[simp] theorem writeOut_host (s : State) (a : Nat) (b : Byte) : (writeOut s a b).host = s.host := by
  unfold writeOut; split <;> rfl
@[simp] theorem writeOut_lastRead (s : State) (a : Nat) (b : Byte) : (writeOut s a b).lastRead = s.lastRead := by
  unfold writeOut; split <;> rfl

/-- What a block write of `OUT` does to `OUT`: nothing at an index `CAP_OUT` does not provide. -/
@[simp] theorem writeOut_out (s : State) (a : Nat) (b : Byte) :
    (writeOut s a b).out = if fits s.capOut (a + 1) then s.out.write a b else s.out := by
  unfold writeOut; split <;> rfl

/-! ### `writeOutCells` -/

@[simp] theorem writeOutCells_op (s : State) (a : Nat) (bs : List Byte) : (writeOutCells s a bs).op = s.op := by
  induction bs generalizing s a with
  | nil => rfl
  | cons b bs ih => rw [writeOutCells, ih]; simp
@[simp] theorem writeOutCells_ilen (s : State) (a : Nat) (bs : List Byte) : (writeOutCells s a bs).ilen = s.ilen := by
  induction bs generalizing s a with
  | nil => rfl
  | cons b bs ih => rw [writeOutCells, ih]; simp
@[simp] theorem writeOutCells_phase (s : State) (a : Nat) (bs : List Byte) : (writeOutCells s a bs).phase = s.phase := by
  induction bs generalizing s a with
  | nil => rfl
  | cons b bs ih => rw [writeOutCells, ih]; simp
@[simp] theorem writeOutCells_err (s : State) (a : Nat) (bs : List Byte) : (writeOutCells s a bs).err = s.err := by
  induction bs generalizing s a with
  | nil => rfl
  | cons b bs ih => rw [writeOutCells, ih]; simp
@[simp] theorem writeOutCells_olen (s : State) (a : Nat) (bs : List Byte) : (writeOutCells s a bs).olen = s.olen := by
  induction bs generalizing s a with
  | nil => rfl
  | cons b bs ih => rw [writeOutCells, ih]; simp
@[simp] theorem writeOutCells_work (s : State) (a : Nat) (bs : List Byte) : (writeOutCells s a bs).work = s.work := by
  induction bs generalizing s a with
  | nil => rfl
  | cons b bs ih => rw [writeOutCells, ih]; simp
@[simp] theorem writeOutCells_inp (s : State) (a : Nat) (bs : List Byte) : (writeOutCells s a bs).inp = s.inp := by
  induction bs generalizing s a with
  | nil => rfl
  | cons b bs ih => rw [writeOutCells, ih]; simp
@[simp] theorem writeOutCells_t (s : State) (a : Nat) (bs : List Byte) : (writeOutCells s a bs).t = s.t := by
  induction bs generalizing s a with
  | nil => rfl
  | cons b bs ih => rw [writeOutCells, ih]; simp
@[simp] theorem writeOutCells_draws (s : State) (a : Nat) (bs : List Byte) : (writeOutCells s a bs).draws = s.draws := by
  induction bs generalizing s a with
  | nil => rfl
  | cons b bs ih => rw [writeOutCells, ih]; simp
@[simp] theorem writeOutCells_capIn (s : State) (a : Nat) (bs : List Byte) : (writeOutCells s a bs).capIn = s.capIn := by
  induction bs generalizing s a with
  | nil => rfl
  | cons b bs ih => rw [writeOutCells, ih]; simp
@[simp] theorem writeOutCells_capOut (s : State) (a : Nat) (bs : List Byte) : (writeOutCells s a bs).capOut = s.capOut := by
  induction bs generalizing s a with
  | nil => rfl
  | cons b bs ih => rw [writeOutCells, ih]; simp
@[simp] theorem writeOutCells_capT (s : State) (a : Nat) (bs : List Byte) : (writeOutCells s a bs).capT = s.capT := by
  induction bs generalizing s a with
  | nil => rfl
  | cons b bs ih => rw [writeOutCells, ih]; simp
@[simp] theorem writeOutCells_host (s : State) (a : Nat) (bs : List Byte) : (writeOutCells s a bs).host = s.host := by
  induction bs generalizing s a with
  | nil => rfl
  | cons b bs ih => rw [writeOutCells, ih]; simp
@[simp] theorem writeOutCells_lastRead (s : State) (a : Nat) (bs : List Byte) : (writeOutCells s a bs).lastRead = s.lastRead := by
  induction bs generalizing s a with
  | nil => rfl
  | cons b bs ih => rw [writeOutCells, ih]; simp

end Sys2Proof.Machine
end

