-- ==== Sys2Proof/Laws/Ops.lean ====
section
/-! SUPPORT. One lemma for each shared operation that says everything it can do. -/

namespace Sys2Proof.Machine

@[simp] theorem fits_none (n : Nat) : fits none n = true := rfl

@[simp] theorem fits_some (c n : Nat) : fits (some c) n = true ↔ n ≤ c := by simp [fits]

/-- A capacity that holds `n` cells holds fewer. -/
theorem fits_mono {cap : Option Nat} {m n : Nat} (hn : fits cap n = true) (h : m ≤ n) : fits cap m = true := by
  cases cap with
  | none => rfl
  | some c => rw [fits_some] at *; omega

/-- `finish` answers a next state exactly when the output fits, and it is `finished`. -/
theorem finish_eq_next_iff (n : Nat) (s t : State) :
    finish n s = .next t ↔ fits s.capOut n = true ∧ t = finished n s := by
  unfold finish
  split
  · next h => simp only [h, true_and, Host.Outcome.next.injEq]; exact eq_comm
  · next h => simp [h]

/-- `finish` of an output that fits. -/
theorem finish_of_fits {n : Nat} {s : State} (h : fits s.capOut n = true) : finish n s = .next (finished n s) :=
  (finish_eq_next_iff n s _).mpr ⟨h, rfl⟩

/-- `deliver` answers a next state exactly when the output fits. -/
theorem deliver_eq_next_iff (bytes : List Byte) (s t : State) :
    deliver bytes s = .next t ↔
      fits s.capOut bytes.length = true ∧
        t = finished bytes.length { s with out := Memory.writeCells [] 0 bytes } :=
  finish_eq_next_iff _ _ _

/-- Reading what was delivered. -/
theorem read_delivered (bytes : List Byte) (a : Nat) :
    (Memory.writeCells [] 0 bytes).read a = bytes[a]? := by
  rw [Memory.read_writeCells]
  split
  · simp
  · next h => exact (List.getElem?_eq_none (by omega)).symm

/-- `withCapacity` answers a next state only through its body, with the input within capacity. -/
theorem withCapacity_eq_next_iff (s t : State) (body : Host.Outcome State Fault Refusal) :
    withCapacity s body = .next t ↔ fits s.capIn s.work.ilenl.toNat = true ∧ body = .next t := by
  unfold withCapacity
  split <;> simp_all

/-- `withStore` answers a next state only through its body, with `T` within its store. -/
theorem withStore_eq_next_iff (tlen : Nat) (s t : State) (body : Host.Outcome State Fault Refusal) :
    withStore tlen s body = .next t ↔ fits s.capT tlen = true ∧ body = .next t := by
  unfold withStore
  split <;> simp_all

/-- `withInput` answers a next state only through its body, on the cells of the input. -/
theorem withInput_eq_next_iff (s t : State) (body : List Byte → Host.Outcome State Fault Refusal) :
    withInput s body = .next t ↔
      ∃ xs, s.inp.readCells 0 s.work.ilenl.toNat = some xs ∧ body xs = .next t := by
  unfold withInput
  split <;> simp_all

/-- A character in the encode direction: one cell of `OUT` and the place in the group. -/
theorem symbol_of_encode {s : State} (d : Digit) (h : decodes s.work.opl = false) :
    symbol d s = .next { writeOut s (charIndex s) (romA d) with work := { s.work with k := s.work.k + 1 } } := by
  simp [symbol, h]

/-- A character in the decode direction: `V` and the place in the group. -/
theorem symbol_of_decode {s : State} (d : Digit) (h : decodes s.work.opl = true) :
    symbol d s = .next { s with work := { s.work with v := accumulate s.work.v d, k := s.work.k + 1 } } := by
  simp [symbol, h]

/-- Every shared operation on `OUT` keeps its canonical form. -/
theorem writeOut_keeps_wf (s : State) (a : Nat) (b : Byte) (h : s.out.wf = true) : (writeOut s a b).out.wf = true := by
  rw [writeOut_out]
  split
  · exact Memory.write_keeps_wf _ _ _ h
  · exact h

theorem writeOutCells_keeps_wf (s : State) (a : Nat) (bs : List Byte) (h : s.out.wf = true) :
    (writeOutCells s a bs).out.wf = true := by
  induction bs generalizing s a with
  | nil => exact h
  | cons b bs ih => exact ih _ _ (writeOut_keeps_wf s a b h)

/-- The memory after reset is canonical. -/
theorem reset_memory_wf :
    State.reset.inp.wf = true ∧ State.reset.out.wf = true ∧ State.reset.t.wf = true := by decide

/-- A step of the block is the word fetched here, or the control decision here. -/
theorem blockStep_of_busy {s : State} (whole : Bool) (h : s.phase = .busy) :
    blockStep whole s = match wordHere whole s with | some f => runFetched f s | none => controlHere s := by
  cases s
  cases h
  rfl

/-- Between operations the block does nothing. -/
theorem blockStep_of_not_busy {s : State} (whole : Bool) (h : s.phase ≠ .busy) : blockStep whole s = .next s := by
  cases hp : s.phase <;> simp_all [blockStep]

end Sys2Proof.Machine
end

