-- ==== Sys2Proof/Laws/Header.lean ====
section
/-! SUPPORT. The laws of LHDR and PADC. -/

namespace Sys2Proof.Machine

/-- `HDRDEC` on a buffer that has a byte 0. -/
theorem hdrdec_cons (b0 : Byte) (rest : List Byte) :
    hdrdec (b0 :: rest) = if b0 ≠ 0 then some (1, b0.setWidth 64) else (longLength rest).map fun d => (9, d) := rfl

/-- Fewer than eight bytes after the sentinel hold no long length. -/
theorem longLength_of_short {rest : List Byte} (h : rest.length < 8) : longLength rest = none := by
  unfold longLength
  split
  · simp only [List.length_cons] at h; omega
  · rfl

theorem length_hdrenc (n : Len) : (hdrenc n).length = if n.toNat ≤ 255 then 1 else 9 := by
  unfold hdrenc
  split <;> rfl

@[simp] theorem length_padBytes (draw p : Nat) : (padBytes draw p).length = p := by simp [padBytes]

/-- The length of the assembled buffer, whatever the draw. -/
theorem length_assemble {payload : List Byte} {n : Len} (draw : Nat) (h : payload.length = n.toNat) :
    (assemble payload n draw).length =
      (hdrenc n).length + n.toNat + padcalc ((hdrenc n).length + n.toNat) := by
  simp [assemble, h, Nat.add_assoc]

end Sys2Proof.Machine
end

