-- ==== Sys2Proof/Laws/Operands.lean ====
section
/-! SUPPORT. The laws of operand assembly. -/

namespace Sys2Proof.Machine

/-- `be32` as the number of 00_scope.md R14. -/
theorem be32_toNat (b0 b1 b2 b3 : Byte) :
    (be32 b0 b1 b2 b3).toNat = b0.toNat * 2 ^ 24 + b1.toNat * 2 ^ 16 + b2.toNat * 2 ^ 8 + b3.toNat := by
  have h1 := b1.isLt
  have h2 := b2.isLt
  have h3 := b3.isLt
  simp only [be32, BitVec.toNat_append]
  rw [← Nat.shiftLeft_add_eq_or_of_lt (b := b3.toNat) h3, ← Nat.shiftLeft_add_eq_or_of_lt (b := b2.toNat) h2,
    ← Nat.shiftLeft_add_eq_or_of_lt (b := b1.toNat) h1]
  simp only [Nat.shiftLeft_eq]
  omega

/-- `unbe32` takes apart what `be32` put together (R14). -/
theorem unbe32_be32 (b0 b1 b2 b3 : Byte) : unbe32 (be32 b0 b1 b2 b3) = [b0, b1, b2, b3] := by
  have h0 := b0.isLt
  have h1 := b1.isLt
  have h2 := b2.isLt
  have h3 := b3.isLt
  simp only [unbe32, List.cons.injEq, and_true]
  refine ⟨?_, ?_, ?_, ?_⟩ <;> apply BitVec.eq_of_toNat_eq <;>
    simp only [BitVec.extractLsb'_toNat, be32_toNat, Nat.shiftRight_eq_div_pow] <;> omega

@[simp] theorem length_unbe32 (v : BitVec 32) : (unbe32 v).length = 4 := rfl

@[simp] theorem digitOf_val (v k : Nat) : (digitOf v k).val = v / 85 ^ (4 - k) % 85 := rfl

/-- The accumulation does not wrap on values below `85^4`, which is all five digits need (41_dec85.md R127). -/
theorem accumulate_toNat (v : BitVec 33) (d : Digit) (h : v.toNat < 85 ^ 4) :
    (accumulate v d).toNat = v.toNat * 85 + d.val := by
  have hd := d.isLt
  have h85 : (85 : BitVec 33).toNat = 85 := rfl
  simp only [accumulate, BitVec.toNat_add, BitVec.toNat_mul, BitVec.toNat_ofNat, h85]
  omega

end Sys2Proof.Machine
end

