-- ==== Sys2Proof/Laws/Step.lean ====
section
/-! SUPPORT. How a step and an operation are taken apart: the turns of the host, the input of an operation, its end. -/

namespace Sys2Proof.Machine

/-! ## Steps -/

theorem step_of_turn {s : State} {turn : HostTurn} {turns : List HostTurn} (h : s.host = turn :: turns) :
    step s = takeTurn turn { s with host := turns } := by
  rw [step, h]

theorem step_of_no_turn {s : State} (h : s.host = []) : step s = blockStep true s := by
  rw [step, h]

/-- A next state comes from the block or from one turn of the host. -/
theorem step_next_cases {s t : State} (h : step s = .next t) :
    (s.host = [] ∧ blockStep true s = .next t) ∨
      ∃ turn turns, s.host = turn :: turns ∧ takeTurn turn { s with host := turns } = .next t := by
  unfold step at h
  split at h
  · next hs => exact .inl ⟨hs, h⟩
  · next turn turns hs => exact .inr ⟨turn, turns, hs, h⟩

/-- One step of a run. -/
theorem run_succ {k : Nat} {s t : State} (h : step s = .next t) :
    Host.Core.run core (k + 1) s = Host.Core.run core k t := by
  have hrun : ∀ (M : Host.Core) (s t : M.State), M.step s = .next t → M.run (k + 1) s = M.run k t := by
    intro M s t h
    simp only [Host.Core.run]
    rw [h]
  exact hrun core s t h

theorem fetchCommand_eq (s : State) : fetchCommand s = .word (selected s.work.opl) := by
  have hsel : ∀ op : BitVec 2, decode .cmd [op.setWidth 8] = .instr (selected op) [] := by decide
  rw [fetchCommand, hsel]
  rfl

/-- The rows of format `SYM` are `symbol` at their digits. -/
theorem exec_of_digit {i : Instr} {d : Digit} (s : State) (h : i.digit? = some d) : exec i s = symbol d s := by
  cases i <;> simp [Instr.digit?] at h <;> subst h <;> rfl

/-! ## Operations -/

theorem HasInput.length {s : State} {xs : List Byte} (h : HasInput s xs) : xs.length = s.work.ilenl.toNat :=
  Memory.length_readCells _ _ _ _ h.2

theorem withCapacity_of_fits {s : State} (body : Host.Outcome State Fault Refusal)
    (h : fits s.capIn s.work.ilenl.toNat = true) : withCapacity s body = body := by
  simp [withCapacity, h]

theorem withStore_of_fits {tlen : Nat} {s : State} (body : Host.Outcome State Fault Refusal)
    (h : fits s.capT tlen = true) : withStore tlen s body = body := by
  simp [withStore, h]

theorem withStore_of_not_fits {tlen : Nat} {s : State} (body : Host.Outcome State Fault Refusal)
    (h : fits s.capT tlen = false) : withStore tlen s body = .refused .intermediateExceedsStore := by
  simp [withStore, h]

theorem withInput_of_read {s : State} {xs : List Byte} (body : List Byte → Host.Outcome State Fault Refusal)
    (h : s.inp.readCells 0 s.work.ilenl.toNat = some xs) : withInput s body = body xs := by
  simp [withInput, h]

theorem deliver_of_fits {bytes : List Byte} {s : State} (h : fits s.capOut bytes.length = true) :
    deliver bytes s = .next (finished bytes.length { s with out := Memory.writeCells [] 0 bytes }) :=
  (deliver_eq_next_iff _ _ _).mpr ⟨h, rfl⟩

theorem deliver_of_not_fits {bytes : List Byte} {s : State} (h : fits s.capOut bytes.length = false) :
    deliver bytes s = .refused .outputExceedsCapacity := by
  simp [deliver, finish, h]

theorem KeepsInputs.trans {a b c : State} (hab : KeepsInputs a b) (hbc : KeepsInputs b c) : KeepsInputs a c := by
  unfold KeepsInputs at *
  simp_all

theorem keepsInputs_finished (n : Nat) (s : State) : KeepsInputs s (finished n s) :=
  ⟨rfl, rfl, rfl, rfl, rfl, rfl, rfl, rfl⟩

theorem keepsInputs_raise (e : ErrCode) (s : State) : KeepsInputs s (raise e s) :=
  ⟨rfl, rfl, rfl, rfl, rfl, rfl, rfl, rfl⟩

theorem keepsInputs_writeOut (s : State) (a : Nat) (b : Byte) : KeepsInputs s (writeOut s a b) := by simp [KeepsInputs]

/-- The successful end of an operation delivers its output. -/
theorem delivers_finished {bytes : List Byte} (s : State) (h : bytes.length < 2 ^ 65) :
    Delivers bytes (finished bytes.length { s with out := Memory.writeCells [] 0 bytes }) := by
  refine ⟨rfl, rfl, ?_, Memory.readCells_writeCells [] 0 bytes, fun a ha => ?_⟩
  · simp only [finished, BitVec.toNat_ofNat]
    omega
  · exact (read_delivered bytes a).trans (List.getElem?_eq_none ha)

/-- `TLEN` of a `FENC` is the length of what it assembles. -/
theorem framedLength_eq (n : Len) :
    framedLength n = if n.toNat ≤ 255 then 4 * (n.toNat / 4 + 1) else 4 * (n.toNat / 4 + 3) := by
  unfold framedLength padcalc
  simp only [length_hdrenc]
  split <;> omega

/-- What the host reads of a delivered cell. -/
theorem outCell_of_delivers {s : State} {bytes : List Byte} {a : Nat} {b : Byte} (hd : Delivers bytes s)
    (h : bytes[a]? = some b) : outCell s a = b := by
  obtain ⟨hp, he, hl, hr, -⟩ := hd
  have ha : a < bytes.length := (List.getElem?_eq_some_iff.mp h).1
  have hra := ((Memory.readCells_eq_some_iff _ _ _ _).mp hr).2 a ha
  rw [Nat.zero_add, h] at hra
  rw [outCell, if_pos ⟨hp, he, by omega⟩, hra]
  rfl

end Sys2Proof.Machine
end

