-- ==== Sys2Proof/Laws/Text.lean ====
section
/-! SUPPORT. The laws of the group loops: what a text holds, group by group, in the numbering of 20_memory.md R53. -/

namespace Sys2Proof.Machine

/-! ## Tables -/

@[simp] theorem romD_romA : ∀ d : Digit, romD (romA d) = some d := by decide

theorem romD_is_romA : ∀ c : Byte, (romD c).elim true (fun d => romA d == c) = true := by decide

theorem romA_of_romD {c : Byte} {d : Digit} (h : romD c = some d) : romA d = c := by
  have hc := romD_is_romA c
  rw [h] at hc
  simpa using hc

/-! ## Five digits -/

/-- The accumulator after five digits from 0 (30_encoding.md R85). -/
theorem accumulate_five (d0 d1 d2 d3 d4 : Digit) :
    (accumulate (accumulate (accumulate (accumulate (accumulate 0 d0) d1) d2) d3) d4).toNat =
      d0.val * 85 ^ 4 + d1.val * 85 ^ 3 + d2.val * 85 ^ 2 + d3.val * 85 + d4.val := by
  have h0 : (accumulate 0 d0).toNat = d0.val := by rw [accumulate_toNat _ _ (by decide)]; simp
  have h1 : (accumulate (accumulate 0 d0) d1).toNat = d0.val * 85 + d1.val := by
    rw [accumulate_toNat _ _ (by rw [h0]; omega), h0]
  have h2 : (accumulate (accumulate (accumulate 0 d0) d1) d2).toNat = (d0.val * 85 + d1.val) * 85 + d2.val := by
    rw [accumulate_toNat _ _ (by rw [h1]; omega), h1]
  have h3 : (accumulate (accumulate (accumulate (accumulate 0 d0) d1) d2) d3).toNat =
      ((d0.val * 85 + d1.val) * 85 + d2.val) * 85 + d3.val := by
    rw [accumulate_toNat _ _ (by rw [h2]; omega), h2]
  rw [accumulate_toNat _ _ (by rw [h3]; omega), h3]
  omega

theorem groupValue_toNat {v : BitVec 33} (h : v.toNat < 2 ^ 32) : (groupValue v).toNat = v.toNat := by
  simp only [groupValue, BitVec.toNat_setWidth]
  omega

/-- `be32` puts together what `unbe32` took apart. -/
theorem be32_of_unbe32 {v : BitVec 32} {b0 b1 b2 b3 : Byte} (h : unbe32 v = [b0, b1, b2, b3]) :
    be32 b0 b1 b2 b3 = v := by
  simp only [unbe32, List.cons.injEq, and_true] at h
  obtain ⟨rfl, rfl, rfl, rfl⟩ := h
  have hv := v.isLt
  apply BitVec.eq_of_toNat_eq
  simp only [be32_toNat, BitVec.extractLsb'_toNat, Nat.shiftRight_eq_div_pow]
  omega

/-! ## Group numbers -/

theorem groupNumber_zero (b0 b1 b2 b3 : Byte) (r : List Byte) :
    groupNumber (b0 :: b1 :: b2 :: b3 :: r) 0 = (be32 b0 b1 b2 b3).toNat := by
  rw [be32_toNat]
  rfl

theorem groupNumber_succ (b0 b1 b2 b3 : Byte) (r : List Byte) (i : Nat) :
    groupNumber (b0 :: b1 :: b2 :: b3 :: r) (i + 1) = groupNumber r i := by
  simp only [groupNumber]
  rw [show 4 * (i + 1) = 4 * i + 1 + 1 + 1 + 1 by omega]
  simp

theorem textNumber_succ (c0 c1 c2 c3 c4 : Byte) (r : List Byte) (i : Nat) :
    textNumber (c0 :: c1 :: c2 :: c3 :: c4 :: r) (i + 1) = textNumber r i := by
  simp only [textNumber]
  rw [show 5 * (i + 1) = 5 * i + 1 + 1 + 1 + 1 + 1 by omega]
  simp

theorem groupNumber_lt (bytes : List Byte) (i : Nat) : groupNumber bytes i < 2 ^ 32 := by
  have h0 := (bytes.getD (4 * i) 0).isLt
  have h1 := (bytes.getD (4 * i + 1) 0).isLt
  have h2 := (bytes.getD (4 * i + 2) 0).isLt
  have h3 := (bytes.getD (4 * i + 3) 0).isLt
  unfold groupNumber
  omega

/-- `DEC85` in terms of the number its five characters spell. -/
theorem dec85_eq_some_iff (c0 c1 c2 c3 c4 : Byte) (r : List Byte) (v : BitVec 32) :
    dec85 c0 c1 c2 c3 c4 = some v ↔ textNumber (c0 :: c1 :: c2 :: c3 :: c4 :: r) 0 = some v.toNat := by
  simp only [textNumber, Nat.mul_zero, Nat.zero_add, List.getD_cons_zero, List.getD_cons_succ]
  cases h0 : romD c0 with
  | none => simp [dec85, h0]
  | some d0 =>
  cases h1 : romD c1 with
  | none => simp [dec85, h1]
  | some d1 =>
  cases h2 : romD c2 with
  | none => simp [dec85, h2]
  | some d2 =>
  cases h3 : romD c3 with
  | none => simp [dec85, h3]
  | some d3 =>
  cases h4 : romD c4 with
  | none => simp [dec85, h4]
  | some d4 =>
  have ha := accumulate_five d0 d1 d2 d3 d4
  have hv := v.isLt
  simp only [dec85, h0, h1, h2, h3, h4, Option.some.injEq, ← ha]
  by_cases ho : 2 ^ 32 ≤ (accumulate (accumulate (accumulate (accumulate (accumulate 0 d0) d1) d2) d3) d4).toNat
  · rw [if_pos (by simpa [overflows] using ho)]
    simp only [reduceCtorEq, false_iff]
    omega
  · rw [if_neg (by simpa [overflows] using ho), Option.some.injEq, ← BitVec.toNat_inj, groupValue_toNat (by omega)]

/-! ## The loop of ENC85 -/

theorem length_encodeText : ∀ xs : List Byte, (encodeText xs).length = xs.length / 4 * 5
  | [] => rfl
  | [_] => by simp [encodeText]
  | [_, _] => by simp [encodeText]
  | [_, _, _] => by simp [encodeText]
  | b0 :: b1 :: b2 :: b3 :: r => by
    rw [encodeText, List.length_append, length_encodeText r]
    simp only [enc85, List.length_cons, List.length_nil]
    omega

/-- Character `k` of group `i` of a text (40_enc85.md R110, R113). -/
theorem getElem?_encodeText : ∀ (xs : List Byte) (i k : Nat), i < xs.length / 4 → k < 5 →
    (encodeText xs)[5 * i + k]? = some (romA (Fin.ofNat 85 (groupNumber xs i / 85 ^ (4 - k))))
  | [], _, _, hi, _ => by simp at hi
  | [_], _, _, hi, _ => by simp at hi
  | [_, _], _, _, hi, _ => by simp at hi
  | [_, _, _], _, _, hi, _ => by simp at hi
  | b0 :: b1 :: b2 :: b3 :: r, 0, k, _, hk => by
    rw [encodeText, groupNumber_zero, List.getElem?_append_left (by simp [enc85]; omega)]
    match k, hk with
    | 0, _ => rfl
    | 1, _ => rfl
    | 2, _ => rfl
    | 3, _ => rfl
    | 4, _ => rfl
  | b0 :: b1 :: b2 :: b3 :: r, i + 1, k, hi, hk => by
    rw [encodeText, groupNumber_succ, List.getElem?_append_right (by simp [enc85]; omega),
      show 5 * (i + 1) + k - (enc85 (be32 b0 b1 b2 b3)).length = 5 * i + k by simp [enc85]; omega]
    exact getElem?_encodeText r i k (by simp only [List.length_cons] at hi; omega) hk

theorem holdsTextOf_encodeText (xs : List Byte) : HoldsTextOf xs (Memory.writeCells [] 0 (encodeText xs)) := by
  intro i k hi hk
  rw [read_delivered, getElem?_encodeText xs i k hi hk]

/-! ## The loop of DEC85 -/

/-- The group loop of the decoder succeeds exactly on texts that decode (41_dec85.md R129, R132). -/
theorem decodeText_eq_some_iff : ∀ cs bytes : List Byte, cs.length % 5 = 0 →
    (decodeText cs = some bytes ↔ DecodesTo cs bytes)
  | [], bytes, _ => by
    simp only [decodeText, DecodesTo]
    constructor
    · rintro h
      cases h
      exact ⟨rfl, by simp⟩
    · rintro ⟨h, -⟩
      rw [List.eq_nil_of_length_eq_zero (l := bytes) (by simpa using h)]
  | [_], _, h => by simp at h
  | [_, _], _, h => by simp at h
  | [_, _, _], _, h => by simp at h
  | [_, _, _, _], _, h => by simp at h
  | c0 :: c1 :: c2 :: c3 :: c4 :: r, bytes, h => by
    have hr : r.length % 5 = 0 := by simp only [List.length_cons] at h; omega
    constructor
    · intro hd
      rw [decodeText] at hd
      split at hd
      · next v ys hv hys =>
        simp only [Option.some.injEq] at hd
        subst hd
        obtain ⟨hl, hg⟩ := (decodeText_eq_some_iff r ys hr).mp hys
        refine ⟨by simp [hl]; omega, fun i hi => ?_⟩
        rw [show unbe32 v ++ ys = v.extractLsb' 24 8 :: v.extractLsb' 16 8 :: v.extractLsb' 8 8 ::
          v.extractLsb' 0 8 :: ys from rfl]
        cases i with
        | zero => rw [groupNumber_zero, be32_of_unbe32 rfl]; exact (dec85_eq_some_iff _ _ _ _ _ r v).mp hv
        | succ i => rw [groupNumber_succ, textNumber_succ]; exact hg i (by simp only [List.length_cons] at hi; omega)
      · cases hd
    · rintro ⟨hl, hg⟩
      have hl4 : 4 ≤ bytes.length := by simp only [List.length_cons] at hl; omega
      rcases bytes with _ | ⟨b0, _ | ⟨b1, _ | ⟨b2, _ | ⟨b3, ys⟩⟩⟩⟩
      · simp at hl4
      · simp at hl4
      · simp at hl4
      · simp at hl4
      · have h0 := hg 0 (by simp)
        rw [groupNumber_zero] at h0
        have hys : decodeText r = some ys := by
          refine (decodeText_eq_some_iff r ys hr).mpr ⟨by simp only [List.length_cons] at hl; omega, fun i hi => ?_⟩
          have hi' := hg (i + 1) (by simp only [List.length_cons]; omega)
          rwa [groupNumber_succ, textNumber_succ] at hi'
        rw [decodeText, (dec85_eq_some_iff c0 c1 c2 c3 c4 r _).mpr h0, hys]
        exact congrArg some (by rw [unbe32_be32]; rfl)

/-- One group fails exactly when `DEC85` does. -/
theorem dec85_eq_none_iff (c0 c1 c2 c3 c4 : Byte) (r : List Byte) :
    dec85 c0 c1 c2 c3 c4 = none ↔ GroupFails (c0 :: c1 :: c2 :: c3 :: c4 :: r) 0 := by
  constructor
  · intro hn v hv
    by_cases hlt : v < 2 ^ 32
    · have hd := (dec85_eq_some_iff c0 c1 c2 c3 c4 r (BitVec.ofNat 32 v)).mpr
        (by rw [hv, BitVec.toNat_ofNat, Nat.mod_eq_of_lt hlt])
      rw [hn] at hd
      cases hd
    · omega
  · intro hg
    cases hd : dec85 c0 c1 c2 c3 c4 with
    | none => rfl
    | some v =>
      have h1 := hg _ ((dec85_eq_some_iff c0 c1 c2 c3 c4 r v).mp hd)
      have h2 := v.isLt
      omega

/-- The group loop of the decoder fails exactly when a group does (41_dec85.md R132). -/
theorem decodeText_eq_none_iff : ∀ cs : List Byte, cs.length % 5 = 0 →
    (decodeText cs = none ↔ ∃ i, i < cs.length / 5 ∧ GroupFails cs i)
  | [], _ => by simp [decodeText]
  | [_], h => by simp at h
  | [_, _], h => by simp at h
  | [_, _, _], h => by simp at h
  | [_, _, _, _], h => by simp at h
  | c0 :: c1 :: c2 :: c3 :: c4 :: r, h => by
    have hr : r.length % 5 = 0 := by simp only [List.length_cons] at h; omega
    have ih := decodeText_eq_none_iff r hr
    have hz := dec85_eq_none_iff c0 c1 c2 c3 c4 r
    have hs : ∀ i, GroupFails (c0 :: c1 :: c2 :: c3 :: c4 :: r) (i + 1) ↔ GroupFails r i := by
      intro i
      simp only [GroupFails, textNumber_succ]
    rw [decodeText]
    constructor
    · intro hd
      cases h0 : dec85 c0 c1 c2 c3 c4 with
      | none => exact ⟨0, by simp, hz.mp h0⟩
      | some v =>
        cases h1 : decodeText r with
        | none =>
          obtain ⟨i, hi, hf⟩ := ih.mp h1
          exact ⟨i + 1, by simp only [List.length_cons]; omega, (hs i).mpr hf⟩
        | some ys => rw [h0, h1] at hd; cases hd
    · rintro ⟨i, hi, hf⟩
      cases i with
      | zero => rw [hz.mpr hf]
      | succ i =>
        rw [ih.mpr ⟨i, by simp only [List.length_cons] at hi; omega, (hs i).mp hf⟩]
        split <;> simp_all

end Sys2Proof.Machine
end

