-- ==== Sys2Proof/Tests/Slice0.lean ====
section
/-! SUPPORT. Tests: expected values come from the vectors of 95_test_vectors.md (named V) and from the encodings of the
spec, and one witness for the hypotheses of each statement. -/

namespace Sys2Proof.Tests

open Sys2Proof.Machine

/-! ## Small states -/

/-- The host has written `OP`, `ILEN` and `IN`. -/
def loaded (op : BitVec 2) (bytes : List Byte) : State :=
  { State.reset with op := op, ilen := BitVec.ofNat 64 bytes.length, inp := Memory.writeCells [] 0 bytes }

/-- ... and `START` was honoured. -/
def latched (op : BitVec 2) (bytes : List Byte) : State := latch (loaded op bytes)

/-- An operation that has ended with `bytes` in `OUT`. -/
def doneWith (bytes : List Byte) : State :=
  { State.reset with
    phase := .done, olen := BitVec.ofNat 65 bytes.length, out := Memory.writeCells [] 0 bytes }

/-- The sequencer stands at character `k` of the first group. -/
def atCharacter (op : BitVec 2) (bytes : List Byte) (v : BitVec 33) (k : Nat) : State :=
  let s := latched op bytes
  { s with work := { s.work with v := v, k := k, gi := 0, stage := .symbol } }

/-- The sequencer stands at the header of a `T` with these bytes. -/
def atHeader (op : BitVec 2) (bytes : List Byte) : State :=
  let s := latched op [0x30, 0x30, 0x30, 0x30, 0x30]
  { s with
    t := Memory.writeCells [] 0 bytes
    work := { s.work with tlen := BitVec.ofNat 65 bytes.length, stage := .header } }

/-- The next state, if there is one. -/
def nextOf (o : Host.Outcome State Fault Refusal) : Option State :=
  match o with
  | .next s => some s
  | .fault _ | .refused _ => none

/-- `ERR`, `OLEN` and `OUT[0 .. OLEN)` of the next state. -/
def resultOf (o : Host.Outcome State Fault Refusal) : Option (ErrCode × Nat × Option (List Byte)) :=
  (nextOf o).map fun s => (s.err, s.olen.toNat, s.out.readCells 0 s.olen.toNat)

/-! ## Well-formed terms -/

/-- `00` is the sentinel and no short header (R92). -/
theorem test_short_header_zero_is_refused : (Instr.hdrShort 0).wellFormed = false := by decide

theorem test_short_header_one_is_accepted : (Instr.hdrShort 1).wellFormed = true := by decide

/-! ## Decoding, from the words of the spec -/

/-- The rows of R86, part 1. -/
def symbolRows1 : List (Byte × Instr) :=
  [(0x30, .sym00), (0x31, .sym01), (0x32, .sym02), (0x33, .sym03), (0x34, .sym04),
    (0x35, .sym05), (0x36, .sym06), (0x37, .sym07), (0x38, .sym08), (0x39, .sym09),
    (0x61, .sym10), (0x62, .sym11), (0x63, .sym12), (0x64, .sym13), (0x65, .sym14),
    (0x66, .sym15), (0x67, .sym16)]

/-- The rows of R86, part 2. -/
def symbolRows2 : List (Byte × Instr) :=
  [(0x68, .sym17), (0x69, .sym18), (0x6A, .sym19), (0x6B, .sym20), (0x6C, .sym21),
    (0x6D, .sym22), (0x6E, .sym23), (0x6F, .sym24), (0x70, .sym25), (0x71, .sym26),
    (0x72, .sym27), (0x73, .sym28), (0x74, .sym29), (0x75, .sym30), (0x76, .sym31),
    (0x77, .sym32), (0x78, .sym33)]

/-- The rows of R86, part 3. -/
def symbolRows3 : List (Byte × Instr) :=
  [(0x79, .sym34), (0x7A, .sym35), (0x41, .sym36), (0x42, .sym37), (0x43, .sym38),
    (0x44, .sym39), (0x45, .sym40), (0x46, .sym41), (0x47, .sym42), (0x48, .sym43),
    (0x49, .sym44), (0x4A, .sym45), (0x4B, .sym46), (0x4C, .sym47), (0x4D, .sym48),
    (0x4E, .sym49), (0x4F, .sym50)]

/-- The rows of R86, part 4. -/
def symbolRows4 : List (Byte × Instr) :=
  [(0x50, .sym51), (0x51, .sym52), (0x52, .sym53), (0x53, .sym54), (0x54, .sym55),
    (0x55, .sym56), (0x56, .sym57), (0x57, .sym58), (0x58, .sym59), (0x59, .sym60),
    (0x5A, .sym61), (0x2E, .sym62), (0x2D, .sym63), (0x3A, .sym64), (0x2B, .sym65),
    (0x3D, .sym66), (0x5E, .sym67)]

/-- The rows of R86, part 5. -/
def symbolRows5 : List (Byte × Instr) :=
  [(0x21, .sym68), (0x2F, .sym69), (0x2A, .sym70), (0x3F, .sym71), (0x26, .sym72),
    (0x3C, .sym73), (0x3E, .sym74), (0x28, .sym75), (0x29, .sym76), (0x5B, .sym77),
    (0x5D, .sym78), (0x7B, .sym79), (0x7D, .sym80), (0x40, .sym81), (0x25, .sym82),
    (0x24, .sym83), (0x23, .sym84)]

/-- The table of R86, row by row: the code of each character and its instruction. -/
def symbolRows : List (Byte × Instr) := symbolRows1 ++ symbolRows2 ++ symbolRows3 ++ symbolRows4 ++ symbolRows5

theorem test_symbol_rows_are_all : symbolRows.length = 85 := by decide

/-- R86, R87: every character decodes to its row. -/
theorem test_decode_symbols : (symbolRows.all fun r => decide (decode .sym [r.1] = .instr r.2 [])) = true := by decide

/-- R80: `OP[1:0]`. -/
theorem test_decode_commands :
    decode .cmd [0b00] = .instr .benc [] ∧ decode .cmd [0b01] = .instr .bdec [] ∧
      decode .cmd [0b10] = .instr .fenc [] ∧ decode .cmd [0b11] = .instr .fdec [] := by decide

/-- V29d, V29f: the long header. -/
theorem test_decode_long_header :
    decode .hdr [0x00, 0x00, 0x00, 0x00, 0x00, 0x00, 0x00, 0x04, 0xB0] = .instr (.hdrLong 0 1200) [] ∧
      decode .hdr [0x00, 0xFF, 0xFF, 0xFF, 0xFF, 0xFF, 0xFF, 0xFF, 0xFF] =
        .instr (.hdrLong 0xFFFFFFFF 0xFFFFFFFF) [] := by decide

/-- V29g, V29h: the short header. -/
theorem test_decode_short_header :
    decode .hdr [0x03, 0x61, 0x62, 0x63] = .instr (.hdrShort 3) [0x61, 0x62, 0x63] ∧
      decode .hdr [0xFF, 0x01] = .instr (.hdrShort 255) [0x01] := by decide

/-- V26j, V26m, V29k: what is no word. -/
theorem test_decode_rejects :
    decode .sym [0x20] = .error (.unrecognisedCharacter 0x20) ∧
      decode .sym [0xB0] = .error (.unrecognisedCharacter 0xB0) ∧
      decode .hdr [0x00, 0x00, 0x00, 0x00] = .error .truncatedHeader ∧
      decode .cmd [0x04] = .error (.notTwoBits 0x04) ∧ decode .cmd [] = .error .empty := by decide

/-- The opcode table's numbering: byte 0 is bits 7:0 (the long header of length 1200). -/
theorem test_table_words :
    decodeTableWord 8 2 = some .fenc ∧ decodeTableWord 8 0x41 = some .sym36 ∧
      decodeTableWord 8 0x80 = some (.hdrShort 0x80) ∧
      decodeTableWord 72 0xB00400000000000000 = some (.hdrLong 0 1200) := by decide

/-! ## One step of each instruction -/

/-- V27b. -/
theorem test_benc_hello_world :
    resultOf (exec .benc (latched 0 [0x86, 0x4F, 0xD2, 0x6F, 0xB5, 0x59, 0xF7, 0x5B])) =
      some (.ok, 10, some [0x48, 0x65, 0x6C, 0x6C, 0x6F, 0x57, 0x6F, 0x72, 0x6C, 0x64]) := by decide

/-- V27d. -/
theorem test_benc_three_bytes :
    resultOf (exec .benc (latched 0 [0x86, 0x4F, 0xD2])) = some (.invalidLength, 0, some []) := by decide

/-- V28b. -/
theorem test_bdec_hello_world :
    resultOf (exec .bdec (latched 1 [0x48, 0x65, 0x6C, 0x6C, 0x6F, 0x57, 0x6F, 0x72, 0x6C, 0x64])) =
      some (.ok, 8, some [0x86, 0x4F, 0xD2, 0x6F, 0xB5, 0x59, 0xF7, 0x5B]) := by decide

/-- V28g: the second group overflows, and the first group's bytes are no result. -/
theorem test_bdec_second_group_overflows :
    resultOf (exec .bdec (latched 1 [0x31, 0x37, 0x74, 0x55, 0x47, 0x23, 0x23, 0x23, 0x23, 0x23])) =
      some (.encodingFailure, 0, some []) := by decide

/-- V30: no pad, so nothing depends on the draw. -/
theorem test_fenc_abc :
    resultOf (exec .fenc (latched 2 [0x61, 0x62, 0x63])) = some (.ok, 5, some [0x31, 0x37, 0x74, 0x55, 0x47]) := by
  decide

/-- V33: three pad bytes; `OLEN` and the first group do not depend on the draw. -/
theorem test_fenc_abcd :
    (nextOf (exec .fenc (latched 2 [0x61, 0x62, 0x63, 0x64]))).map
        (fun s => (s.olen.toNat, s.out.readCells 0 5)) =
      some (10, some [0x31, 0x79, 0x55, 0x2B, 0x48]) := by decide

/-- V42e: a long header that declares 3. -/
theorem test_fdec_long_header :
    resultOf (exec .fdec (latched 3 [0x30, 0x30, 0x30, 0x30, 0x30, 0x30, 0x30, 0x30, 0x30, 0x30,
        0x31, 0x37, 0x74, 0x55, 0x47])) =
      some (.ok, 3, some [0x61, 0x62, 0x63]) := by decide

/-- V42g: a declared length of `2^64 - 1` does not wrap. -/
theorem test_fdec_huge_declared_length :
    resultOf (exec .fdec (latched 3 [0x30, 0x72, 0x72, 0x39, 0x30, 0x25, 0x6E, 0x53, 0x63, 0x30,
        0x40, 0x40, 0x72, 0x33, 0x30])) =
      some (.truncatedInput, 0, some []) := by decide

/-- V29b: `HDRENC(255)` writes one byte. -/
theorem test_hdr_short_encode :
    (nextOf (exec (.hdrShort 255) (atHeader 2 []))).map (fun s => (s.t, s.work.hlen)) = some ([(0, 0xFF)], 1) := by
  decide

/-- V29h: declared length 255. -/
theorem test_hdr_short_decode :
    (nextOf (exec (.hdrShort 255) (atHeader 3 [0xFF, 1, 2, 3]))).map (fun s => (s.work.hlen, s.work.dlen)) =
      some (1, 255) := by decide

/-- V29e: `HDRENC(2^32)`. -/
theorem test_hdr_long_encode :
    (nextOf (exec (.hdrLong 1 0) (atHeader 2 []))).map (fun s => s.t.readCells 0 9) =
      some (some [0x00, 0x00, 0x00, 0x00, 0x01, 0x00, 0x00, 0x00, 0x00]) := by decide

/-- V29j: `(9, 2^32)`; V29l: in eight bytes there is no long header. -/
theorem test_hdr_long_decode :
    (nextOf (exec (.hdrLong 1 0) (atHeader 3 [0, 0, 0, 0, 1, 0, 0, 0, 0, 0, 0, 0]))).map
        (fun s => (s.work.hlen, s.work.dlen)) = some (9, 0x100000000) ∧
      (nextOf (exec (.hdrLong 0 0) (atHeader 3 [0, 0, 0, 0, 0, 0, 0, 0]))).map (fun s => s.err) =
        some .truncatedInput := by decide

/-- R125: after digit 1, digit `d` gives `V = 85 + d`, for each of the 85 rows. -/
theorem test_symbols_accumulate :
    (symbolRows.zipIdx.all fun r =>
      decide ((nextOf (exec r.1.2 (atCharacter 1 [] 1 1))).map (fun s => s.work.v.toNat) = some (85 + r.2))) = true := by
  decide

/-- R110: each of the 85 rows writes its own code. -/
theorem test_symbols_are_written :
    (symbolRows.all fun r =>
      decide ((nextOf (exec r.2 (atCharacter 0 [] 0 3))).map (fun s => s.out) = some [(3, r.1)])) = true := by decide

/-! ## One step of the machine -/

/-- The next step of a machine straight after reset runs the word placed. -/
theorem test_fetch_command :
    (nextOf (step (State.reset.withFetchWord 8 2))).map (fun s => (s.phase, s.err)) = some (.done, .ok) := by decide

theorem test_fetch_symbol :
    (nextOf (step (State.reset.withFetchWord 8 0x41))).map (fun s => s.work.v) = some 36 := by decide

theorem test_fetch_long_header :
    (nextOf (step (State.reset.withFetchWord 72 0xB00400000000000000))).map (fun s => s.work.dlen) = some 1200 := by
  decide

/-- R23: what an honoured `START` does. -/
theorem test_start_latches :
    (nextOf (step { loaded 1 [0x30] with host := [.start] })).map
        (fun s => (s.phase, s.work.opl, s.work.ilenl)) = some (.busy, 1, 1) := by decide

/-- V41b: a bad character in the second group is found before the header of the first. -/
theorem test_fdec_error_order :
    resultOf (step (latched 3 [0x40, 0x40, 0x41, 0x66, 0x36, 0x30, 0x30, 0x30, 0x30, 0x20])) =
      some (.encodingFailure, 0, some []) := by decide

/-- R40: with room for one cell of `T` less than `TLEN`, a `START` of `FENC` and a single step of `FDEC` are refused;
with `TLEN` cells the `START` is honoured. -/
theorem test_store_for_t :
    step { (loaded 2 [0x61, 0x62, 0x63]) with capT := some 3, host := [.start] } = .refused .intermediateExceedsStore ∧
      step { (latched 3 [0x31, 0x37, 0x74, 0x55, 0x47]) with capT := some 3, host := [.pass] } =
        .refused .intermediateExceedsStore ∧
      (nextOf (step { (loaded 2 [0x61, 0x62, 0x63]) with capT := some 4, host := [.start] })).map (fun s => s.phase) =
        some .busy :=
  ⟨rfl, rfl, by decide⟩

/-- R112, V22 to V25. -/
theorem test_enc85_corners :
    enc85 0x7FFFFFFF = [0x46, 0x62, 0x2F, 0x4D, 0x47] ∧ enc85 0x80000000 = [0x46, 0x62, 0x2F, 0x4D, 0x48] ∧
      enc85 0xFFFFFFFE = [0x25, 0x6E, 0x53, 0x62, 0x23] ∧ enc85 0xFFFFFFFF = [0x25, 0x6E, 0x53, 0x63, 0x30] := by decide

/-- R36, R200: after an `InvalidLength` the host reads `PHASE` 2 and `ERR` 1. -/
theorem test_reads_after_an_error :
    (nextOf (step { (raise .invalidLength State.reset) with host := [.readPhase] })).map (fun s => s.lastRead) =
        some (some (.phase 2)) ∧
      (nextOf (step { (raise .invalidLength State.reset) with host := [.readErr] })).map (fun s => s.lastRead) =
        some (some (.err 1)) := by decide

/-- P3: `CUT 5` of ten cells. -/
theorem test_cut :
    (nextOf (step { State.reset with ilen := 10, host := [.cut 5] })).map (fun s => s.ilen) = some 5 := by decide

/-- R98 states no length here: the step completes, and everything but `ILEN` is as it was. -/
theorem test_cut_below_zero :
    (nextOf (step { (loaded 1 [7]) with host := [.cut 2] })).map (fun s => (s.op, s.phase, s.inp, s.host)) =
      some (1, .idle, [(0, 7)], []) := by decide

/-! ## A witness for the hypotheses of each statement -/

/-- Boundary digits of the four clauses. -/
theorem witness_AlphabetClosedForm :
    (0 : Digit).val < 10 ∧ (9 : Digit).val < 10 ∧ 10 ≤ (10 : Digit).val ∧ (35 : Digit).val < 36 ∧
      36 ≤ (36 : Digit).val ∧ (61 : Digit).val < 62 ∧ 62 ≤ (62 : Digit).val ∧ 62 ≤ (84 : Digit).val := by decide

theorem witness_DecodeInvertsEncode :
    (Instr.hdrShort 1).wellFormed = true ∧ (Instr.hdrShort 255).wellFormed = true ∧
      (Instr.hdrLong 0 0).wellFormed = true ∧ Instr.sym84.wellFormed = true ∧ Instr.fdec.wellFormed = true := by decide

theorem witness_EncodeInvertsDecode :
    decode .cmd [3, 9] = .instr .fdec [9] ∧ decode .hdr [1] = .instr (.hdrShort 1) [] ∧
      decode .sym [0x23, 9] = .instr .sym84 [9] := by decide

/-- A command, a header and a character to be fetched. -/
theorem witness_StepRunsTheDecodedWord :
    ((latched 3 []).phase = .busy ∧ (latched 3 []).work.stage = .command ∧ (latched 3 []).host = [] ∧
      decode .cmd [(latched 3 []).work.opl.setWidth 8] = .instr .fdec []) ∧
    ((atHeader 3 [7, 1, 2, 3]).phase = .busy ∧ (atHeader 3 [7, 1, 2, 3]).work.stage = .header ∧
      decodes (atHeader 3 [7, 1, 2, 3]).work.opl = true ∧
      (atHeader 3 [7, 1, 2, 3]).t.readCells 0 (min 9 (atHeader 3 [7, 1, 2, 3]).work.tlen.toNat) = some [7, 1, 2, 3] ∧
      decode .hdr [7, 1, 2, 3] = .instr (.hdrShort 7) [1, 2, 3]) ∧
    ((atCharacter 1 [0x30, 0x31] 0 1).phase = .busy ∧ (atCharacter 1 [0x30, 0x31] 0 1).work.stage = .symbol ∧
      (atCharacter 1 [0x30, 0x31] 0 1).work.k < 5 ∧ decodes (atCharacter 1 [0x30, 0x31] 0 1).work.opl = true ∧
      (atCharacter 1 [0x30, 0x31] 0 1).inp.read 1 = some 0x31 ∧ decode .sym [0x31] = .instr .sym01 []) := by decide

/-- V26b, V26f, V26j: the largest number that decodes, the next one, and a character outside the alphabet. -/
theorem witness_Dec85Accumulates :
    (romD 0x25 = some 82 ∧ romD 0x6E = some 23 ∧ romD 0x53 = some 54 ∧ romD 0x63 = some 12 ∧ romD 0x30 = some 0 ∧
      (((82 * 85 + 23) * 85 + 54) * 85 + 12) * 85 + 0 = 2 ^ 32 - 1) ∧
    (romD 0x31 = some 1 ∧ (((82 * 85 + 23) * 85 + 54) * 85 + 12) * 85 + 1 = 2 ^ 32) ∧ romD 0x20 = none := by decide

theorem witness_Dec85InvertsEnc85 :
    enc85 0xFFFFFFFF = [0x25, 0x6E, 0x53, 0x63, 0x30] ∧ dec85 0x25 0x6E 0x53 0x63 0x30 = some 0xFFFFFFFF := by decide

theorem hasInput_latched : HasInput (latched 0 [1, 2, 3, 4]) [1, 2, 3, 4] := ⟨by decide, by decide⟩

theorem witness_BencEncodesTheInput :
    HasInput (latched 0 [1, 2, 3, 4]) [1, 2, 3, 4] ∧ (latched 0 [1, 2, 3, 4]).work.ilenl.toNat % 4 = 0 ∧
      fits (latched 0 [1, 2, 3, 4]).capOut ((latched 0 [1, 2, 3, 4]).work.ilenl.toNat / 4 * 5) = true :=
  ⟨hasInput_latched, by decide, by decide⟩

/-- Lengths that fail one check and the smallest that fails both, in a state whose `IN` holds nothing. -/
theorem witness_BaseCommandsRejectOtherLengths :
    fits (latched 0 []).capIn (14 : Len).toNat = true ∧ (7 : Len).toNat % 4 ≠ 0 ∧ (14 : Len).toNat % 5 ≠ 0 ∧
      (1 : Len).toNat % 4 ≠ 0 ∧ (1 : Len).toNat % 5 ≠ 0 := by decide

/-- "Hello" and the four bytes it stands for (V28c). -/
theorem decodes_hello : DecodesTo [0x48, 0x65, 0x6C, 0x6C, 0x6F] [0x86, 0x4F, 0xD2, 0x6F] := ⟨by decide, by decide⟩

theorem witness_BdecDecodesTheInput :
    HasInput (latched 1 [0x48, 0x65, 0x6C, 0x6C, 0x6F]) [0x48, 0x65, 0x6C, 0x6C, 0x6F] ∧
      (latched 1 [0x48, 0x65, 0x6C, 0x6C, 0x6F]).work.ilenl.toNat % 5 = 0 ∧
      DecodesTo [0x48, 0x65, 0x6C, 0x6C, 0x6F] [0x86, 0x4F, 0xD2, 0x6F] ∧
      fits (latched 1 [0x48, 0x65, 0x6C, 0x6C, 0x6F]).capOut 4 = true :=
  ⟨⟨by decide, by decide⟩, by decide, decodes_hello, by decide⟩

/-- `#####` fails by overflow (V26i), `0000 ` by its space (V26j). -/
theorem groupFails_overflow : GroupFails [0x23, 0x23, 0x23, 0x23, 0x23] 0 := by
  intro v h
  rw [show textNumber [0x23, 0x23, 0x23, 0x23, 0x23] 0 = some 4437053124 by decide] at h
  cases h
  decide

theorem groupFails_space : GroupFails [0x30, 0x30, 0x30, 0x30, 0x20] 0 := by
  intro v h
  rw [show textNumber [0x30, 0x30, 0x30, 0x30, 0x20] 0 = none by decide] at h
  cases h

/-- The first clause on an overflow, the second on a space. -/
theorem witness_BdecFailsExactlyOnAFailingGroup :
    (HasInput (latched 1 [0x23, 0x23, 0x23, 0x23, 0x23]) [0x23, 0x23, 0x23, 0x23, 0x23] ∧
      (latched 1 [0x23, 0x23, 0x23, 0x23, 0x23]).work.ilenl.toNat % 5 = 0 ∧
      GroupFails [0x23, 0x23, 0x23, 0x23, 0x23] 0) ∧
    (HasInput (latched 1 [0x30, 0x30, 0x30, 0x30, 0x20]) [0x30, 0x30, 0x30, 0x30, 0x20] ∧
      ∃ t, exec .bdec (latched 1 [0x30, 0x30, 0x30, 0x30, 0x20]) = .next t ∧ t.err ≠ .ok) :=
  ⟨⟨⟨by decide, by decide⟩, by decide, groupFails_overflow⟩, ⟨by decide, by decide⟩,
    raise .encodingFailure (latched 1 [0x30, 0x30, 0x30, 0x30, 0x20]), rfl, by decide⟩

theorem witness_EmptyInputIsNoError : (latched 2 []).work.ilenl = 0 := by decide

theorem witness_HdrencForms : (255 : Len).toNat ≤ 255 ∧ 255 < (256 : Len).toNat ∧ (0 : Nat) < 8 ∧ 7 < 8 := by decide

theorem witness_HdrdecForms :
    (1 : Byte) ≠ 0 ∧ (0 : Byte) = 0 ∧ ([0, 0, 0, 0, 0, 0, 0] : List Byte).length < 8 ∧
      8 ≤ ([0, 0, 0, 0, 0, 0, 4, 0xB0] : List Byte).length := by decide

theorem witness_HdrdecInvertsHdrenc : (1 : Len) ≠ 0 ∧ (256 : Len) ≠ 0 := by decide

theorem witness_PadcalcIsTheLeastPad : (5 + 3) % 4 = 0 := by decide

/-- V29q at the boundary, V29r and V29t above it. -/
theorem witness_StripCutsTheDeclaredPayload :
    1 + (3 : Len).toNat ≤ ([0x03, 0x61, 0x62, 0x63] : List Byte).length ∧
      1 + (7 : Len).toNat > ([0x07, 0x61, 0x62, 0x63] : List Byte).length ∧
      9 + (0xFFFFFFFFFFFFFFFF : Len).toNat > 12 := by decide

theorem witness_HdrShortBothDirections :
    decodes (atHeader 2 []).work.opl = false ∧ decodes (atHeader 3 [3, 0, 0, 0]).work.opl = true := by decide

theorem witness_HdrLongBothDirections :
    decodes (atHeader 2 []).work.opl = false ∧ decodes (atHeader 3 []).work.opl = true ∧
      9 ≤ (atHeader 3 [0, 0, 0, 0, 0, 0, 0, 0, 1]).work.tlen.toNat ∧
      (atHeader 3 [0, 0, 0, 0, 0, 0, 0, 0]).work.tlen.toNat < 9 := by decide

theorem witness_CharacterAccumulatesItsDigit :
    Instr.sym84.digit? = some 84 ∧ Instr.sym00.digit? = some 0 ∧ decodes (atCharacter 1 [] 0 0).work.opl = true := by
  decide

theorem witness_CharacterIsWrittenToOut :
    Instr.sym84.digit? = some 84 ∧ decodes (atCharacter 0 [] 0 4).work.opl = false ∧
      fits (atCharacter 0 [] 0 4).capOut 5 = true ∧
      fits { (atCharacter 0 [] 0 4) with capOut := some 4 }.capOut 5 = false := by decide

theorem witness_UnrecognisedCharacterEndsTheOperation :
    (atCharacter 1 [0x20] 0 0).phase = .busy ∧ (atCharacter 1 [0x20] 0 0).host = [] ∧
      (atCharacter 1 [0x20] 0 0).work.stage = .symbol ∧ (atCharacter 1 [0x20] 0 0).work.k < 5 ∧
      decodes (atCharacter 1 [0x20] 0 0).work.opl = true ∧ (atCharacter 1 [0x20] 0 0).inp.read 0 = some 0x20 ∧
      ∀ d : Digit, romA d ≠ 0x20 := by decide

/-- `FENC` of three bytes has no pad. -/
theorem witness_FencEncodesTheFramedPayload :
    HasInput (latched 2 [1, 2, 3]) [1, 2, 3] ∧ (latched 2 [1, 2, 3]).work.ilenl ≠ 0 ∧
      ([3, 1, 2, 3] : List Byte) = hdrenc (latched 2 [1, 2, 3]).work.ilenl ++ [1, 2, 3] ++
        (List.range (padcalc ((hdrenc (latched 2 [1, 2, 3]).work.ilenl).length +
          (latched 2 [1, 2, 3]).work.ilenl.toNat))).map (Config.padFill 0) ∧
      fits (latched 2 [1, 2, 3]).capOut 5 = true ∧ fits (latched 2 [1, 2, 3]).capT 4 = true :=
  ⟨⟨by decide, by decide⟩, by decide, rfl, by decide, by decide⟩

theorem witness_FencOutputLength :
    (∃ t, exec .fenc (latched 2 []) = .next t) ∧ (∃ t, exec .fenc (latched 2 [1, 2, 3]) = .next t) ∧
      1 ≤ (latched 2 [1, 2, 3]).work.ilenl.toNat :=
  ⟨⟨_, rfl⟩, ⟨_, rfl⟩, by decide⟩

/-- Two draws that may differ, with a pad of two bytes and with none. -/
theorem witness_PadDrawChangesOnlyTheLastGroup :
    (HasInput (latched 2 [1]) [1] ∧ HasInput { (latched 2 [1]) with draws := 9 } [1] ∧
      (∃ t, exec .fenc (latched 2 [1]) = .next t) ∧ ∃ t, exec .fenc { (latched 2 [1]) with draws := 9 } = .next t) ∧
    (latched 2 [1, 2, 3]).work.ilenl.toNat % 4 = 3 :=
  ⟨⟨⟨by decide, by decide⟩, ⟨by decide, by decide⟩, ⟨_, rfl⟩, ⟨_, rfl⟩⟩, by decide⟩

/-- "17tUG" and its buffer `03 61 62 63` (V38b). -/
theorem decodes_17tUG : DecodesTo [0x31, 0x37, 0x74, 0x55, 0x47] [0x03, 0x61, 0x62, 0x63] := ⟨by decide, by decide⟩

theorem header_3 : HasHeader [0x03, 0x61, 0x62, 0x63] 1 3 := .inl ⟨by decide, rfl, by decide⟩

theorem witness_FdecDeliversTheDeclaredPayload :
    HasInput (latched 3 [0x31, 0x37, 0x74, 0x55, 0x47]) [0x31, 0x37, 0x74, 0x55, 0x47] ∧
      (latched 3 [0x31, 0x37, 0x74, 0x55, 0x47]).work.ilenl ≠ 0 ∧
      (latched 3 [0x31, 0x37, 0x74, 0x55, 0x47]).work.ilenl.toNat % 5 = 0 ∧
      DecodesTo [0x31, 0x37, 0x74, 0x55, 0x47] [0x03, 0x61, 0x62, 0x63] ∧
      HasHeader [0x03, 0x61, 0x62, 0x63] 1 3 ∧ 1 + 3 ≤ ([0x03, 0x61, 0x62, 0x63] : List Byte).length ∧
      fits (latched 3 [0x31, 0x37, 0x74, 0x55, 0x47]).capOut 3 = true ∧
      fits (latched 3 [0x31, 0x37, 0x74, 0x55, 0x47]).capT 4 = true :=
  ⟨⟨by decide, by decide⟩, by decide, by decide, decodes_17tUG, header_3, by decide, by decide, by decide⟩

/-- "00000" decodes to four zero bytes, in which there is no header (V42a). -/
theorem no_header_in_zeros : ∀ h d, HasHeader [0, 0, 0, 0] h d → ([0, 0, 0, 0] : List Byte).length < h + d := by
  rintro h d (⟨h0, -⟩ | ⟨-, h9, -⟩)
  · exact absurd rfl h0
  · exact absurd h9 (by decide)

/-- One witness for each end in the order of R179. -/
theorem witness_FdecErrorOrder :
    (latched 3 []).work.ilenl = 0 ∧ (fits (latched 3 []).capIn 4 = true ∧ (4 : Len).toNat % 5 ≠ 0) ∧
    (HasInput (latched 3 [0x23, 0x23, 0x23, 0x23, 0x23]) [0x23, 0x23, 0x23, 0x23, 0x23] ∧
      (latched 3 [0x23, 0x23, 0x23, 0x23, 0x23]).work.ilenl = 5 ∧ GroupFails [0x23, 0x23, 0x23, 0x23, 0x23] 0) ∧
    (HasInput (latched 3 [0x30, 0x30, 0x30, 0x30, 0x30]) [0x30, 0x30, 0x30, 0x30, 0x30] ∧
      DecodesTo [0x30, 0x30, 0x30, 0x30, 0x30] [0, 0, 0, 0] ∧
      ∀ h d, HasHeader [0, 0, 0, 0] h d → ([0, 0, 0, 0] : List Byte).length < h + d) ∧
    HasInput (latched 3 [0x31, 0x37, 0x74, 0x55, 0x47]) [0x31, 0x37, 0x74, 0x55, 0x47] ∧
      DecodesTo [0x31, 0x37, 0x74, 0x55, 0x47] [0x03, 0x61, 0x62, 0x63] ∧ HasHeader [0x03, 0x61, 0x62, 0x63] 1 3 ∧
      fits (some 4) (5 / 5 * 4) = true :=
  ⟨by decide, by decide, ⟨⟨by decide, by decide⟩, by decide, groupFails_overflow⟩,
    ⟨⟨by decide, by decide⟩, ⟨by decide, by decide⟩, no_header_in_zeros⟩, ⟨by decide, by decide⟩, decodes_17tUG,
    header_3, by decide⟩

theorem witness_EndCodesOfEachCommand :
    (∃ t, exec .benc (latched 0 [1]) = .next t ∧ t.err ≠ .ok) ∧ (∃ t, exec .bdec (latched 1 []) = .next t) ∧
      (∃ t, exec .fenc (latched 2 []) = .next t) ∧ ∃ t, exec .fdec (latched 3 [1]) = .next t ∧ t.err ≠ .ok :=
  ⟨⟨_, rfl, by decide⟩, ⟨_, rfl⟩, ⟨_, rfl⟩, ⟨_, rfl, by decide⟩⟩

theorem witness_BlockKeepsWhatTheHostWrote :
    (∃ t, exec .sym01 (atCharacter 1 [0x31] 0 0) = .next t) ∧ ∃ t, blockStep false (latched 2 [1]) = .next t :=
  ⟨⟨_, rfl⟩, ⟨_, rfl⟩⟩

/-- Two states with different histories, the same input, and the same draw. -/
theorem witness_NothingCarriesOver :
    HasInput (latched 2 [1]) [1] ∧ HasInput { (latched 2 [1]) with err := .truncatedInput, out := [(3, 4)] } [1] ∧
      ∃ t, exec (selected 2) (latched 2 [1]) = .next t :=
  ⟨⟨by decide, by decide⟩, ⟨by decide, by decide⟩, _, rfl⟩

/-- An instruction, a whole operation, and single steps at a control decision and at a character. -/
theorem witness_LatchedOperandsAreUsed :
    (∃ t, exec .benc (latched 0 [1, 2, 3, 4]) = .next t) ∧ (∃ t, blockStep true (latched 2 [1]) = .next t) ∧
      (∃ t, blockStep false (latched 2 [1]) = .next t) ∧ ∃ t, blockStep false (atCharacter 1 [0x31] 0 0) = .next t :=
  ⟨⟨_, rfl⟩, ⟨_, rfl⟩, ⟨_, rfl⟩, ⟨_, rfl⟩⟩

theorem witness_ResetAtAnyTime : { (latched 2 [1]) with host := [.reset] }.host = .reset :: [] := rfl

/-- One step for each kind of transition. -/
theorem witness_PhaseTransitions :
    (∃ t, step (loaded 0 []) = .next t) ∧ (∃ t, step { (latched 0 []) with host := [.reset] } = .next t) ∧
      (∃ t, step { (loaded 0 []) with host := [.start] } = .next t ∧ t.phase = .busy) ∧
      ∃ t, step (latched 0 []) = .next t ∧ t.phase = .done :=
  ⟨⟨_, rfl⟩, ⟨_, rfl⟩, ⟨_, rfl, rfl⟩, ⟨_, rfl, rfl⟩⟩

/-- A `START` that is admitted and one whose input nobody has written. -/
theorem witness_StartLatchesAnAdmittedOperation :
    ((loaded 0 [1, 2, 3, 4]).phase ≠ .busy ∧
      ∃ t, exec (selected 0) (latch { (loaded 0 [1, 2, 3, 4]) with host := [] }) = .next t) ∧
    exec (selected 0) (latch { State.reset with ilen := 4, host := [] }) = .refused .unwrittenInput ∧
    ∃ t, step { (loaded 0 [1, 2, 3, 4]) with host := [.start] } = .next t :=
  ⟨⟨by decide, _, rfl⟩, rfl, ⟨_, rfl⟩⟩

/-- A `START` after `LOAD` is honoured on the bytes loaded. -/
theorem ready_after_load (op : BitVec 2) (bytes : List Byte) (h : bytes.length < 2 ^ 64) :
    ReadyWith (loaded op bytes) bytes := by
  have hn : (loaded op bytes).ilen.toNat = bytes.length := by
    simp only [loaded, BitVec.toNat_ofNat]
    omega
  refine ⟨(fun hb => nomatch hb), rfl, ?_⟩
  rw [hn]
  exact Memory.readCells_writeCells [] 0 bytes

theorem ready_loaded : ReadyWith (loaded 0 [1, 2, 3, 4]) [1, 2, 3, 4] := ready_after_load 0 _ (by decide)

theorem witness_UnboundedBuffersAdmitEveryStart :
    { (loaded 0 [1, 2, 3, 4]) with host := [.start] }.capIn = none ∧
      { (loaded 0 [1, 2, 3, 4]) with host := [.start] }.capOut = none ∧
      { (loaded 0 [1, 2, 3, 4]) with host := [.start] }.capT = none ∧
      ReadyWith { (loaded 0 [1, 2, 3, 4]) with host := [.start] } [1, 2, 3, 4] ∧
      { (loaded 0 [1, 2, 3, 4]) with host := [.start] }.host = .start :: [] :=
  ⟨rfl, rfl, rfl, ⟨by decide, by decide, by decide⟩, rfl⟩

/-- One cell above `CAP_IN`; one cell of `T` too few for each framed command; and unwritten cells, at lengths that pass
every length check, with just the store they need. -/
theorem witness_UnadmittedOperationsHaveNoStep :
    fits (some 3) (latched 0 [1, 2, 3, 4]).work.ilenl.toNat = false ∧
      ((4 : Len) ≠ 0 ∧ fits (some 7) (framedLength 4) = false) ∧
      ((10 : Len) ≠ 0 ∧ 10 % 5 = 0 ∧ fits (some 7) (10 / 5 * 4) = false) ∧
      (fits (some 24) (framedLength 20) = true ∧ fits (some 16) (20 / 5 * 4) = true) ∧
      ({ (latched 0 []) with work := { Work.reset with ilenl := 20 } }.inp.readCells 0 20 = none) ∧
      20 % 4 = 0 ∧ 20 % 5 = 0 ∧ fits (latched 0 []).capIn 20 = true := by decide

/-- Each command with one cell too few in `OUT`. -/
theorem witness_OutputBeyondTheCapacityIsRefused :
    (HasInput { (latched 0 [1, 2, 3, 4]) with capOut := some 4 } [1, 2, 3, 4] ∧ fits (some 4) (4 / 4 * 5) = false) ∧
    (DecodesTo [0x48, 0x65, 0x6C, 0x6C, 0x6F] [0x86, 0x4F, 0xD2, 0x6F] ∧ fits (some 3) 4 = false) ∧
    ((4 : Len) ≠ 0 ∧ fits (some 8) (framedLength 4) = true ∧ fits (some 9) (framedLength 4 / 4 * 5) = false) ∧
    (HasInput { (latched 3 [0x31, 0x37, 0x74, 0x55, 0x47]) with capOut := some 2 } [0x31, 0x37, 0x74, 0x55, 0x47] ∧
      DecodesTo [0x31, 0x37, 0x74, 0x55, 0x47] [0x03, 0x61, 0x62, 0x63] ∧ HasHeader [0x03, 0x61, 0x62, 0x63] 1 3 ∧
      fits (some 4) 4 = true ∧ fits (some 2) 3 = false) :=
  ⟨⟨⟨by decide, by decide⟩, by decide⟩, ⟨decodes_hello, by decide⟩, by decide, ⟨by decide, by decide⟩,
    decodes_17tUG, header_3, by decide, by decide⟩

theorem witness_StartWhileBusyIsIgnored :
    { (latched 0 []) with host := [.start] }.phase = .busy ∧
      { (latched 0 []) with host := [.start] }.host = .start :: [] := ⟨rfl, rfl⟩

/-- Both writes while an operation is running. -/
theorem witness_HostWritesOfOpAndIlen :
    { (latched 2 [1]) with host := [.writeOp 1] }.phase = .busy ∧
      { (latched 2 [1]) with host := [.writeOp 1] }.host = .writeOp 1 :: [] ∧
      { (latched 2 [1]) with host := [.writeIlen 9] }.host = .writeIlen 9 :: [] := by decide

/-- The last cell of the input and the first one above it. -/
theorem witness_HostWritesOfIn :
    (latched 0 [1, 2, 3, 4]).phase = .busy ∧ 3 < (latched 0 [1, 2, 3, 4]).work.ilenl.toNat ∧
      (latched 0 [1, 2, 3, 4]).work.ilenl.toNat ≤ 4 ∧ fits (latched 0 [1, 2, 3, 4]).capIn 5 = true ∧
      (loaded 0 []).phase ≠ .busy := by decide

/-- A machine with eight cells in each buffer, a result of `n` cells, and this turn to come. -/
def capped8 (n : Nat) (turn : HostTurn) : State :=
  { State.reset with
    phase := .done, olen := BitVec.ofNat 65 n, capIn := some 8, capOut := some 8, host := [turn] }

/-- For each clause the last index or length that exists, the first that does not, and one far beyond. -/
theorem witness_CellsOutsideTheCapacityDoNotExist :
    ((capped8 0 (.writeIn 8 0)).capIn = some 8 ∧ (capped8 0 (.writeIn 8 0)).host = [.writeIn 8 0] ∧ 8 ≤ 8 ∧
      8 ≤ 1000 ∧ 7 < 8 ∧ (capped8 0 (.writeIn 7 0)).phase ≠ .busy) ∧
    ((capped8 0 (.readOut 8)).capOut = some 8 ∧ (capped8 0 (.readOut 8)).host = [.readOut 8]) ∧
    ((capped8 9 .move).capIn = some 8 ∧ (capped8 9 .move).host = [.move] ∧ (capped8 9 .move).err = .ok ∧
      (capped8 9 .move).olen.toNat < 2 ^ 64 ∧ 8 < (capped8 9 .move).olen.toNat ∧
      (capped8 8 .move).olen.toNat ≤ 8) := by decide

theorem witness_LoadWritesTheInput :
    State.reset.phase ≠ .busy ∧ fits State.reset.capIn ([1, 2] : List Byte).length = true ∧
      ([1, 2] : List Byte).length < 2 ^ 64 := by decide

theorem delivers_doneWith (bytes : List Byte) (h : bytes.length < 2 ^ 65) : Delivers bytes (doneWith bytes) := by
  refine ⟨rfl, rfl, ?_, Memory.readCells_writeCells [] 0 bytes, fun a ha => ?_⟩
  · simp only [doneWith, BitVec.toNat_ofNat]
    omega
  · exact (read_delivered bytes a).trans (List.getElem?_eq_none ha)

/-- `PHASE` and `ERR` at every value, and a cell of `OUT` before there is a result. -/
theorem witness_CollectReadsTheResult_everywhere :
    ({ State.reset with host := [.readPhase] }.host = [.readPhase] ∧ State.reset.phase = .idle ∧
      (latched 0 []).phase = .busy ∧ (doneWith []).phase = .done) ∧
    ({ State.reset with host := [.readErr] }.host = [.readErr] ∧ (doneWith []).err = .ok ∧
      (raise .invalidLength State.reset).err = .invalidLength ∧
      (raise .encodingFailure State.reset).err = .encodingFailure ∧
      (raise .truncatedInput State.reset).err = .truncatedInput) ∧
    { State.reset with host := [.readOlen] }.host = [.readOlen] ∧
    { State.reset with host := [.readOut 0] }.host = [.readOut 0] ∧ fits State.reset.capOut 1 = true := by decide

theorem witness_CollectReadsTheResult :
    Delivers [7] { (doneWith [7]) with host := [.readOut 0] } ∧ ([7] : List Byte)[0]? = some 7 ∧
      fits (doneWith [7]).capOut 1 = true :=
  ⟨delivers_doneWith [7] (by decide), by decide, by decide⟩

/-- A `BDEC` inside its second group: the first four bytes are in `OUT`. -/
def insideGroup : State :=
  let s := latched 1 [0x48, 0x65, 0x6C, 0x6C, 0x6F, 0x57, 0x6F, 0x72, 0x6C, 0x64]
  { s with
    out := [(0, 0x86), (1, 0x4F), (2, 0xD2), (3, 0x6F)]
    work := { s.work with v := 58, gi := 1, k := 1, stage := .symbol } }

theorem inv_insideGroup : MachineInv insideGroup :=
  ⟨by decide, by decide, by decide, rfl, rfl, by decide, by decide, by decide, rfl, by decide⟩

theorem witness_ReadsWhileBusy :
    MachineInv { insideGroup with host := [.readErr] } ∧ { insideGroup with host := [.readErr] }.phase = .busy :=
  ⟨inv_insideGroup, rfl⟩

theorem witness_ResultLastsUntilTheNextStart :
    (doneWith [7]).phase = .done ∧ (doneWith [7]).host.head? ≠ some .start ∧ (doneWith [7]).host.head? ≠ some .reset ∧
      ∃ t, step (doneWith [7]) = .next t :=
  ⟨rfl, by decide, by decide, _, rfl⟩

theorem witness_NothingAdvancesBetweenOperations : (loaded 0 [1]).phase ≠ .busy ∧ (loaded 0 [1]).host = [] := by decide

theorem witness_MoveAndCut_legal :
    Delivers [7] { (doneWith [7]) with host := [.move] } ∧ ([7] : List Byte).length < 2 ^ 64 ∧
      fits (doneWith [7]).capIn ([7] : List Byte).length = true ∧ 4 ≤ (loaded 0 [1, 2, 3, 4]).ilen.toNat :=
  ⟨delivers_doneWith [7] (by decide), by decide, by decide, by decide⟩

/-- `MOVE` before the first operation, and while one is running. -/
theorem witness_MoveAndCut_of_nothing :
    ({ State.reset with host := [.move] }.host = [.move] ∧ State.reset.err = .ok ∧ State.reset.olen = 0 ∧
      State.reset.phase ≠ .done) ∧
    { insideGroup with host := [.move] }.host = [.move] ∧ insideGroup.err = .ok ∧ insideGroup.olen = 0 ∧
      insideGroup.phase = .busy := by decide

/-- A failed result, a length that does not fit 64 bits, and one cell more to cut than there are. -/
theorem witness_MoveAndCut_not_legal :
    (raise .truncatedInput State.reset).err ≠ .ok ∧
      2 ^ 64 ≤ { State.reset with olen := BitVec.ofNat 65 (2 ^ 64) }.olen.toNat ∧
      (loaded 0 [1, 2, 3, 4]).ilen.toNat < 5 := by decide

theorem witness_StepKeepsTheInvariant : MachineInv insideGroup ∧ ∃ t, step insideGroup = .next t :=
  ⟨inv_insideGroup, _, rfl⟩

theorem witness_StepKeepsMemoryCanonical :
    insideGroup.inp.wf = true ∧ insideGroup.out.wf = true ∧ insideGroup.t.wf = true ∧ ∃ t, step insideGroup = .next t :=
  ⟨by decide, by decide, by decide, _, rfl⟩

theorem witness_WordByWordRunEqualsTheWhole :
    (latched 2 [1]).phase = .busy ∧ (latched 2 [1]).work.stage = .command ∧ (latched 2 [1]).out = [] ∧
      (latched 2 [1]).t = [] ∧ ∃ t, exec (selected (latched 2 [1]).work.opl) (latched 2 [1]) = .next t :=
  ⟨rfl, rfl, rfl, rfl, _, rfl⟩

theorem witness_BaseRoundTrip_benc_first :
    ReadyWith (loaded 0 [1, 2, 3, 4]) [1, 2, 3, 4] ∧ ([1, 2, 3, 4] : List Byte).length % 4 = 0 ∧
      ([1, 2, 3, 4] : List Byte).length / 4 * 5 < 2 ^ 64 ∧ fits (loaded 0 [1, 2, 3, 4]).capOut 5 = true ∧
      fits (loaded 0 [1, 2, 3, 4]).capIn 5 = true :=
  ⟨ready_loaded, by decide, by decide, by decide, by decide⟩

theorem witness_BaseRoundTrip_bdec_first :
    ReadyWith (loaded 1 [0x48, 0x65, 0x6C, 0x6C, 0x6F]) [0x48, 0x65, 0x6C, 0x6C, 0x6F] ∧
      ([0x48, 0x65, 0x6C, 0x6C, 0x6F] : List Byte).length % 5 = 0 ∧
      DecodesTo [0x48, 0x65, 0x6C, 0x6C, 0x6F] [0x86, 0x4F, 0xD2, 0x6F] ∧
      fits (loaded 1 [0x48, 0x65, 0x6C, 0x6C, 0x6F]).capOut 5 = true :=
  ⟨⟨by decide, by decide, by decide⟩, by decide, decodes_hello, by decide⟩

/-- Exactly the room that the empty payload, one of four bytes and one of 256 bytes need. -/
theorem witness_FramedRoundTrip :
    (ReadyWith { (loaded 2 []) with capIn := some 0, capOut := some 0, capT := some 0 } [] ∧
      fits (some 0) (framedTextLength 0) = true ∧ fits (some 0) (framedTextLength 0 / 5 * 4) = true) ∧
    (ReadyWith { (loaded 0 [1, 2, 3, 4]) with capIn := some 10, capOut := some 10, capT := some 8 } [1, 2, 3, 4] ∧
      framedTextLength 4 < 2 ^ 64 ∧ fits (some 10) (framedTextLength 4) = true ∧
      fits (some 8) (framedTextLength 4 / 5 * 4) = true) ∧
    ∃ bytes : List Byte, ReadyWith (loaded 0 bytes) bytes ∧ 255 < bytes.length ∧
      framedTextLength bytes.length < 2 ^ 64 := by
  refine ⟨⟨⟨by decide, by decide, by decide⟩, by decide, by decide⟩,
    ⟨⟨by decide, by decide, by decide⟩, by decide, by decide, by decide⟩,
    List.replicate 256 7, ready_after_load 0 _ ?_, ?_, ?_⟩ <;>
  · rw [List.length_replicate]
    decide

/-- A payload of four bytes, and one of 256, whose header is long. -/
theorem witness_BdecShowsTheIntermediateBuffer :
    (ReadyWith (loaded 0 [1, 2, 3, 4]) [1, 2, 3, 4] ∧ (loaded 0 [1, 2, 3, 4]).ilen ≠ 0 ∧
      ([1, 2, 3, 4] : List Byte).length ≤ 255 ∧ fits (loaded 0 [1, 2, 3, 4]).capT (framedTextLength 4 / 5 * 4) = true) ∧
    ∃ bytes : List Byte, ReadyWith (loaded 0 bytes) bytes ∧ (loaded 0 bytes).ilen ≠ 0 ∧ 255 < bytes.length ∧
      framedTextLength bytes.length < 2 ^ 64 := by
  refine ⟨⟨ready_loaded, by decide, by decide, by decide⟩, List.replicate 256 7, ready_after_load 0 _ ?_, ?_, ?_, ?_⟩
  · rw [List.length_replicate]; decide
  · rw [loaded, List.length_replicate]; decide
  · rw [List.length_replicate]; decide
  · rw [List.length_replicate]; decide

end Sys2Proof.Tests
end

section
/-! SUPPORT. What each operation of the block can do, said once: the ends of a command, the control decisions and
the words of the sequencer, and the step of the running block made of them. -/

namespace Sys2Proof.Machine

/-! ## The rows of the opcode table by format -/

/-- A row is a command, a header or a character. -/
theorem instr_cases (i : Instr) :
    (∃ op, i = selected op) ∨ (∃ hi lo, i = .hdrLong hi lo) ∨ (∃ n, i = .hdrShort n) ∨
      ∃ d, i.digit? = some d := by
  cases i with
  | benc => exact .inl ⟨0, rfl⟩
  | bdec => exact .inl ⟨1, rfl⟩
  | fenc => exact .inl ⟨2, rfl⟩
  | fdec => exact .inl ⟨3, rfl⟩
  | hdrLong hi lo => exact .inr (.inl ⟨hi, lo, rfl⟩)
  | hdrShort n => exact .inr (.inr (.inl ⟨n, rfl⟩))
  | _ => exact .inr (.inr (.inr ⟨_, rfl⟩))

/-- The four values of `OP`. -/
theorem op_cases : ∀ op : BitVec 2, op = 0 ∨ op = 1 ∨ op = 2 ∨ op = 3 := by decide

/-! ## The ends of a command -/

/-- How a command ends: by an error, or by the delivery of an output that fits. -/
inductive CommandEnds (s : State) : State → Prop
  | error (e : ErrCode) (he : e ≠ .ok) : CommandEnds s (raise e s)
  | output (bytes : List Byte) (draws : Nat) (hlength : bytes.length < 2 ^ 65)
      (hfits : fits s.capOut bytes.length = true) :
      CommandEnds s (finished bytes.length { s with out := Memory.writeCells [] 0 bytes, draws := draws })

theorem commandEnds_of_deliver {bytes : List Byte} {s t : State} {d : Nat} (hl : bytes.length < 2 ^ 65)
    (h : deliver bytes { s with draws := d } = .next t) : CommandEnds s t := by
  obtain ⟨hf, rfl⟩ := (deliver_eq_next_iff _ _ _).mp h
  exact .output bytes d hl hf

theorem commandEnds_of_raise {e : ErrCode} {s t : State} (he : e ≠ .ok)
    (h : Host.Outcome.next (φ := Fault) (ρ := Refusal) (raise e s) = .next t) : CommandEnds s t := by
  cases h
  exact .error e he

/-- The cut payload is no longer than the buffer. -/
theorem length_le_of_unframe {buffer payload : List Byte} (h : unframe buffer = some payload) :
    payload.length ≤ buffer.length := by
  unfold unframe at h
  split at h
  · unfold strip at h
    split at h
    · cases h
    · cases h
      simp only [List.length_take, List.length_drop]
      omega
  · cases h

theorem length_of_decodeText {text bytes : List Byte} (hm : text.length % 5 = 0) (h : decodeText text = some bytes) :
    bytes.length = text.length / 5 * 4 :=
  ((decodeText_eq_some_iff text bytes hm).mp h).1

theorem execBenc_ends {s t : State} (h : execBenc s = .next t) : CommandEnds s t := by
  obtain ⟨-, h⟩ := (withCapacity_eq_next_iff _ _ _).mp h
  split at h
  · exact commandEnds_of_raise (by decide) h
  · obtain ⟨xs, hxs, h⟩ := (withInput_eq_next_iff _ _ _).mp h
    have hl := Memory.length_readCells _ _ _ _ hxs
    exact commandEnds_of_deliver (by rw [length_encodeText]; omega) h

theorem execBdec_ends {s t : State} (h : execBdec s = .next t) : CommandEnds s t := by
  obtain ⟨-, h⟩ := (withCapacity_eq_next_iff _ _ _).mp h
  split at h
  · exact commandEnds_of_raise (by decide) h
  · next hm =>
    obtain ⟨xs, hxs, h⟩ := (withInput_eq_next_iff _ _ _).mp h
    have hl := Memory.length_readCells _ _ _ _ hxs
    split at h
    · next bytes hb =>
      have hb := length_of_decodeText (by omega) hb
      exact commandEnds_of_deliver (by omega) h
    · exact commandEnds_of_raise (by decide) h

theorem execFenc_ends {s t : State} (h : execFenc s = .next t) : CommandEnds s t := by
  obtain ⟨-, h⟩ := (withCapacity_eq_next_iff _ _ _).mp h
  split at h
  · exact commandEnds_of_deliver (by simp) h
  · obtain ⟨-, h⟩ := (withStore_eq_next_iff _ _ _ _).mp h
    obtain ⟨xs, hxs, h⟩ := (withInput_eq_next_iff _ _ _).mp h
    have hl := length_assemble s.draws (Memory.length_readCells _ _ _ _ hxs)
    have hf := framedLength_eq s.work.ilenl
    rw [framedLength, ← hl] at hf
    refine commandEnds_of_deliver ?_ h
    rw [length_encodeText, hf]
    split <;> omega

theorem execFdec_ends {s t : State} (h : execFdec s = .next t) : CommandEnds s t := by
  obtain ⟨-, h⟩ := (withCapacity_eq_next_iff _ _ _).mp h
  split at h
  · exact commandEnds_of_deliver (by simp) h
  · split at h
    · exact commandEnds_of_raise (by decide) h
    · next hm =>
      obtain ⟨-, h⟩ := (withStore_eq_next_iff _ _ _ _).mp h
      obtain ⟨xs, hxs, h⟩ := (withInput_eq_next_iff _ _ _).mp h
      have hl := Memory.length_readCells _ _ _ _ hxs
      split at h
      · exact commandEnds_of_raise (by decide) h
      · next buffer hb =>
        have hb := length_of_decodeText (by omega) hb
        split at h
        · exact commandEnds_of_raise (by decide) h
        · next payload hp =>
          have hp := length_le_of_unframe hp
          exact commandEnds_of_deliver (by omega) h

theorem exec_selected_ends {op : BitVec 2} {s t : State} (h : exec (selected op) s = .next t) : CommandEnds s t := by
  obtain rfl | rfl | rfl | rfl := op_cases op
  · exact execBenc_ends h
  · exact execBdec_ends h
  · exact execFenc_ends h
  · exact execFdec_ends h

/-! ## The control decisions of the sequencer -/

/-- What command select, empty bypass and length check can come to (44_frame.md R182). -/
inductive BeginMove (s : State) : State → Prop
  | error (e : ErrCode) (he : e ≠ .ok) : BeginMove s (raise e s)
  | bypass : BeginMove s (finished 0 s)
  | framedDecode (hframed : framed s.work.opl = true) (hdecodes : decodes s.work.opl = true)
      (hne : s.work.ilenl ≠ 0) (hmod : s.work.ilenl.toNat % 5 = 0)
      (hstore : fits s.capT (s.work.ilenl.toNat / 5 * 4) = true) :
      BeginMove s
        (enterGroups { s with work := { s.work with tlen := BitVec.ofNat 65 (s.work.ilenl.toNat / 5 * 4) } })
  | framedEncode (hframed : framed s.work.opl = true) (hdecodes : decodes s.work.opl = false)
      (hne : s.work.ilenl ≠ 0) (hstore : fits s.capT (framedLength s.work.ilenl) = true) :
      BeginMove s { s with work := { s.work with dlen := s.work.ilenl, stage := .header } }
  | baseDecode (hframed : framed s.work.opl = false) (hdecodes : decodes s.work.opl = true)
      (hmod : s.work.ilenl.toNat % 5 = 0) : BeginMove s (enterGroups s)
  | baseEncode (hframed : framed s.work.opl = false) (hdecodes : decodes s.work.opl = false)
      (hmod : s.work.ilenl.toNat % 4 = 0) : BeginMove s (enterGroups s)

theorem beginOperation_moves {s t : State} (h : beginOperation s = .next t) : BeginMove s t := by
  obtain ⟨-, h⟩ := (withCapacity_eq_next_iff _ _ _).mp h
  simp only [Bool.and_eq_true, beq_iff_eq] at h
  split at h
  · obtain ⟨-, rfl⟩ := (finish_eq_next_iff _ _ _).mp h
    exact .bypass
  · next hz =>
    have hne : framed s.work.opl = true → s.work.ilenl ≠ 0 := fun hf h0 => hz ⟨hf, by rw [h0]; rfl⟩
    split at h
    · next hd =>
      split at h
      · cases h
        exact .error _ (by decide)
      · next hm =>
        split at h
        · next hf =>
          obtain ⟨hs, h⟩ := (withStore_eq_next_iff _ _ _ _).mp h
          cases h
          exact .framedDecode hf hd (hne hf) (by omega) hs
        · next hf =>
          cases h
          exact .baseDecode (by simpa using hf) hd (by omega)
    · next hd =>
      split at h
      · next hf =>
        obtain ⟨hs, h⟩ := (withStore_eq_next_iff _ _ _ _).mp h
        cases h
        exact .framedEncode hf (by simpa using hd) (hne hf) hs
      · next hf =>
        split at h
        · cases h
          exact .error _ (by decide)
        · next hm =>
          cases h
          exact .baseEncode (by simpa using hf) (by simpa using hd) (by omega)

/-- The truncation test and the slice are an end of the operation. -/
theorem stripStep_ends {s t : State} (h : stripStep s = .next t) : CommandEnds s t := by
  unfold stripStep at h
  simp only at h
  split at h
  · exact commandEnds_of_raise (by decide) h
  · split at h
    · next payload hp =>
      have hl := Memory.length_readCells _ _ _ _ hp
      obtain ⟨hf, rfl⟩ := (deliver_eq_next_iff _ _ _).mp h
      exact .output payload s.draws (by omega) hf
    · cases h

theorem loadGroup_cases {s t : State} (h : loadGroup s = .next t) :
    ∃ v, t = { s with work := { s.work with v := v, k := 0, stage := .symbol } } := by
  unfold loadGroup at h
  split at h
  · exact ⟨_, (Host.Outcome.next.inj h).symm⟩
  · split at h
    · exact ⟨_, (Host.Outcome.next.inj h).symm⟩
    · cases h

/-- What the end of the last group can come to: `FDEC` goes on to its header, the others have their whole output. -/
inductive GroupsEnd (s : State) : State → Prop
  | header (hdecodes : decodes s.work.opl = true) (hframed : framed s.work.opl = true) :
      GroupsEnd s { s with work := { s.work with stage := .header } }
  | decoded (hdecodes : decodes s.work.opl = true) (hframed : framed s.work.opl = false)
      (hfits : fits s.capOut (groupCount s * 4) = true) : GroupsEnd s (finished (groupCount s * 4) s)
  | encoded (hdecodes : decodes s.work.opl = false) (hfits : fits s.capOut (groupCount s * 5) = true) :
      GroupsEnd s (finished (groupCount s * 5) s)

theorem endGroups_moves {s t : State} (h : endGroups s = .next t) : GroupsEnd s t := by
  unfold endGroups at h
  split at h
  · next hd =>
    obtain ⟨hfits, rfl⟩ := (finish_eq_next_iff _ _ _).mp h
    exact .encoded (by simpa using hd) hfits
  · next hd =>
    have hd : decodes s.work.opl = true := by simpa using hd
    split at h
    · next hf =>
      cases h
      exact .header hd hf
    · next hf =>
      obtain ⟨hfits, rfl⟩ := (finish_eq_next_iff _ _ _).mp h
      exact .decoded hd (by simpa using hf) hfits

/-- The sequencer between two groups, one group further on. -/
def nextIndex (s : State) : State := { s with work := { s.work with gi := s.work.gi + 1, stage := .group } }

/-- What the end of a group can come to: the four bytes of a decoded group go to `T` or to `OUT`. -/
inductive GroupEnd (s : State) : State → Prop
  | error (e : ErrCode) (he : e ≠ .ok) : GroupEnd s (raise e s)
  | encoded (hdecodes : decodes s.work.opl = false) : GroupEnd s (nextIndex s)
  | toT (bytes : List Byte) (hlength : bytes.length = 4) (hdecodes : decodes s.work.opl = true)
      (hframed : framed s.work.opl = true) :
      GroupEnd s (nextIndex { s with t := s.t.writeCells (4 * s.work.gi.toNat) bytes })
  | toOut (bytes : List Byte) (hlength : bytes.length = 4) (hdecodes : decodes s.work.opl = true)
      (hframed : framed s.work.opl = false) :
      GroupEnd s (nextIndex (writeOutCells s (4 * s.work.gi.toNat) bytes))

theorem endGroup_moves {s t : State} (h : endGroup s = .next t) : GroupEnd s t := by
  unfold endGroup at h
  simp only at h
  split at h
  · next hd =>
    split at h
    · cases h
      exact .error _ (by decide)
    · split at h
      · next hf =>
        cases h
        exact .toT _ (length_unbe32 _) hd hf
      · next hf =>
        cases h
        exact .toOut _ (length_unbe32 _) hd (by simpa using hf)
  · next hd =>
    cases h
    exact .encoded (by simpa using hd)

/-! ## The words of the sequencer -/

/-- What a header word can come to: in the encode direction its bytes go to `T` and the pad comes next, in the decode
direction the strip comes next. -/
inductive HeaderMove (bytes : List Byte) (s : State) : State → Prop
  | error (e : ErrCode) (he : e ≠ .ok) (hdecodes : decodes s.work.opl = true) : HeaderMove bytes s (raise e s)
  | taken (hlen : BitVec 4) (dlen : Len) (hdecodes : decodes s.work.opl = true) :
      HeaderMove bytes s { s with work := { s.work with hlen := hlen, dlen := dlen, stage := .strip } }
  | put (hdecodes : decodes s.work.opl = false) :
      HeaderMove bytes s { s with
        t := s.t.writeCells 0 bytes
        work := { s.work with hlen := BitVec.ofNat 4 bytes.length, stage := .pad } }

theorem execHdrShort_moves {n : Byte} {s t : State} (h : execHdrShort n s = .next t) : HeaderMove [n] s t := by
  unfold execHdrShort at h
  split at h
  · next hd =>
    cases h
    exact .taken _ _ hd
  · next hd =>
    cases h
    exact .put (by simpa using hd)

theorem execHdrLong_moves {hi lo : BitVec 32} {s t : State} (h : execHdrLong hi lo s = .next t) :
    HeaderMove (0 :: (unbe32 hi ++ unbe32 lo)) s t := by
  unfold execHdrLong at h
  split at h
  · next hd =>
    split at h
    · cases h
      exact .error _ (by decide) hd
    · cases h
      exact .taken _ _ hd
  · next hd =>
    cases h
    exact .put (by simpa using hd)

/-! ## A step of the running block -/

/-- Bytes that are no word raise the error of their format. -/
theorem ofDecoded_error {e e' : ErrCode} {d : Decoded} (h : Fetch.ofDecoded e d = .error e') : e' = e := by
  cases d with
  | instr i rest => cases h
  | error x => cases h; rfl

theorem fetchHeader_error {s : State} {e : ErrCode} (h : fetchHeader s = .error e) : e ≠ .ok := by
  unfold fetchHeader at h
  split at h
  · split at h
    · rw [ofDecoded_error h]; decide
    · cases h
  · cases h

theorem fetchSymbol_error {s : State} {e : ErrCode} (h : fetchSymbol s = .error e) : e ≠ .ok := by
  unfold fetchSymbol at h
  split at h
  · split at h
    · rw [ofDecoded_error h]; decide
    · cases h
  · cases h

/-- What a step of the running block is, by the place of the sequencer: a word, an error of the data, or a control
decision (44_frame.md R182). -/
inductive BlockMove (whole : Bool) (s t : State) : Prop
  | command (hstage : s.work.stage = .command) (hwhole : whole = true)
      (hexec : exec (selected s.work.opl) s = .next t)
  | header (i : Instr) (hstage : s.work.stage = .header) (hfetch : fetchHeader s = .word i) (hexec : exec i s = .next t)
  | symbol (i : Instr) (hstage : s.work.stage = .symbol) (hk : s.work.k < 5) (hfetch : fetchSymbol s = .word i)
      (hexec : exec i s = .next t)
  | error (e : ErrCode) (he : e ≠ .ok) (heq : t = raise e s)
  | begin (hstage : s.work.stage = .command) (hctl : beginOperation s = .next t)
  | pad (hstage : s.work.stage = .pad) (hctl : padStep s = .next t)
  | strip (hstage : s.work.stage = .strip) (hctl : stripStep s = .next t)
  | group (hstage : s.work.stage = .group) (hctl : nextGroup s = .next t)
  | endGroup (hstage : s.work.stage = .symbol) (hk : ¬ s.work.k < 5) (hctl : endGroup s = .next t)

/-- What was fetched is run as a word, or raises its error. -/
theorem runFetched_cases {f : Fetch} {s t : State} (h : runFetched f s = .next t) :
    (∃ i, f = .word i ∧ exec i s = .next t) ∨ ∃ e, f = .error e ∧ t = raise e s := by
  cases f with
  | word i => exact .inl ⟨i, rfl, h⟩
  | error e => exact .inr ⟨e, rfl, (Host.Outcome.next.inj h).symm⟩
  | refuse r => cases h

theorem blockStep_moves {whole : Bool} {s t : State} (hp : s.phase = .busy) (h : blockStep whole s = .next t) :
    BlockMove whole s t := by
  rw [blockStep_of_busy whole hp, wordHere, controlHere] at h
  cases hs : s.work.stage <;> simp only [hs] at h
  case command =>
    cases whole with
    | true => exact .command hs rfl (by simpa [fetchCommand_eq, runFetched] using h)
    | false => exact .begin hs (by simpa using h)
  case header =>
    obtain ⟨i, hi, h⟩ | ⟨e, he, h⟩ := runFetched_cases h
    · exact .header i hs hi h
    · exact .error e (fetchHeader_error he) h
  case pad => exact .pad hs h
  case strip => exact .strip hs h
  case group => exact .group hs h
  case symbol =>
    by_cases hk : s.work.k < 5
    · rw [if_pos hk] at h
      obtain ⟨i, hi, h⟩ | ⟨e, he, h⟩ := runFetched_cases h
      · exact .symbol i hs hk hi h
      · exact .error e (fetchSymbol_error he) h
    · rw [if_neg hk] at h
      exact .endGroup hs hk h

end Sys2Proof.Machine
end

section
/-! SUPPORT. The frame of the block: what every instruction and every step of it keeps. -/

namespace Sys2Proof.Machine

/-- What every instruction and every step of the block keeps: the host's side, the canonical form of `OUT` and `T`; and
the only phase it goes to is `DONE` (10_state.md R21, R22, R24, R30; 60_exceptions.md R206). -/
structure BlockFrame (s t : State) : Prop where
  inputs : KeepsInputs s t
  phase : t.phase = s.phase ∨ t.phase = .done
  out_wf : s.out.wf = true → t.out.wf = true
  t_wf : s.t.wf = true → t.t.wf = true

theorem BlockFrame.refl (s : State) : BlockFrame s s :=
  ⟨⟨rfl, rfl, rfl, rfl, rfl, rfl, rfl, rfl⟩, .inl rfl, id, id⟩

theorem blockFrame_raise (e : ErrCode) (s : State) : BlockFrame s (raise e s) :=
  ⟨keepsInputs_raise e s, .inr rfl, fun _ => rfl, fun _ => rfl⟩

theorem blockFrame_finished (n : Nat) (s : State) : BlockFrame s (finished n s) :=
  ⟨keepsInputs_finished n s, .inr rfl, id, fun _ => rfl⟩

/-- The working registers and the draws are outside the frame. -/
theorem blockFrame_work (s : State) (w : Work) (d : Nat) : BlockFrame s { s with work := w, draws := d } :=
  ⟨⟨rfl, rfl, rfl, rfl, rfl, rfl, rfl, rfl⟩, .inl rfl, id, id⟩

theorem blockFrame_work_t (s : State) (w : Work) (d : Nat) {m : Memory} (hm : s.t.wf = true → m.wf = true) :
    BlockFrame s { s with work := w, draws := d, t := m } :=
  ⟨⟨rfl, rfl, rfl, rfl, rfl, rfl, rfl, rfl⟩, .inl rfl, id, hm⟩

theorem CommandEnds.frame {s t : State} (h : CommandEnds s t) : BlockFrame s t := by
  cases h with
  | error e he => exact blockFrame_raise e s
  | output bytes d _ _ =>
    exact ⟨⟨rfl, rfl, rfl, rfl, rfl, rfl, rfl, rfl⟩, .inr rfl, fun _ => Memory.writeCells_keeps_wf _ _ _ rfl,
      fun _ => rfl⟩

theorem BeginMove.frame {s t : State} (h : BeginMove s t) : BlockFrame s t := by
  cases h with
  | error e he => exact blockFrame_raise e s
  | bypass => exact blockFrame_finished 0 s
  | framedDecode | framedEncode | baseDecode | baseEncode => exact blockFrame_work s _ _

theorem GroupsEnd.frame {s t : State} (h : GroupsEnd s t) : BlockFrame s t := by
  cases h with
  | header => exact blockFrame_work s _ _
  | decoded | encoded => exact blockFrame_finished _ s

theorem HeaderMove.frame {bytes : List Byte} {s t : State} (h : HeaderMove bytes s t) : BlockFrame s t := by
  cases h with
  | error e => exact blockFrame_raise e s
  | taken => exact blockFrame_work s _ _
  | put => exact blockFrame_work_t s _ _ (Memory.writeCells_keeps_wf _ _ _)

theorem GroupEnd.frame {s t : State} (h : GroupEnd s t) : BlockFrame s t := by
  cases h with
  | error e => exact blockFrame_raise e s
  | encoded => exact blockFrame_work s _ _
  | toT => exact blockFrame_work_t s _ _ (Memory.writeCells_keeps_wf _ _ _)
  | toOut bytes =>
    refine ⟨by simp [KeepsInputs, nextIndex], .inl (by simp [nextIndex]), writeOutCells_keeps_wf _ _ _, ?_⟩
    simp [nextIndex]

theorem symbol_frame {d : Digit} {s t : State} (h : symbol d s = .next t) : BlockFrame s t := by
  cases hd : decodes s.work.opl with
  | true =>
    rw [symbol_of_decode d hd] at h
    cases h
    exact blockFrame_work s _ _
  | false =>
    rw [symbol_of_encode d hd] at h
    cases h
    exact ⟨keepsInputs_writeOut s _ _, .inl (by simp), writeOut_keeps_wf s _ _, by simp⟩

theorem padStep_frame {s t : State} (h : padStep s = .next t) : BlockFrame s t := by
  obtain ⟨xs, -, h⟩ := (withInput_eq_next_iff _ _ _).mp h
  cases h
  exact blockFrame_work_t s _ _ fun h => Memory.writeCells_keeps_wf _ _ _ (Memory.writeCells_keeps_wf _ _ _ h)

theorem nextGroup_frame {s t : State} (h : nextGroup s = .next t) : BlockFrame s t := by
  unfold nextGroup at h
  split at h
  · obtain ⟨v, rfl⟩ := loadGroup_cases h
    exact blockFrame_work s _ _
  · exact (endGroups_moves h).frame

theorem exec_frame {i : Instr} {s t : State} (h : exec i s = .next t) : BlockFrame s t := by
  obtain ⟨op, rfl⟩ | ⟨hi, lo, rfl⟩ | ⟨n, rfl⟩ | ⟨d, hd⟩ := instr_cases i
  · exact (exec_selected_ends h).frame
  · exact (execHdrLong_moves h).frame
  · exact (execHdrShort_moves h).frame
  · exact symbol_frame ((exec_of_digit s hd).symm.trans h)

theorem blockStep_frame {whole : Bool} {s t : State} (h : blockStep whole s = .next t) : BlockFrame s t := by
  by_cases hp : s.phase = .busy
  · cases blockStep_moves hp h with
    | command _ _ hx | header _ _ _ hx | symbol _ _ _ _ hx => exact exec_frame hx
    | error e _ heq => exact heq ▸ blockFrame_raise e s
    | begin _ hc => exact (beginOperation_moves hc).frame
    | pad _ hc => exact padStep_frame hc
    | strip _ hc => exact (stripStep_ends hc).frame
    | group _ hc => exact nextGroup_frame hc
    | endGroup _ _ hc => exact (endGroup_moves hc).frame
  · rw [blockStep_of_not_busy whole hp] at h
    cases h
    exact .refl s

/-! ## The turns of the host -/

/-- A `START` is ignored while `BUSY`; otherwise it latches, provided the operation has a step (10_state.md R23,
R40). -/
theorem hostStart_cases {s t : State} (h : hostStart s = .next t) :
    (s.phase = .busy ∧ t = s) ∨
      (s.phase ≠ .busy ∧ t = latch s ∧ ∃ u, exec (selected s.op) (latch s) = .next u) := by
  unfold hostStart at h
  split at h
  · next hp => exact .inl ⟨hp, (Host.Outcome.next.inj h).symm⟩
  · next hp =>
    rw [fetchCommand_eq] at h
    split at h
    · next u hu => exact .inr ⟨hp, (Host.Outcome.next.inj h).symm, u, hu⟩
    · cases h
    · cases h

theorem hostWriteIn_cases {a : Nat} {b : Byte} {s t : State} (h : hostWriteIn a b s = .next t) :
    fits s.capIn (a + 1) = true ∧ t = { s with inp := s.inp.write a b } := by
  unfold hostWriteIn at h
  split at h
  · cases h
  · next hf =>
    split at h
    · cases h
    · exact ⟨by simpa using hf, (Host.Outcome.next.inj h).symm⟩

theorem hostReadOut_cases {a : Nat} {s t : State} (h : hostReadOut a s = .next t) :
    t = { s with lastRead := some (.out a (outCell s a)), draws := s.draws + 1 } := by
  unfold hostReadOut at h
  split at h
  · cases h
  · exact (Host.Outcome.next.inj h).symm

/-- `MOVE` writes the cells `0 .. OLEN` of `IN`, all within `CAP_IN`. -/
theorem hostMove_cases {s t : State} (h : hostMove s = .next t) :
    ∃ bytes : List Byte, bytes.length = s.olen.toNat ∧ fits s.capIn bytes.length = true ∧
      t = { s with inp := s.inp.writeCells 0 bytes, ilen := s.olen.setWidth 64, draws := s.draws + 1 } := by
  unfold hostMove at h
  split at h
  · split at h
    · cases h
    · next hf => exact ⟨_, by simp, by simpa using hf, (Host.Outcome.next.inj h).symm⟩
  · cases h

theorem hostCut_cases {k : Nat} {s t : State} (h : hostCut k s = .next t) :
    ∃ n d, t = { s with ilen := n, draws := d } := by
  unfold hostCut at h
  split at h <;> exact ⟨_, _, (Host.Outcome.next.inj h).symm⟩

/-- What one turn of the schedule can come to: a register of the host's, cells of `IN` within `CAP_IN`, an honoured
`START`, a reset, or a step of the block. -/
inductive TurnMove (turn : HostTurn) (s : State) : State → Prop
  | host (op : BitVec 2) (n : Len) (d : Nat) (r : Option HostRead) :
      TurnMove turn s { s with op := op, ilen := n, draws := d, lastRead := r }
  | input (a : Nat) (bytes : List Byte) (n : Len) (d : Nat) (hfits : fits s.capIn (a + bytes.length) = true) :
      TurnMove turn s { s with inp := s.inp.writeCells a bytes, ilen := n, draws := d }
  | start (hturn : turn = .start) (hphase : s.phase ≠ .busy) : TurnMove turn s (latch s)
  | reset (hturn : turn = .reset) : TurnMove turn s (hostReset s)
  | block (whole : Bool) (t : State) (hturn : turn = .wait ∨ turn = .pass) (hstep : blockStep whole s = .next t) :
      TurnMove turn s t

theorem takeTurn_moves {turn : HostTurn} {s t : State} (h : takeTurn turn s = .next t) : TurnMove turn s t := by
  cases turn with
  | writeOp | writeIlen | readPhase | readErr | readOlen =>
    cases h
    exact .host _ _ _ _
  | writeIn a b =>
    obtain ⟨hf, rfl⟩ := hostWriteIn_cases h
    exact .input a [b] _ _ hf
  | start =>
    obtain ⟨-, rfl⟩ | ⟨hp, rfl, -⟩ := hostStart_cases h
    · exact .host _ _ _ _
    · exact .start rfl hp
  | reset =>
    cases h
    exact .reset rfl
  | readOut a =>
    obtain rfl := hostReadOut_cases h
    exact .host _ _ _ _
  | move =>
    obtain ⟨bytes, -, hf, rfl⟩ := hostMove_cases h
    exact .input 0 bytes _ _ (by simpa using hf)
  | cut k =>
    obtain ⟨n, d, rfl⟩ := hostCut_cases h
    exact .host _ _ _ _
  | wait => exact .block true t (.inl rfl) h
  | pass => exact .block false t (.inr rfl) h

/-- Settles O55: the block keeps the canonical form (`blockStep_frame`), and the host writes `IN` cell by cell. -/
theorem stepKeepsMemoryCanonical : Obligations.StepKeepsMemoryCanonical := by
  intro s t hin hout ht hstep
  obtain ⟨-, hb⟩ | ⟨turn, turns, -, hturn⟩ := step_next_cases hstep
  · have hf := blockStep_frame hb
    obtain ⟨-, -, hinp, -⟩ := hf.inputs
    exact ⟨hinp ▸ hin, hf.out_wf hout, hf.t_wf ht⟩
  · cases takeTurn_moves hturn with
    | host => exact ⟨hin, hout, ht⟩
    | input a bytes => exact ⟨Memory.writeCells_keeps_wf _ _ _ hin, hout, ht⟩
    | start => exact ⟨hin, rfl, rfl⟩
    | reset => exact ⟨rfl, rfl, rfl⟩
    | block whole _ _ hb =>
      have hf := blockStep_frame hb
      obtain ⟨-, -, hinp, -⟩ := hf.inputs
      exact ⟨hinp ▸ hin, hf.out_wf hout, hf.t_wf ht⟩

/-- Settles O34, by the frame of every instruction and of every step of the block. -/
theorem blockKeepsWhatTheHostWrote : Obligations.BlockKeepsWhatTheHostWrote :=
  ⟨fun _ _ _ h => (exec_frame h).inputs, fun _ _ _ h => (blockStep_frame h).inputs⟩

/-- Only a running operation moves the phase, and only to `DONE`. -/
theorem blockStep_phase {whole : Bool} {s t : State} (h : blockStep whole s = .next t) :
    t.phase = s.phase ∨ (t.phase = .done ∧ s.phase = .busy) := by
  by_cases hp : s.phase = .busy
  · exact (blockStep_frame h).phase.imp_right fun hd => ⟨hd, hp⟩
  · rw [blockStep_of_not_busy whole hp] at h
    cases h
    exact .inl rfl

/-- Settles O39, by the kinds of turn: only an honoured `START`, a reset and the block move the phase. -/
theorem phaseTransitions : Obligations.PhaseTransitions := by
  intro s t hstep
  obtain ⟨hs, hb⟩ | ⟨turn, turns, hs, hturn⟩ := step_next_cases hstep
  · exact (blockStep_phase hb).imp_right fun ⟨hd, hp⟩ => .inr (.inr ⟨hd, hp, .inl (by simp [hs])⟩)
  · have hhead : s.host.head? = some turn := by simp [hs]
    cases takeTurn_moves hturn with
    | host | input => exact .inl rfl
    | start ht hp => exact .inr (.inr (.inl ⟨rfl, hp, ht ▸ hhead⟩))
    | reset ht => exact .inr (.inl ⟨rfl, ht ▸ hhead⟩)
    | block whole _ ht hb =>
      refine (blockStep_phase hb).imp_right fun ⟨hd, hp⟩ => .inr (.inr ⟨hd, hp, .inr ?_⟩)
      rw [hhead]
      exact ht.imp (congrArg some) (congrArg some)

end Sys2Proof.Machine
end

section
/-! SUPPORT. The invariant of the machine is kept by every step. -/

namespace Sys2Proof.Machine

/-! ## Buffers filled from index 0 on -/

/-- A write above every listed index comes last. -/
theorem write_eq_append {m : Memory} {a : Nat} (b : Byte) (h : ∀ c ∈ m, c.1 < a) : m.write a b = m ++ [(a, b)] := by
  induction m with
  | nil => rfl
  | cons c r ih =>
    have hc := h c List.mem_cons_self
    rw [Memory.write, if_neg (by omega), if_neg (by omega), ih fun d hd => h d (List.mem_cons_of_mem _ hd)]
    rfl

theorem lt_of_covers {m : Memory} {n : Nat} (h : Covers m n) : ∀ c ∈ m, c.1 < n := fun _ hc =>
  List.mem_range.mp (h ▸ List.mem_map_of_mem (f := Prod.fst) hc)

theorem covers_nil : Covers [] 0 := rfl

theorem covers_write {m : Memory} {n : Nat} (b : Byte) (h : Covers m n) : Covers (m.write n b) (n + 1) := by
  rw [write_eq_append b (lt_of_covers h), Covers, List.map_append, h, List.range_succ]
  rfl

theorem covers_writeCells {m : Memory} {n : Nat} (bytes : List Byte) (h : Covers m n) :
    Covers (m.writeCells n bytes) (n + bytes.length) := by
  induction bytes generalizing m n with
  | nil => exact h
  | cons b bs ih =>
    have hb := ih (covers_write b h)
    rwa [Nat.add_right_comm, Nat.add_assoc] at hb

theorem fits_of_covers {m : Memory} {n : Nat} {cap : Option Nat} (h : Covers m n) (hn : fits cap n = true) :
    ∀ c ∈ m, fits cap (c.1 + 1) = true :=
  fun c hc => fits_mono hn (lt_of_covers h c hc)

@[simp] theorem capped_zero (cap : Option Nat) : capped cap 0 = 0 := by
  cases cap <;> simp [capped]

theorem capped_of_fits {cap : Option Nat} {n : Nat} (h : fits cap n = true) : capped cap n = n := by
  cases cap with
  | none => rfl
  | some c => exact Nat.min_eq_left ((fits_some c n).mp h)

/-- Past the capacity a further cell makes no difference. -/
theorem capped_succ_of_not_fits {cap : Option Nat} {n : Nat} (h : fits cap (n + 1) = false) :
    capped cap (n + 1) = capped cap n := by
  cases cap with
  | none => simp at h
  | some c =>
    simp only [fits, decide_eq_false_iff_not] at h
    simp only [capped]
    omega

/-- A block write of the next cell of `OUT`, within the capacity or past it. -/
theorem covers_writeOut {s : State} {n : Nat} (b : Byte) (h : Covers s.out (capped s.capOut n)) :
    Covers (writeOut s n b).out (capped s.capOut (n + 1)) := by
  rw [writeOut_out]
  split
  · next hf =>
    rw [capped_of_fits (fits_mono hf (Nat.le_succ n))] at h
    rw [capped_of_fits hf]
    exact covers_write b h
  · next hf => rwa [capped_succ_of_not_fits (by simpa using hf)]

theorem covers_writeOutCells {s : State} {n : Nat} (bytes : List Byte) (h : Covers s.out (capped s.capOut n)) :
    Covers (writeOutCells s n bytes).out (capped s.capOut (n + bytes.length)) := by
  induction bytes generalizing s n with
  | nil => exact h
  | cons b bs ih =>
    have hb := ih (s := writeOut s n b) (by rw [writeOut_capOut]; exact covers_writeOut b h)
    rwa [writeOut_capOut, Nat.add_right_comm, Nat.add_assoc] at hb

/-! ## The block's part of the invariant -/

/-- What `MachineInv` asks of the block: `T` within its store, and the promise of the phase. -/
def BlockInv (s : State) : Prop := (∀ c ∈ s.t, fits s.capT (c.1 + 1) = true) ∧ PhaseInv s

/-- A running block that has neither an error nor an output length yet. -/
def Running (s : State) : Prop := s.phase = .busy ∧ s.err = .ok ∧ s.olen = 0

theorem blockInv_of_running {s : State} (hr : Running s) (ht : ∀ c ∈ s.t, fits s.capT (c.1 + 1) = true)
    (hstage : StageInv s) : BlockInv s := by
  obtain ⟨hp, he, ho⟩ := hr
  exact ⟨ht, by simp only [PhaseInv, hp]; exact ⟨he, ho, hstage⟩⟩

theorem phaseInv_of_busy {s : State} (hp : s.phase = .busy) (h : PhaseInv s) : Running s ∧ StageInv s := by
  simp only [PhaseInv, hp] at h
  obtain ⟨he, ho, hstage⟩ := h
  exact ⟨⟨hp, he, ho⟩, hstage⟩

theorem blockInv_raise {e : ErrCode} (s : State) (he : e ≠ .ok) : BlockInv (raise e s) :=
  ⟨by simp, by simp [PhaseInv, he]⟩

/-- A successful end whose output is in `OUT`. -/
theorem blockInv_finished {s : State} {n : Nat} (hn : n < 2 ^ 65) (hout : Covers s.out n)
    (hfits : fits s.capOut n = true) : BlockInv (finished n s) := by
  have hl : (BitVec.ofNat 65 n).toNat = n := by rw [BitVec.toNat_ofNat, Nat.mod_eq_of_lt hn]
  refine ⟨by simp, ?_⟩
  simp only [PhaseInv, finished_phase, finished_t, finished_err, finished_out, finished_olen, finished_capOut, hl]
  exact ⟨trivial, hout, hfits⟩

theorem CommandEnds.blockInv {s t : State} (h : CommandEnds s t) : BlockInv t := by
  cases h with
  | error e he => exact blockInv_raise s he
  | output bytes d hl hf =>
    have hc := covers_writeCells bytes covers_nil
    rw [Nat.zero_add] at hc
    exact blockInv_finished hl hc hf

/-! ## The invariant of each place of the sequencer -/

section Stages

variable {s : State}

theorem stageInv_command (hs : s.work.stage = .command) : StageInv s ↔ s.out = [] ∧ s.t = [] := by
  simp only [StageInv, hs]

theorem stageInv_header_decode (hs : s.work.stage = .header) (hd : decodes s.work.opl = true) :
    StageInv s ↔ framed s.work.opl = true ∧ s.work.ilenl ≠ 0 ∧ s.out = [] ∧ s.work.ilenl.toNat % 5 = 0 ∧
      s.work.tlen.toNat = s.work.ilenl.toNat / 5 * 4 ∧ Covers s.t s.work.tlen.toNat := by
  simp only [StageInv, hs, hd, if_true]

theorem stageInv_header_encode (hs : s.work.stage = .header) (hd : decodes s.work.opl = false) :
    StageInv s ↔ framed s.work.opl = true ∧ s.work.ilenl ≠ 0 ∧ s.out = [] ∧ s.work.dlen = s.work.ilenl ∧
      s.t = [] ∧ fits s.capT (framedLength s.work.ilenl) = true := by
  simp only [StageInv, hs, hd, Bool.false_eq_true, if_false]

theorem stageInv_pad (hs : s.work.stage = .pad) :
    StageInv s ↔ s.work.opl = 2 ∧ s.work.ilenl ≠ 0 ∧ s.work.dlen = s.work.ilenl ∧
      s.work.hlen.toNat = (hdrenc s.work.ilenl).length ∧ Covers s.t s.work.hlen.toNat ∧ s.out = [] ∧
      fits s.capT (framedLength s.work.ilenl) = true := by
  simp only [StageInv, hs]

theorem stageInv_strip (hs : s.work.stage = .strip) :
    StageInv s ↔ s.work.opl = 3 ∧ Covers s.t s.work.tlen.toNat ∧ s.out = [] := by
  simp only [StageInv, hs]

theorem stageInv_group (hs : s.work.stage = .group) :
    StageInv s ↔ s.work.gi.toNat ≤ groupCount s ∧ GroupsInv s 0 := by
  simp only [StageInv, hs]

theorem stageInv_symbol (hs : s.work.stage = .symbol) :
    StageInv s ↔ s.work.gi.toNat < groupCount s ∧ s.work.k ≤ 5 ∧ GroupsInv s s.work.k := by
  simp only [StageInv, hs]

theorem groupsInv_fdec {n : Nat} (hd : decodes s.work.opl = true) (hf : framed s.work.opl = true) :
    GroupsInv s n ↔ s.work.ilenl.toNat % 5 = 0 ∧ s.work.ilenl ≠ 0 ∧
      s.work.tlen.toNat = s.work.ilenl.toNat / 5 * 4 ∧ Covers s.t (4 * s.work.gi.toNat) ∧ s.out = [] ∧
      fits s.capT s.work.tlen.toNat = true := by
  simp only [GroupsInv, hd, hf, if_true]

theorem groupsInv_bdec {n : Nat} (hd : decodes s.work.opl = true) (hf : framed s.work.opl = false) :
    GroupsInv s n ↔ s.work.ilenl.toNat % 5 = 0 ∧ s.t = [] ∧
      Covers s.out (capped s.capOut (4 * s.work.gi.toNat)) := by
  simp only [GroupsInv, hd, hf, if_true, Bool.false_eq_true, if_false]

theorem groupsInv_fenc {n : Nat} (hd : decodes s.work.opl = false) (hf : framed s.work.opl = true) :
    GroupsInv s n ↔ Covers s.out (capped s.capOut (5 * s.work.gi.toNat + n)) ∧ s.work.ilenl ≠ 0 ∧
      s.work.tlen.toNat = framedLength s.work.ilenl ∧ Covers s.t s.work.tlen.toNat := by
  simp only [GroupsInv, hd, hf, if_true, Bool.false_eq_true, if_false]

theorem groupsInv_benc {n : Nat} (hd : decodes s.work.opl = false) (hf : framed s.work.opl = false) :
    GroupsInv s n ↔ Covers s.out (capped s.capOut (5 * s.work.gi.toNat + n)) ∧
      s.work.ilenl.toNat % 4 = 0 ∧ s.t = [] := by
  simp only [GroupsInv, hd, hf, Bool.false_eq_true, if_false]

theorem groupCount_decode (hd : decodes s.work.opl = true) : groupCount s = s.work.ilenl.toNat / 5 := by
  simp only [groupCount, hd, if_true]

theorem groupCount_encode (hd : decodes s.work.opl = false) :
    groupCount s = (if framed s.work.opl then s.work.tlen.toNat else s.work.ilenl.toNat) / 4 := by
  cases hf : framed s.work.opl <;> simp [groupCount, hd, hf]

/-- The number of groups leaves `GI` and `OLEN` room. -/
theorem groupCount_lt {n : Nat} (h : GroupsInv s n) : groupCount s < 2 ^ 62 + 3 := by
  cases hd : decodes s.work.opl with
  | true => rw [groupCount_decode hd]; omega
  | false =>
    rw [groupCount_encode hd]
    cases hf : framed s.work.opl with
    | true =>
      obtain ⟨-, -, ht, -⟩ := (groupsInv_fenc hd hf).mp h
      have hfl := framedLength_eq s.work.ilenl
      rw [if_pos rfl, ht]
      split at hfl <;> omega
    | false => rw [if_neg (by simp)]; omega

/-- What `OUT` holds in the encode direction, framed or not. -/
theorem covers_of_encode {n : Nat} (hd : decodes s.work.opl = false) (h : GroupsInv s n) :
    Covers s.out (capped s.capOut (5 * s.work.gi.toNat + n)) := by
  cases hf : framed s.work.opl with
  | true => exact ((groupsInv_fenc hd hf).mp h).1
  | false => exact ((groupsInv_benc hd hf).mp h).1

end Stages

theorem eq_three_of_framed_decodes : ∀ op : BitVec 2, framed op = true → decodes op = true → op = 3 := by decide

theorem eq_two_of_framed_encodes : ∀ op : BitVec 2, framed op = true → decodes op = false → op = 2 := by decide

end Sys2Proof.Machine
end

section
/-! SUPPORT. Each move of the block keeps the block's part of the invariant. -/

namespace Sys2Proof.Machine

/-! ## Which words the sequencer meets -/

theorem word_of_ofDecoded {e : ErrCode} {d : Decoded} {i : Instr} (h : Fetch.ofDecoded e d = .word i) :
    d.toOption = some i := by
  cases d with
  | instr j rest => cases h; rfl
  | error x => cases h

/-- The format of a header has two rows. -/
theorem header_of_decode {bytes : List Byte} {i : Instr} (h : (decode .hdr bytes).toOption = some i) :
    (∃ hi lo, i = .hdrLong hi lo) ∨ ∃ n, i = .hdrShort n := by
  cases bytes with
  | nil => cases h
  | cons b r =>
    simp only [decode, decodeHdr] at h
    split at h
    · split at h
      · cases h
        exact .inl ⟨_, _, rfl⟩
      · cases h
    · cases h
      exact .inr ⟨_, rfl⟩

/-- `FENC` writes the header of its length; what `FDEC` reads is some header. -/
theorem header_moves {i : Instr} {s t : State} (hi : fetchHeader s = .word i) (h : exec i s = .next t) :
    ∃ bytes, HeaderMove bytes s t ∧ (decodes s.work.opl = false → bytes = hdrenc s.work.ilenl) := by
  unfold fetchHeader at hi
  split at hi
  · next hd =>
    have hno : ∀ bytes, decodes s.work.opl = false → bytes = hdrenc s.work.ilenl := by simp [hd]
    split at hi
    · obtain ⟨hi', lo, rfl⟩ | ⟨n, rfl⟩ := header_of_decode (word_of_ofDecoded hi)
      · exact ⟨_, execHdrLong_moves h, hno _⟩
      · exact ⟨_, execHdrShort_moves h, hno _⟩
    · cases hi
  · cases hi
    unfold headerOf at h
    split at h
    · next hn => exact ⟨_, execHdrShort_moves h, fun _ => by rw [hdrenc, if_pos hn]⟩
    · next hn => exact ⟨_, execHdrLong_moves h, fun _ => by rw [hdrenc, if_neg hn]⟩

theorem digit?_sym : ∀ d : Digit, (Instr.sym d).digit? = some d := by decide

/-- Where a character is next, the word is a row of format `SYM`. -/
theorem symbol_of_fetch {i : Instr} {s t : State} (hi : fetchSymbol s = .word i) (h : exec i s = .next t) :
    ∃ d, symbol d s = .next t := by
  have hsym : ∀ d, i = .sym d → symbol d s = .next t := fun d hd => by
    rw [← exec_of_digit s (digit?_sym d), ← hd, h]
  unfold fetchSymbol at hi
  split at hi
  · split at hi
    · next c _ =>
      simp only [decode, decodeSym] at hi
      split at hi
      · next d _ => exact ⟨d, hsym d (by cases hi; rfl)⟩
      · cases hi
    · cases hi
  · exact ⟨_, hsym _ (by cases hi; rfl)⟩

/-! ## The moves -/

/-- Before the first group no group is done, and there may be none. -/
theorem stageInv_enterGroups {s : State} (h : GroupsInv (enterGroups s) 0) : StageInv (enterGroups s) :=
  (stageInv_group rfl).mpr ⟨Nat.zero_le _, h⟩

/-- A block write changes nothing but `OUT`. -/
theorem writeOut_eq (s : State) (a : Nat) (b : Byte) : writeOut s a b = { s with out := (writeOut s a b).out } := by
  unfold writeOut
  split <;> rfl

theorem writeOutCells_eq (s : State) (a : Nat) (bs : List Byte) :
    writeOutCells s a bs = { s with out := (writeOutCells s a bs).out } := by
  induction bs generalizing s a with
  | nil => rfl
  | cons b bs ih => rw [writeOutCells, ih, writeOut_eq]

/-- In the encode direction only `OUT` follows the characters; the rest of the promise stays. -/
theorem groupsInv_of_encode {s u : State} {m n : Nat} (hd : decodes s.work.opl = false) (h : GroupsInv s m)
    (hopl : u.work.opl = s.work.opl) (hilenl : u.work.ilenl = s.work.ilenl) (htlen : u.work.tlen = s.work.tlen)
    (ht : u.t = s.t) (hcov : Covers u.out (capped u.capOut (5 * u.work.gi.toNat + n))) : GroupsInv u n := by
  cases hf : framed s.work.opl with
  | true =>
    obtain ⟨-, hne, hl, hc⟩ := (groupsInv_fenc hd hf).mp h
    exact (groupsInv_fenc (hopl ▸ hd) (hopl ▸ hf)).mpr ⟨hcov, hilenl ▸ hne, by rw [htlen, hl, hilenl],
      by rwa [ht, htlen]⟩
  | false =>
    obtain ⟨-, hm, hz⟩ := (groupsInv_benc hd hf).mp h
    exact (groupsInv_benc (hopl ▸ hd) (hopl ▸ hf)).mpr ⟨hcov, hilenl ▸ hm, ht ▸ hz⟩

section Moves

variable {s t : State} (hr : Running s) (hstore : ∀ c ∈ s.t, fits s.capT (c.1 + 1) = true)
include hr hstore

theorem BeginMove.blockInv (hs : s.out = [] ∧ s.t = []) (h : BeginMove s t) : BlockInv t := by
  obtain ⟨hout, ht⟩ := hs
  have hcout : ∀ n, n = 0 → Covers s.out (capped s.capOut n) := fun n hn => by rw [hn, capped_zero, hout]; rfl
  cases h with
  | error e he => exact blockInv_raise s he
  | bypass => exact blockInv_finished (by decide) (by rw [hout]; rfl) (by cases s.capOut <;> simp)
  | framedDecode hf hd hne hm hst =>
    have hl : (BitVec.ofNat 65 (s.work.ilenl.toNat / 5 * 4)).toNat = s.work.ilenl.toNat / 5 * 4 := by
      rw [BitVec.toNat_ofNat]; omega
    refine blockInv_of_running hr hstore (stageInv_enterGroups (Iff.mpr (groupsInv_fdec hd hf) ?_))
    exact ⟨hm, hne, hl, by rw [enterGroups_t, ht]; rfl, hout, (congrArg (fits s.capT) hl).trans hst⟩
  | framedEncode hf hd hne hst =>
    exact blockInv_of_running hr hstore (Iff.mpr (stageInv_header_encode rfl hd) ⟨hf, hne, hout, rfl, ht, hst⟩)
  | baseDecode hf hd hm =>
    refine blockInv_of_running hr hstore (stageInv_enterGroups (Iff.mpr (groupsInv_bdec hd hf) ?_))
    exact ⟨hm, ht, hcout _ rfl⟩
  | baseEncode hf hd hm =>
    refine blockInv_of_running hr hstore (stageInv_enterGroups (Iff.mpr (groupsInv_benc hd hf) ?_))
    exact ⟨hcout _ rfl, hm, ht⟩

theorem HeaderMove.blockInv {bytes : List Byte} (hs : s.work.stage = .header) (hinv : StageInv s)
    (hbytes : decodes s.work.opl = false → bytes = hdrenc s.work.ilenl) (h : HeaderMove bytes s t) : BlockInv t := by
  cases h with
  | error e he => exact blockInv_raise s he
  | taken hlen dlen hd =>
    obtain ⟨hf, -, hout, -, -, hcov⟩ := (stageInv_header_decode hs hd).mp hinv
    exact blockInv_of_running hr hstore
      (Iff.mpr (stageInv_strip rfl) ⟨eq_three_of_framed_decodes _ hf hd, hcov, hout⟩)
  | put hd =>
    obtain ⟨hf, hne, hout, hdlen, ht, hst⟩ := (stageInv_header_encode hs hd).mp hinv
    obtain rfl := hbytes hd
    have hcov := covers_writeCells (hdrenc s.work.ilenl) (covers_nil)
    rw [Nat.zero_add, ← ht] at hcov
    have hl : (BitVec.ofNat 4 (hdrenc s.work.ilenl).length).toNat = (hdrenc s.work.ilenl).length := by
      rw [length_hdrenc]; split <;> rfl
    have hfit : fits s.capT (hdrenc s.work.ilenl).length = true :=
      fits_mono hst (by simp only [framedLength]; omega)
    refine blockInv_of_running hr (fits_of_covers hcov hfit) (Iff.mpr (stageInv_pad rfl) ?_)
    exact ⟨eq_two_of_framed_encodes _ hf hd, hne, hdlen, hl, hl.symm ▸ hcov, hout, hst⟩

omit hstore in
theorem padStep_blockInv (hs : s.work.stage = .pad) (hinv : StageInv s) (h : padStep s = .next t) : BlockInv t := by
  obtain ⟨hop, hne, hdlen, hhlen, hcov, hout, hst⟩ := (stageInv_pad hs).mp hinv
  obtain ⟨xs, hxs, h⟩ := (withInput_eq_next_iff _ _ _).mp h
  cases h
  have hd : decodes s.work.opl = false := hop ▸ rfl
  have hf : framed s.work.opl = true := hop ▸ rfl
  have hxl := Memory.length_readCells _ _ _ _ hxs
  have htl : s.work.hlen.toNat + s.work.dlen.toNat + padcalc (s.work.hlen.toNat + s.work.dlen.toNat) =
      framedLength s.work.ilenl := by rw [hhlen, hdlen]; rfl
  have hpay := covers_writeCells xs hcov
  rw [hxl, ← hdlen] at hpay
  have hpad := covers_writeCells (padBytes s.draws (padcalc (s.work.hlen.toNat + s.work.dlen.toNat))) hpay
  rw [length_padBytes, htl] at hpad
  have hlt : framedLength s.work.ilenl < 2 ^ 65 := by rw [framedLength_eq]; split <;> omega
  have hl : (BitVec.ofNat 65 (framedLength s.work.ilenl)).toNat = framedLength s.work.ilenl := by
    rw [BitVec.toNat_ofNat, Nat.mod_eq_of_lt hlt]
  simp only [htl]
  refine blockInv_of_running hr (fits_of_covers hpad hst) (stageInv_enterGroups ?_)
  refine Iff.mpr (groupsInv_fenc hd hf) ⟨?_, hne, hl, hl.symm ▸ hpad⟩
  show Covers s.out (capped s.capOut 0)
  rw [capped_zero, hout]
  rfl

/-- The next group begins, with none of its characters processed. -/
theorem loadGroup_blockInv (hinv : GroupsInv s 0) (hlt : s.work.gi.toNat < groupCount s)
    (h : loadGroup s = .next t) : BlockInv t := by
  obtain ⟨v, rfl⟩ := loadGroup_cases h
  exact blockInv_of_running hr hstore (Iff.mpr (stageInv_symbol rfl) ⟨hlt, Nat.zero_le _, hinv⟩)

theorem GroupsEnd.blockInv (hinv : GroupsInv s 0) (hgi : s.work.gi.toNat = groupCount s) (h : GroupsEnd s t) :
    BlockInv t := by
  have hlt := groupCount_lt hinv
  cases h with
  | header hd hf =>
    obtain ⟨hm, hne, htl, hcov, hout, -⟩ := (groupsInv_fdec hd hf).mp hinv
    rw [hgi, groupCount_decode hd, Nat.mul_comm, ← htl] at hcov
    exact blockInv_of_running hr hstore (Iff.mpr (stageInv_header_decode rfl hd) ⟨hf, hne, hout, hm, htl, hcov⟩)
  | decoded hd hf hfits =>
    obtain ⟨-, -, hcov⟩ := (groupsInv_bdec hd hf).mp hinv
    rw [hgi, Nat.mul_comm, capped_of_fits hfits] at hcov
    exact blockInv_finished (by omega) hcov hfits
  | encoded hd hfits =>
    have hcov := covers_of_encode hd hinv
    rw [hgi, Nat.add_zero, Nat.mul_comm, capped_of_fits hfits] at hcov
    exact blockInv_finished (by omega) hcov hfits

theorem nextGroup_blockInv (hs : s.work.stage = .group) (hinv : StageInv s) (h : nextGroup s = .next t) :
    BlockInv t := by
  obtain ⟨hle, hinv⟩ := (stageInv_group hs).mp hinv
  unfold nextGroup at h
  split at h
  · next hlt => exact loadGroup_blockInv hr hstore hinv hlt h
  · exact GroupsEnd.blockInv hr hstore hinv (by omega) (endGroups_moves h)

theorem symbol_blockInv {d : Digit} (hs : s.work.stage = .symbol) (hk : s.work.k < 5) (hinv : StageInv s)
    (h : symbol d s = .next t) : BlockInv t := by
  obtain ⟨hlt, -, hinv⟩ := (stageInv_symbol hs).mp hinv
  cases hd : decodes s.work.opl with
  | true =>
    rw [symbol_of_decode d hd] at h
    cases h
    refine blockInv_of_running hr hstore (Iff.mpr (stageInv_symbol hs) ⟨hlt, Nat.succ_le_of_lt hk, ?_⟩)
    cases hf : framed s.work.opl with
    | true => exact Iff.mpr (groupsInv_fdec hd hf) ((groupsInv_fdec hd hf).mp hinv)
    | false => exact Iff.mpr (groupsInv_bdec hd hf) ((groupsInv_bdec hd hf).mp hinv)
  | false =>
    rw [symbol_of_encode d hd] at h
    cases h
    have hcov := covers_writeOut (romA d) (covers_of_encode hd hinv)
    rw [writeOut_eq]
    exact blockInv_of_running hr hstore
      (Iff.mpr (stageInv_symbol hs) ⟨hlt, Nat.succ_le_of_lt hk, groupsInv_of_encode hd hinv rfl rfl rfl rfl hcov⟩)

theorem GroupEnd.blockInv (hs : s.work.stage = .symbol) (hk : ¬ s.work.k < 5) (hinv : StageInv s)
    (h : GroupEnd s t) : BlockInv t := by
  obtain ⟨hlt, hle, hinv⟩ := (stageInv_symbol hs).mp hinv
  have hk5 : s.work.k = 5 := by omega
  have hcount := groupCount_lt hinv
  have hgi : (s.work.gi + 1).toNat = s.work.gi.toNat + 1 := by
    rw [BitVec.toNat_add, show (1 : BitVec 64).toNat = 1 from rfl]
    omega
  have hnext : (s.work.gi + 1).toNat ≤ groupCount s := by omega
  cases h with
  | error e he => exact blockInv_raise s he
  | encoded hd =>
    have hcov := covers_of_encode hd hinv
    rw [hk5, show 5 * s.work.gi.toNat + 5 = 5 * (s.work.gi + 1).toNat + 0 by omega] at hcov
    exact blockInv_of_running hr hstore
      (Iff.mpr (stageInv_group rfl) ⟨hnext, groupsInv_of_encode hd hinv rfl rfl rfl rfl hcov⟩)
  | toT bytes hl hd hf =>
    obtain ⟨hm, hne, htl, hcov, hout, hst⟩ := (groupsInv_fdec hd hf).mp hinv
    have hcov := covers_writeCells bytes hcov
    rw [hl, show 4 * s.work.gi.toNat + 4 = 4 * (s.work.gi + 1).toNat by omega] at hcov
    have hfit : fits s.capT (4 * (s.work.gi + 1).toNat) = true :=
      fits_mono hst (by rw [groupCount_decode hd] at hnext; omega)
    exact blockInv_of_running hr (fits_of_covers hcov hfit)
      (Iff.mpr (stageInv_group rfl) ⟨hnext, Iff.mpr (groupsInv_fdec hd hf) ⟨hm, hne, htl, hcov, hout, hst⟩⟩)
  | toOut bytes hl hd hf =>
    obtain ⟨hm, ht, hcov⟩ := (groupsInv_bdec hd hf).mp hinv
    have hcov := covers_writeOutCells bytes hcov
    rw [hl, show 4 * s.work.gi.toNat + 4 = 4 * (s.work.gi + 1).toNat by omega] at hcov
    rw [writeOutCells_eq]
    exact blockInv_of_running hr hstore
      (Iff.mpr (stageInv_group rfl) ⟨hnext, Iff.mpr (groupsInv_bdec hd hf) ⟨hm, ht, hcov⟩⟩)

end Moves

/-- Every step of the running block keeps its part of the invariant. -/
theorem blockStep_blockInv {whole : Bool} {s t : State} (hinv : BlockInv s) (h : blockStep whole s = .next t) :
    BlockInv t := by
  by_cases hp : s.phase = .busy
  · obtain ⟨hstore, hphase⟩ := hinv
    obtain ⟨hr, hstage⟩ := phaseInv_of_busy hp hphase
    cases blockStep_moves hp h with
    | command _ _ hx => exact (exec_selected_ends hx).blockInv
    | header i hs hi hx =>
      obtain ⟨bytes, hm, hbytes⟩ := header_moves hi hx
      exact hm.blockInv hr hstore hs hstage hbytes
    | symbol i hs hk hi hx =>
      obtain ⟨d, hd⟩ := symbol_of_fetch hi hx
      exact symbol_blockInv hr hstore hs hk hstage hd
    | error e he heq => exact heq ▸ blockInv_raise s he
    | begin hs hc => exact (beginOperation_moves hc).blockInv hr hstore ((stageInv_command hs).mp hstage)
    | pad hs hc => exact padStep_blockInv hr hs hstage hc
    | strip _ hc => exact (stripStep_ends hc).blockInv
    | group hs hc => exact nextGroup_blockInv hr hstore hs hstage hc
    | endGroup hs hk hc => exact (endGroup_moves hc).blockInv hr hstore hs hk hstage
  · rw [blockStep_of_not_busy whole hp] at h
    cases h
    exact hinv

/-! ## The whole invariant -/

theorem machineInv_iff (s : State) :
    MachineInv s ↔ s.inp.wf = true ∧ (∀ c ∈ s.inp, fits s.capIn (c.1 + 1) = true) ∧ BlockInv s := Iff.rfl

/-- Writes of `IN` within `CAP_IN` list only cells within it. -/
theorem fits_of_mem_writeCells {m : Memory} {a : Nat} {bytes : List Byte} {cap : Option Nat}
    (hm : ∀ c ∈ m, fits cap (c.1 + 1) = true) (hf : fits cap (a + bytes.length) = true) :
    ∀ c ∈ m.writeCells a bytes, fits cap (c.1 + 1) = true := by
  induction bytes generalizing m a with
  | nil => exact hm
  | cons b bs ih =>
    refine ih (fun c hc => ?_) (by rwa [List.length_cons, Nat.add_comm bs.length, ← Nat.add_assoc] at hf)
    obtain rfl | hc := Memory.mem_write m a b c hc
    · exact fits_mono hf (by simp)
    · exact hm c hc

theorem blockStep_machineInv {whole : Bool} {s t : State} (hinv : MachineInv s) (h : blockStep whole s = .next t) :
    MachineInv t := by
  obtain ⟨hwf, hin, hblock⟩ := (machineInv_iff s).mp hinv
  obtain ⟨-, -, hinp, hcap, -⟩ := (blockStep_frame h).inputs
  exact ⟨hinp ▸ hwf, by rwa [hinp, hcap], blockStep_blockInv hblock h⟩

theorem TurnMove.machineInv {turn : HostTurn} {s t : State} (hinv : MachineInv s) (h : TurnMove turn s t) :
    MachineInv t := by
  obtain ⟨hwf, hin, hblock⟩ := (machineInv_iff s).mp hinv
  cases h with
  | host => exact hinv
  | input a bytes n d hf => exact ⟨Memory.writeCells_keeps_wf _ _ _ hwf, fits_of_mem_writeCells hin hf, hblock⟩
  | start =>
    exact ⟨hwf, hin, blockInv_of_running ⟨rfl, rfl, rfl⟩ (by simp) ((stageInv_command rfl).mpr ⟨rfl, rfl⟩)⟩
  | reset => exact ⟨rfl, by simp, by simp, rfl, rfl, rfl, rfl⟩
  | block whole _ _ hb => exact blockStep_machineInv hinv hb

/-- Settles O54: each turn of the host and each move of the block keeps the invariant. -/
theorem stepKeepsTheInvariant : Obligations.StepKeepsTheInvariant := by
  intro s t hinv hstep
  obtain ⟨-, hb⟩ | ⟨turn, turns, -, hturn⟩ := step_next_cases hstep
  · exact blockStep_machineInv hinv hb
  · exact (takeTurn_moves hturn).machineInv (s := { s with host := turns }) hinv

/-- Settles O53: after reset nothing is listed and no operation runs. -/
theorem resetMeetsTheInvariant : Obligations.ResetMeetsTheInvariant :=
  ⟨rfl, by simp [State.reset], by simp [State.reset], rfl, rfl, rfl, rfl⟩

end Sys2Proof.Machine
end

section
/-! SUPPORT. The steps of the machine that the host sees: what `START` admits, what a command gives on a written input,
the host's reads and writes. -/

namespace Sys2Proof.Machine

/-! ## Words, codes, reset -/

/-- The word of the next fetch is run by a whole step of the block. -/
theorem blockStep_of_word {s : State} {f : Fetch} {i : Instr} (hp : s.phase = .busy) (hw : wordHere true s = some f)
    (hf : f = .word i) : blockStep true s = exec i s := by
  rw [blockStep_of_busy true hp, hw, hf]
  rfl

/-- Settles O7: in each of the three places the word fetched is the word decoded. -/
theorem stepRunsTheDecodedWord : Obligations.StepRunsTheDecodedWord := by
  intro s i rest hp hplace
  have hblock : ∀ turns, blockStep true { s with host := turns } = exec i { s with host := turns } := by
    intro turns
    obtain ⟨hs, hdec⟩ | ⟨hs, hd, bytes, hb, hdec⟩ | ⟨hs, hk, hd, c, hc, hdec⟩ := hplace
    · refine blockStep_of_word hp (f := fetchCommand s) (by simp only [wordHere, hs]; rfl) ?_
      rw [fetchCommand, hdec]
      rfl
    · refine blockStep_of_word hp (f := fetchHeader s) (by simp only [wordHere, hs]; rfl) ?_
      simp only [fetchHeader, hd, if_true, hb, hdec]
      rfl
    · refine blockStep_of_word hp (f := fetchSymbol s) (by simp only [wordHere, hs, hk, if_true]; rfl) ?_
      simp only [fetchSymbol, hd, if_true, charIndex, hc, hdec]
      rfl
  refine ⟨fun hh => ?_, fun turns hh => ?_⟩
  · have heq : s = { s with host := [] } := by rw [← hh]
    rw [step_of_no_turn hh, heq]
    exact hblock []
  · exact (step_of_turn hh).trans (hblock turns)

/-- Settles O33, by the tables of the codes. -/
theorem statusCodes : Obligations.StatusCodes := by
  refine ⟨fun p => ?_, rfl, rfl, rfl, rfl, rfl, rfl, rfl⟩
  cases p <;> decide

/-- Settles O37: the reset values, and `BENC` of nothing. -/
theorem resetState : Obligations.ResetState :=
  ⟨rfl, rfl, rfl, rfl, rfl, fun _ => ⟨rfl, rfl, rfl⟩, _, rfl, rfl, rfl, rfl, rfl, fun _ _ => rfl⟩

/-- Settles O51: the step is one of the block, which does nothing outside an operation. -/
theorem nothingAdvancesBetweenOperations : Obligations.NothingAdvancesBetweenOperations := by
  intro s hp hh
  rw [step_of_no_turn hh]
  exact blockStep_of_not_busy true hp

/-! ## The host's writes and reads -/

/-- Settles O60: each of the two turns is one register write. -/
theorem hostWritesOfOpAndIlen : Obligations.HostWritesOfOpAndIlen :=
  fun _ _ => ⟨fun _ hh => step_of_turn hh, fun _ hh => step_of_turn hh⟩

/-- Settles O45: the refusal and the write split at `ILENL`. -/
theorem hostWritesOfIn : Obligations.HostWritesOfIn := by
  intro s turns a b hh hfit
  rw [step_of_turn hh]
  refine ⟨fun hp ha => ?_, fun hok => ?_⟩
  · simp [takeTurn, hostWriteIn, hfit, hp, ha]
  · have hno : ¬ (s.phase = .busy ∧ a < s.work.ilenl.toNat) := by
      rintro ⟨hp, ha⟩
      exact hok.elim (fun h => h hp) (by omega)
    have hstep : hostWriteIn a b { s with host := turns } = .next { s with host := turns, inp := s.inp.write a b } := by
      simp only [hostWriteIn, hfit, Bool.not_true, Bool.false_eq_true, if_false, if_neg hno]
    exact ⟨_, hstep, Memory.read_write_same _ _ _, fun c hc => Memory.read_write_of_ne _ _ _ _ hc, rfl⟩

/-- A read of a cell of `OUT` that exists completes. -/
theorem hostReadOut_of_fits {a : Nat} {s : State} (h : fits s.capOut (a + 1) = true) :
    hostReadOut a s = .next { s with lastRead := some (.out a (outCell s a)), draws := s.draws + 1 } := by
  simp [hostReadOut, h]

/-- Settles O48: what the host's four reads return in every state, and after a delivered result. -/
theorem collectReadsTheResult : Obligations.CollectReadsTheResult := by
  intro s turns
  refine ⟨fun hh => ⟨_, step_of_turn hh, ?_⟩, fun hh => ⟨_, step_of_turn hh, ?_⟩, fun hh => step_of_turn hh,
    fun a hfit hh => ⟨_, (step_of_turn hh).trans (hostReadOut_of_fits hfit)⟩, fun bytes hdel => ?_⟩
  · refine ⟨fun hp => ?_, fun hp => ?_, fun hp => ?_⟩ <;> rw [hp] <;> rfl
  · refine ⟨fun he => ?_, fun he => ?_, fun he => ?_, fun he => ?_⟩ <;> rw [he] <;> rfl
  · obtain ⟨-, he, hl, -⟩ := id hdel
    refine ⟨fun hh => ⟨_, step_of_turn hh, ?_⟩, fun hh => ⟨_, _, step_of_turn hh, rfl, hl⟩,
      fun a b hb hfit hh => ⟨_, (step_of_turn hh).trans (hostReadOut_of_fits hfit), ?_, rfl⟩⟩
    · rw [he]; rfl
    · have hcell : outCell { s with host := turns } a = b := outCell_of_delivers hdel hb
      rw [hcell]

end Sys2Proof.Machine
end

section
/-! SUPPORT. The block never looks at `OP` and `ILEN`: each of its operations commutes with a host's write of the
two. -/

namespace Sys2Proof.Machine

/-- `OP` and `ILEN` as the host writes them. -/
def withOperands (op : BitVec 2) (n : Len) (s : State) : State := { s with op := op, ilen := n }

/-- The outcome with `OP` and `ILEN` of its next state, if there is one, written. -/
def operandsOfNext (op : BitVec 2) (n : Len) (o : Host.Outcome State Fault Refusal) :
    Host.Outcome State Fault Refusal :=
  match o with
  | .next s => .next (withOperands op n s)
  | .fault f => .fault f
  | .refused r => .refused r

section Commutes

variable {op : BitVec 2} {n : Len} {s : State}

/-! ### The shared operations, each around a body that commutes -/

theorem operandsOfNext_ite {c : Prop} [Decidable c] {a b a' b' : Host.Outcome State Fault Refusal}
    (ha : a' = operandsOfNext op n a) (hb : b' = operandsOfNext op n b) :
    (if c then a' else b') = operandsOfNext op n (if c then a else b) := by
  subst ha hb
  exact (apply_ite _ _ _ _).symm

theorem finish_withOperands (m : Nat) : finish m (withOperands op n s) = operandsOfNext op n (finish m s) :=
  operandsOfNext_ite rfl rfl

theorem deliver_withOperands (bytes : List Byte) :
    deliver bytes (withOperands op n s) = operandsOfNext op n (deliver bytes s) :=
  finish_withOperands (s := { s with out := Memory.writeCells [] 0 bytes }) _

theorem withCapacity_withOperands {body body' : Host.Outcome State Fault Refusal}
    (h : body' = operandsOfNext op n body) :
    withCapacity (withOperands op n s) body' = operandsOfNext op n (withCapacity s body) :=
  operandsOfNext_ite h rfl

theorem withStore_withOperands {m : Nat} {body body' : Host.Outcome State Fault Refusal}
    (h : body' = operandsOfNext op n body) :
    withStore m (withOperands op n s) body' = operandsOfNext op n (withStore m s body) :=
  operandsOfNext_ite h rfl

theorem withInput_withOperands {body body' : List Byte → Host.Outcome State Fault Refusal}
    (h : ∀ xs, body' xs = operandsOfNext op n (body xs)) :
    withInput (withOperands op n s) body' = operandsOfNext op n (withInput s body) := by
  unfold withInput
  simp only [withOperands]
  cases s.inp.readCells 0 s.work.ilenl.toNat with
  | some xs => exact h xs
  | none => rfl

/-! ### The words -/

theorem execBenc_withOperands : execBenc (withOperands op n s) = operandsOfNext op n (execBenc s) :=
  withCapacity_withOperands <| operandsOfNext_ite rfl <| withInput_withOperands fun _ => deliver_withOperands _

theorem execBdec_withOperands : execBdec (withOperands op n s) = operandsOfNext op n (execBdec s) := by
  refine withCapacity_withOperands <| operandsOfNext_ite rfl <| withInput_withOperands fun xs => ?_
  cases decodeText xs with
  | some bytes => exact deliver_withOperands bytes
  | none => rfl

theorem execFenc_withOperands : execFenc (withOperands op n s) = operandsOfNext op n (execFenc s) :=
  withCapacity_withOperands <| operandsOfNext_ite (deliver_withOperands _) <| withStore_withOperands <|
    withInput_withOperands fun _ => deliver_withOperands (s := { s with draws := s.draws + 1 }) _

theorem execFdec_withOperands : execFdec (withOperands op n s) = operandsOfNext op n (execFdec s) := by
  refine withCapacity_withOperands <| operandsOfNext_ite (deliver_withOperands _) <| operandsOfNext_ite rfl <|
    withStore_withOperands <| withInput_withOperands fun xs => ?_
  cases decodeText xs with
  | none => rfl
  | some buffer =>
    simp only
    cases unframe buffer with
    | none => rfl
    | some payload => exact deliver_withOperands payload

theorem execHdrShort_withOperands (b : Byte) :
    execHdrShort b (withOperands op n s) = operandsOfNext op n (execHdrShort b s) :=
  operandsOfNext_ite rfl rfl

theorem execHdrLong_withOperands (hi lo : BitVec 32) :
    execHdrLong hi lo (withOperands op n s) = operandsOfNext op n (execHdrLong hi lo s) :=
  operandsOfNext_ite (operandsOfNext_ite rfl rfl) rfl

theorem writeOut_withOperands (a : Nat) (b : Byte) :
    writeOut (withOperands op n s) a b = withOperands op n (writeOut s a b) :=
  (apply_ite (withOperands op n) (fits s.capOut (a + 1) = true) { s with out := s.out.write a b } s).symm

theorem writeOutCells_withOperands (a : Nat) (bs : List Byte) :
    writeOutCells (withOperands op n s) a bs = withOperands op n (writeOutCells s a bs) := by
  induction bs generalizing s a with
  | nil => rfl
  | cons b bs ih => rw [writeOutCells, writeOut_withOperands, ih]; rfl

theorem symbol_withOperands (d : Digit) : symbol d (withOperands op n s) = operandsOfNext op n (symbol d s) := by
  cases hd : decodes s.work.opl with
  | true => rw [symbol_of_decode d hd, symbol_of_decode (s := withOperands op n s) d hd]; rfl
  | false =>
    rw [symbol_of_encode d hd, symbol_of_encode (s := withOperands op n s) d hd, writeOut_withOperands]
    rfl

theorem exec_withOperands (i : Instr) : exec i (withOperands op n s) = operandsOfNext op n (exec i s) := by
  obtain ⟨cmd, rfl⟩ | ⟨hi, lo, rfl⟩ | ⟨b, rfl⟩ | ⟨d, hd⟩ := instr_cases i
  · obtain rfl | rfl | rfl | rfl := op_cases cmd
    · exact execBenc_withOperands
    · exact execBdec_withOperands
    · exact execFenc_withOperands
    · exact execFdec_withOperands
  · exact execHdrLong_withOperands hi lo
  · exact execHdrShort_withOperands b
  · rw [exec_of_digit _ hd, exec_of_digit _ hd, symbol_withOperands]

theorem runFetched_withOperands (f : Fetch) :
    runFetched f (withOperands op n s) = operandsOfNext op n (runFetched f s) := by
  cases f with
  | word i => exact exec_withOperands i
  | error e => rfl
  | refuse r => rfl

/-! ### The control decisions -/

theorem beginOperation_withOperands :
    beginOperation (withOperands op n s) = operandsOfNext op n (beginOperation s) :=
  withCapacity_withOperands <| operandsOfNext_ite (finish_withOperands 0) <| operandsOfNext_ite
    (operandsOfNext_ite rfl <| operandsOfNext_ite (withStore_withOperands rfl) rfl)
    (operandsOfNext_ite (withStore_withOperands rfl) <| operandsOfNext_ite rfl rfl)

theorem padStep_withOperands : padStep (withOperands op n s) = operandsOfNext op n (padStep s) :=
  withInput_withOperands fun _ => rfl

theorem stripStep_withOperands : stripStep (withOperands op n s) = operandsOfNext op n (stripStep s) := by
  refine operandsOfNext_ite rfl ?_
  simp only [withOperands]
  cases s.t.readCells s.work.hlen.toNat s.work.dlen.toNat with
  | some payload => exact deliver_withOperands (s := { s with work := _ }) payload
  | none => rfl

theorem loadGroup_withOperands : loadGroup (withOperands op n s) = operandsOfNext op n (loadGroup s) := by
  refine operandsOfNext_ite rfl ?_
  rw [show (withOperands op n s).work = s.work from rfl, show (withOperands op n s).t = s.t from rfl,
    show (withOperands op n s).inp = s.inp from rfl]
  generalize (if framed s.work.opl = true then s.t else s.inp).readCells (4 * s.work.gi.toNat) 4 = cells
  split <;> rfl

theorem nextGroup_withOperands : nextGroup (withOperands op n s) = operandsOfNext op n (nextGroup s) :=
  operandsOfNext_ite loadGroup_withOperands <|
    operandsOfNext_ite (finish_withOperands _) <| operandsOfNext_ite rfl (finish_withOperands _)

theorem endGroup_withOperands : endGroup (withOperands op n s) = operandsOfNext op n (endGroup s) := by
  refine operandsOfNext_ite (operandsOfNext_ite rfl <| operandsOfNext_ite rfl ?_) rfl
  rw [show (withOperands op n s).work = s.work from rfl, writeOutCells_withOperands]
  rfl

theorem controlHere_withOperands : controlHere (withOperands op n s) = operandsOfNext op n (controlHere s) := by
  unfold controlHere
  rw [show (withOperands op n s).work = s.work from rfl]
  cases s.work.stage with
  | command => exact beginOperation_withOperands
  | header => exact runFetched_withOperands (fetchHeader s)
  | pad => exact padStep_withOperands
  | strip => exact stripStep_withOperands
  | group => exact nextGroup_withOperands
  | symbol => exact endGroup_withOperands

theorem blockStep_withOperands (whole : Bool) :
    blockStep whole (withOperands op n s) = operandsOfNext op n (blockStep whole s) := by
  by_cases hp : s.phase = .busy
  · rw [blockStep_of_busy whole hp, blockStep_of_busy (s := withOperands op n s) whole hp,
      show wordHere whole (withOperands op n s) = wordHere whole s from rfl]
    cases wordHere whole s with
    | some f => exact runFetched_withOperands f
    | none => exact controlHere_withOperands
  · rw [blockStep_of_not_busy whole hp, blockStep_of_not_busy (s := withOperands op n s) whole hp]
    rfl

end Commutes

/-- Settles O36: every instruction and every step of the block commutes with the host's write of `OP` and `ILEN`. -/
theorem latchedOperandsAreUsed : Obligations.LatchedOperandsAreUsed :=
  ⟨fun i _ _ _ _ h => (exec_withOperands i).trans (congrArg _ h),
    fun whole _ _ _ _ h => (blockStep_withOperands whole).trans (congrArg _ h)⟩

end Sys2Proof.Machine
end

section
/-! SUPPORT. What a command gives on a written input, as a function of its operands, its input and its draw. -/

namespace Sys2Proof.Machine

/-! ## The result of a command -/

/-- What the command `op` makes of the input `xs` of length `n`, under the draw `draw`: its error or its output. -/
def commandResult (op : BitVec 2) (n : Len) (xs : List Byte) (draw : Nat) : Except ErrCode (List Byte) :=
  if framed op = true ∧ n = 0 then .ok []
  else if decodes op then
    if n.toNat % 5 ≠ 0 then .error .invalidLength
    else
      match decodeText xs with
      | none => .error .encodingFailure
      | some bytes =>
        if framed op then (unframe bytes).elim (.error .truncatedInput) .ok else .ok bytes
  else if framed op then .ok (encodeText (assemble xs n draw))
  else if n.toNat % 4 ≠ 0 then .error .invalidLength
  else .ok (encodeText xs)

/-- The cells of `T` that the command `op` needs: none for a base command, for the empty input, and for an `FDEC` that
fails its length check (log 8). -/
def storeNeeded (op : BitVec 2) (n : Len) : Nat :=
  if framed op = false ∨ n = 0 then 0
  else if decodes op = false then framedLength n
  else if n.toNat % 5 = 0 then n.toNat / 5 * 4
  else 0

/-- The end of a command with that result. -/
def conclude (r : Except ErrCode (List Byte)) (s : State) : Host.Outcome State Fault Refusal :=
  match r with
  | .error e => .next (raise e s)
  | .ok bytes => deliver bytes s

@[simp] theorem fits_zero (cap : Option Nat) : fits cap 0 = true := by cases cap <;> simp

section Input

variable {s : State} {xs : List Byte} (h : HasInput s xs)
include h

theorem execBenc_of_input : execBenc s = conclude (commandResult 0 s.work.ilenl xs s.draws) s := by
  obtain ⟨hcap, hread⟩ := h
  rw [execBenc, withCapacity_of_fits _ hcap, withInput_of_read _ hread]
  by_cases hm : s.work.ilenl.toNat % 4 = 0 <;> simp [hm, commandResult, conclude, framed, decodes]

theorem execBdec_of_input : execBdec s = conclude (commandResult 1 s.work.ilenl xs s.draws) s := by
  obtain ⟨hcap, hread⟩ := h
  rw [execBdec, withCapacity_of_fits _ hcap, withInput_of_read _ hread]
  by_cases hm : s.work.ilenl.toNat % 5 = 0
  · cases hb : decodeText xs <;> simp [hm, hb, commandResult, conclude, framed, decodes]
  · simp [hm, commandResult, conclude, framed, decodes]

theorem execFenc_of_input : ∃ d, execFenc s = withStore (storeNeeded 2 s.work.ilenl) s
    (conclude (commandResult 2 s.work.ilenl xs s.draws) { s with draws := d }) := by
  obtain ⟨hcap, hread⟩ := h
  rw [execFenc, withCapacity_of_fits _ hcap, withInput_of_read _ hread]
  by_cases h0 : s.work.ilenl = 0#64
  · exact ⟨s.draws, by simp [h0, commandResult, storeNeeded, conclude, framed, withStore]⟩
  · exact ⟨s.draws + 1, by simp [h0, commandResult, storeNeeded, conclude, framed, decodes]⟩

theorem execFdec_of_input : execFdec s = withStore (storeNeeded 3 s.work.ilenl) s
    (conclude (commandResult 3 s.work.ilenl xs s.draws) s) := by
  obtain ⟨hcap, hread⟩ := h
  rw [execFdec, withCapacity_of_fits _ hcap, withInput_of_read _ hread]
  by_cases h0 : s.work.ilenl = 0#64
  · simp [h0, commandResult, storeNeeded, conclude, framed, withStore]
  · by_cases hm : s.work.ilenl.toNat % 5 = 0
    · cases hb : decodeText xs with
      | none => simp [h0, hm, hb, commandResult, storeNeeded, conclude, framed, decodes]
      | some buffer =>
        cases hu : unframe buffer <;>
          simp [h0, hm, hb, hu, commandResult, storeNeeded, conclude, framed, decodes]
    · simp [h0, hm, commandResult, storeNeeded, conclude, framed, decodes, withStore]

/-- On a written input a command needs its store and then ends with its result; only the count of draws may move
before (log 4). -/
theorem exec_selected_of_input (op : BitVec 2) :
    ∃ d, exec (selected op) s = withStore (storeNeeded op s.work.ilenl) s
      (conclude (commandResult op s.work.ilenl xs s.draws) { s with draws := d }) := by
  have hbase : ∀ o, framed op = false → o = withStore (storeNeeded op s.work.ilenl) s o := fun o hf =>
    (withStore_of_fits o (by simp [storeNeeded, hf])).symm
  obtain rfl | rfl | rfl | rfl := op_cases op
  · exact ⟨s.draws, (execBenc_of_input h).trans (hbase _ rfl)⟩
  · exact ⟨s.draws, (execBdec_of_input h).trans (hbase _ rfl)⟩
  · exact execFenc_of_input h
  · exact ⟨s.draws, execFdec_of_input h⟩

end Input

/-- Of the four commands only `FENC` takes a draw. -/
theorem commandResult_draw {op : BitVec 2} {n : Len} {xs : List Byte} {d₁ d₂ : Nat}
    (h : selected op = .fenc → d₁ = d₂) : commandResult op n xs d₁ = commandResult op n xs d₂ := by
  obtain rfl | rfl | rfl | rfl := op_cases op
  · rfl
  · rfl
  · rw [h rfl]
  · rfl

/-- The end of a command depends on its result and on `CAP_OUT` alone. -/
theorem conclude_result {r : Except ErrCode (List Byte)} {s₁ s₂ t₁ : State} (hcap : s₁.capOut = s₂.capOut)
    (h : conclude r s₁ = .next t₁) :
    ∃ t₂, conclude r s₂ = .next t₂ ∧ t₂.phase = t₁.phase ∧ t₂.err = t₁.err ∧ t₂.olen = t₁.olen ∧
      t₂.out = t₁.out := by
  cases r with
  | error e =>
    cases h
    exact ⟨_, rfl, rfl, rfl, rfl, rfl⟩
  | ok bytes =>
    obtain ⟨hfits, rfl⟩ := (deliver_eq_next_iff _ _ _).mp h
    exact ⟨_, deliver_of_fits (hcap ▸ hfits), rfl, rfl, rfl, rfl⟩

/-- Settles O35: the result of a command is `commandResult` of its operands, its input and the draw. -/
theorem nothingCarriesOver : Obligations.NothingCarriesOver := by
  intro s₁ s₂ t₁ op xs hn h₁ h₂ hout ht hdraw hx
  obtain ⟨d₁, he₁⟩ := exec_selected_of_input h₁ op
  obtain ⟨d₂, he₂⟩ := exec_selected_of_input h₂ op
  obtain ⟨hstore, hc⟩ := (withStore_eq_next_iff _ _ _ _).mp (he₁.symm.trans hx)
  rw [hn, commandResult_draw hdraw] at hc
  obtain ⟨t₂, hc₂, hphase, herr, holen, hmem⟩ :=
    conclude_result (s₁ := { s₁ with draws := d₁ }) (s₂ := { s₂ with draws := d₂ }) hout hc
  refine ⟨t₂, ?_, hphase, herr, holen, fun a => by rw [hmem]⟩
  rw [he₂, withStore_of_fits _ (by rwa [← hn, ← ht]), hc₂]

/-! ## What `START` admits -/

theorem hostStart_of_step {s t : State} (hp : s.phase ≠ .busy) (h : exec (selected s.op) (latch s) = .next t) :
    hostStart s = .next (latch s) := by
  have hrun : runFetched (fetchCommand (latch s)) (latch s) = .next t := by rw [fetchCommand_eq]; exact h
  rw [hostStart, if_neg hp, hrun]

theorem hostStart_of_refused {s : State} {r : Refusal} (hp : s.phase ≠ .busy)
    (h : exec (selected s.op) (latch s) = .refused r) : hostStart s = .refused r := by
  have hrun : runFetched (fetchCommand (latch s)) (latch s) = .refused r := by rw [fetchCommand_eq]; exact h
  rw [hostStart, if_neg hp, hrun]

/-- Settles O40: `START` runs the selected command to find out whether it has a step. -/
theorem startLatchesAnAdmittedOperation : Obligations.StartLatchesAnAdmittedOperation := by
  rintro s turns hp hh s' rfl
  have hstep : step s = hostStart { s with host := turns } := step_of_turn hh
  refine ⟨⟨rfl, rfl, rfl, rfl, rfl, rfl, rfl, rfl⟩, fun t hx => ?_, fun r hx => ?_, fun t ht => ?_⟩
  · exact hstep.trans (hostStart_of_step hp hx)
  · exact hstep.trans (hostStart_of_refused hp hx)
  · obtain ⟨hb, -⟩ | ⟨-, ht, hu⟩ := hostStart_cases (hstep.symm.trans ht)
    · exact absurd hb hp
    · exact ⟨ht, hu⟩

theorem conclude_of_unbounded (r : Except ErrCode (List Byte)) {s : State} (h : s.capOut = none) :
    ∃ t, conclude r s = .next t := by
  cases r with
  | error e => exact ⟨_, rfl⟩
  | ok bytes => exact ⟨_, deliver_of_fits (by rw [h]; rfl)⟩

/-- Settles O41: without capacities every result of a written input is delivered, so `START` is honoured. -/
theorem unboundedBuffersAdmitEveryStart : Obligations.UnboundedBuffersAdmitEveryStart := by
  intro s turns xs _ hout ht hready hh
  obtain ⟨hp, hinput⟩ := hready
  have h : HasInput (latch { s with host := turns }) xs := hinput
  obtain ⟨d, hexec⟩ := exec_selected_of_input h s.op
  obtain ⟨t, hc⟩ := conclude_of_unbounded (commandResult s.op s.ilen xs s.draws)
    (s := { latch { s with host := turns } with draws := d }) hout
  rw [withStore_of_fits _ (by rw [latch_capT, ht]; rfl)] at hexec
  exact ⟨_, (step_of_turn hh).trans (hostStart_of_step hp (hexec.trans hc)), rfl, rfl, rfl⟩

/-! ## What is refused -/

theorem withCapacity_of_not_fits {s : State} (body : Host.Outcome State Fault Refusal)
    (h : fits s.capIn s.work.ilenl.toNat = false) : withCapacity s body = .refused .inputExceedsCapacity := by
  simp [withCapacity, h]

theorem withInput_of_unwritten {s : State} (body : List Byte → Host.Outcome State Fault Refusal)
    (h : s.inp.readCells 0 s.work.ilenl.toNat = none) : withInput s body = .refused .unwrittenInput := by
  simp [withInput, h]

/-- Settles O42: the three grounds of refusal, in the order of the model. -/
theorem unadmittedOperationsHaveNoStep : Obligations.UnadmittedOperationsHaveNoStep := by
  intro s op
  refine ⟨fun hcap => ?_, fun hcap hne => ⟨fun hst => ?_, fun hm hst => ?_⟩,
    fun hcap hread hfenc hfdec hbenc hdec => ?_⟩
  · obtain rfl | rfl | rfl | rfl := op_cases op <;> exact withCapacity_of_not_fits _ hcap
  · show execFenc s = _
    rw [execFenc, withCapacity_of_fits _ hcap, if_neg hne, withStore_of_not_fits _ hst]
  · show execFdec s = _
    rw [execFdec, withCapacity_of_fits _ hcap, if_neg hne, if_neg (Decidable.not_not.mpr hm), withStore_of_not_fits _ hst]
  · have hne : s.work.ilenl ≠ 0 := fun h0 => by rw [h0] at hread; cases hread
    obtain rfl | rfl | rfl | rfl := op_cases op
    · show execBenc s = _
      rw [execBenc, withCapacity_of_fits _ hcap, if_neg (Decidable.not_not.mpr (hbenc rfl)),
        withInput_of_unwritten _ hread]
    · show execBdec s = _
      rw [execBdec, withCapacity_of_fits _ hcap, if_neg (Decidable.not_not.mpr (hdec (.inl rfl))),
        withInput_of_unwritten _ hread]
    · show execFenc s = _
      rw [execFenc, withCapacity_of_fits _ hcap, if_neg hne, withStore_of_fits _ (hfenc rfl),
        withInput_of_unwritten _ hread]
    · show execFdec s = _
      rw [execFdec, withCapacity_of_fits _ hcap, if_neg hne, if_neg (Decidable.not_not.mpr (hdec (.inr rfl))),
        withStore_of_fits _ (hfdec rfl), withInput_of_unwritten _ hread]

/-- A long header's length is the number of its two groups (42_lhdr.md R144). -/
theorem longLength_toNat {rest : List Byte} (h : 8 ≤ rest.length) :
    ∃ n, longLength rest = some n ∧ n.toNat = groupNumber rest 0 * 2 ^ 32 + groupNumber rest 1 := by
  match rest with
  | h0 :: h1 :: h2 :: h3 :: l0 :: l1 :: l2 :: l3 :: r =>
    refine ⟨_, rfl, ?_⟩
    rw [groupNumber_zero, groupNumber_succ, groupNumber_zero, be64, BitVec.toNat_append,
      ← Nat.shiftLeft_add_eq_or_of_lt (be32 l0 l1 l2 l3).isLt, Nat.shiftLeft_eq]
  | [] | [_] | [_, _] | [_, _, _] | [_, _, _, _] | [_, _, _, _, _] | [_, _, _, _, _, _]
  | [_, _, _, _, _, _, _] => simp at h

/-- `HDRDEC` reads the header that a buffer has. -/
theorem hdrdec_of_hasHeader {buffer : List Byte} {h d : Nat} (hh : HasHeader buffer h d)
    (hle : h + d ≤ buffer.length) :
    ∃ n : Len, hdrdec buffer = some (h, n) ∧ n.toNat = d := by
  cases buffer with
  | nil =>
    obtain ⟨hb, -⟩ | ⟨-, hl, -⟩ := hh
    · exact absurd rfl hb
    · simp at hl
  | cons b rest =>
    rw [hdrdec_cons]
    obtain ⟨hb, rfl, rfl⟩ | ⟨hb, hl, rfl, rfl⟩ := hh
    · refine ⟨b.setWidth 64, if_pos hb, ?_⟩
      have hlt := b.isLt
      rw [BitVec.toNat_setWidth, List.getD_cons_zero, Nat.mod_eq_of_lt (by omega)]
    · have hb : ¬ b ≠ 0 := Decidable.not_not.mpr hb
      obtain ⟨n, hn, hnat⟩ := longLength_toNat (rest := rest) (by simp only [List.length_cons] at hl; omega)
      exact ⟨n, by rw [if_neg hb, hn]; rfl, hnat⟩

/-- A buffer whose declared payload is there gives a payload of that length. -/
theorem unframe_of_hasHeader {buffer : List Byte} {h d : Nat} (hh : HasHeader buffer h d)
    (hle : h + d ≤ buffer.length) :
    unframe buffer = some ((buffer.drop h).take d) := by
  obtain ⟨n, hdec, rfl⟩ := hdrdec_of_hasHeader hh hle
  rw [unframe, hdec]
  exact if_neg (by omega)

/-- A command whose store is there and whose output does not fit is refused. -/
theorem exec_refused_of_output {s : State} {xs bytes : List Byte} (op : BitVec 2) (hin : HasInput s xs)
    (hstore : fits s.capT (storeNeeded op s.work.ilenl) = true)
    (hresult : commandResult op s.work.ilenl xs s.draws = .ok bytes) (hfits : fits s.capOut bytes.length = false) :
    exec (selected op) s = .refused .outputExceedsCapacity := by
  obtain ⟨d, hexec⟩ := exec_selected_of_input hin op
  rw [hexec, withStore_of_fits _ hstore, hresult]
  exact deliver_of_not_fits hfits

/-- Settles O43: the output length of each command that would succeed. -/
theorem outputBeyondTheCapacityIsRefused : Obligations.OutputBeyondTheCapacityIsRefused := by
  intro s xs hin
  have hl := hin.length
  refine ⟨fun hm hfits => ?_, fun bytes hm hdec hfits => ?_, fun hne hst hfits => ?_,
    fun buffer h d hne hm hdec hh hle hst hfits => ?_⟩
  · refine exec_refused_of_output 0 hin (fits_zero _) (bytes := encodeText xs) ?_ ?_
    · exact if_neg (Decidable.not_not.mpr hm)
    · rwa [length_encodeText, hl]
  · have hb := (decodeText_eq_some_iff xs bytes (by omega)).mpr hdec
    refine exec_refused_of_output 1 hin (fits_zero _) (bytes := bytes) ?_ hfits
    simp [commandResult, framed, decodes, hm, hb]
  · have hne : s.work.ilenl ≠ 0#64 := hne
    refine exec_refused_of_output 2 hin ?_ (bytes := encodeText (assemble xs s.work.ilenl s.draws)) ?_ ?_
    · simpa [storeNeeded, framed, decodes, hne] using hst
    · simp [commandResult, framed, decodes, hne]
    · rwa [length_encodeText, length_assemble s.draws hl]
  · have hne : s.work.ilenl ≠ 0#64 := hne
    have hb := (decodeText_eq_some_iff xs buffer (by omega)).mpr hdec
    obtain ⟨hlen, -⟩ := hdec
    refine exec_refused_of_output 3 hin ?_ (bytes := (buffer.drop h).take d) ?_ ?_
    · rw [hl] at hlen
      simpa [storeNeeded, framed, decodes, hne, hm, ← hlen] using hst
    · simp [commandResult, framed, decodes, hne, hm, hb, unframe_of_hasHeader hh hle]
    · rwa [List.length_take, List.length_drop, Nat.min_eq_left (by omega)]

end Sys2Proof.Machine
end

section
/-! SUPPORT. The host's accesses to `IN` and `OUT` at the edge of their capacities, and its reads while an operation
runs (20_memory.md R59, R61). -/

namespace Sys2Proof.Machine

/-! ## Accesses at the edge of a capacity -/

theorem fits_some_eq_false (c n : Nat) : fits (some c) n = false ↔ c < n := by
  rw [← Bool.not_eq_true, fits_some, Nat.not_le]

section Access

variable {a : Nat} {s : State}

theorem hostWriteIn_of_not_fits (b : Byte) (h : fits s.capIn (a + 1) = false) :
    hostWriteIn a b s = .fault .noSuchInCell := by
  simp [hostWriteIn, h]

theorem hostReadOut_of_not_fits (h : fits s.capOut (a + 1) = false) :
    hostReadOut a s = .fault .noSuchOutCell := by
  simp [hostReadOut, h]

/-- A legal `MOVE` of a result that `IN` does not hold is a fault (R59, R98). -/
theorem hostMove_of_not_fits (herr : s.err = .ok) (hlen : s.olen.toNat < 2 ^ 64)
    (h : fits s.capIn s.olen.toNat = false) : hostMove s = .fault .noSuchInCell := by
  rw [hostMove, if_pos ⟨herr, hlen⟩]
  simp [h]

/-- A legal `MOVE` of a result that `IN` holds completes (R98). -/
theorem hostMove_of_fits (herr : s.err = .ok) (hlen : s.olen.toNat < 2 ^ 64)
    (h : fits s.capIn s.olen.toNat = true) :
    hostMove s = .next { s with
      inp := s.inp.writeCells 0 ((List.range s.olen.toNat).map (outCell s))
      ilen := s.olen.setWidth 64
      draws := s.draws + 1 } := by
  rw [hostMove, if_pos ⟨herr, hlen⟩]
  simp [h]

end Access

/-- Settles O46: each access asks its capacity first; below it, the access is the one of O45, O48 or R98. -/
theorem cellsOutsideTheCapacityDoNotExist : Obligations.CellsOutsideTheCapacityDoNotExist := by
  intro s turns a c b
  refine ⟨fun hcap hh => ⟨fun hout => ?_, fun hin hp => ?_⟩, fun hcap hh => ⟨fun hout => ?_, fun hin => ?_⟩,
    fun hcap hh herr hlen => ⟨fun hout => ?_, fun hin => ?_⟩⟩
  · have hfit : fits s.capIn (a + 1) = false := by rw [hcap, fits_some_eq_false]; omega
    exact (step_of_turn hh).trans (hostWriteIn_of_not_fits b hfit)
  · have hfit : fits s.capIn (a + 1) = true := by rwa [hcap, fits_some]
    obtain ⟨t, ht, -⟩ := (hostWritesOfIn s turns a b hh hfit).2 (.inl hp)
    exact ⟨t, ht⟩
  · have hfit : fits s.capOut (a + 1) = false := by rw [hcap, fits_some_eq_false]; omega
    exact (step_of_turn hh).trans (hostReadOut_of_not_fits hfit)
  · have hfit : fits s.capOut (a + 1) = true := by rwa [hcap, fits_some]
    exact ⟨_, (step_of_turn hh).trans (hostReadOut_of_fits hfit)⟩
  · have hfit : fits s.capIn s.olen.toNat = false := by rwa [hcap, fits_some_eq_false]
    exact (step_of_turn hh).trans (hostMove_of_not_fits herr hlen hfit)
  · have hfit : fits s.capIn s.olen.toNat = true := by rwa [hcap, fits_some]
    exact ⟨_, (step_of_turn hh).trans (hostMove_of_fits herr hlen hfit)⟩

/-! ## Reads while an operation runs -/

/-- While `BUSY` the invariant keeps `ERR` and `OLEN` cleared (10_state.md R23, R25, R26). -/
theorem MachineInv.status_of_busy {s : State} (hinv : MachineInv s) (hp : s.phase = .busy) :
    s.err = .ok ∧ s.olen = 0 := by
  obtain ⟨-, -, -, hphase⟩ := hinv
  rw [PhaseInv, hp] at hphase
  obtain ⟨herr, holen, -⟩ := hphase
  exact ⟨herr, holen⟩

/-- Settles O49: the host's reads return the status registers (O48), which the invariant fixes while `BUSY`. -/
theorem readsWhileBusy : Obligations.ReadsWhileBusy := by
  intro s turns hinv hp
  obtain ⟨herr, holen⟩ := hinv.status_of_busy hp
  obtain ⟨readPhase, readErr, readOlen, -⟩ := collectReadsTheResult s turns
  refine ⟨fun hh => ?_, fun hh => ?_, fun hh => ?_⟩
  · obtain ⟨v, hstep, -, hbusy, -⟩ := readPhase hh
    exact ⟨_, hstep, by rw [hbusy hp], rfl⟩
  · obtain ⟨v, hstep, hok, -⟩ := readErr hh
    exact ⟨_, hstep, by rw [hok herr], rfl⟩
  · exact ⟨_, readOlen hh, by rw [holen], rfl⟩

end Sys2Proof.Machine
end

section
/-! SUPPORT. The decoder and the encoder of the opcode table, format by format: the words of each format, and that
decoding and encoding invert each other (30_encoding.md R80, R86, R87, R90, R91, R93). -/

namespace Sys2Proof.Machine

/-! ## The tables -/

/-- Settles O1: the 85 rows of the alphabet, each against the closed form of R86. -/
theorem alphabetClosedForm : Obligations.AlphabetClosedForm := by
  unfold Obligations.AlphabetClosedForm
  decide

/-- Settles O2: the two tables undo each other; the valid codes are found among the 256 bytes. -/
theorem romDIsTheInverseOfRomA : Obligations.RomDIsTheInverseOfRomA :=
  ⟨fun _ d => ⟨romA_of_romD, fun h => h ▸ romD_romA d⟩, by decide⟩

/-! ## Commands -/

@[simp] theorem format_selected : ∀ op, (selected op).format = .cmd := by decide

@[simp] theorem wellFormed_selected : ∀ op, (selected op).wellFormed = true := by decide

@[simp] theorem encode_selected : ∀ op, encode (selected op) = [op.setWidth 8] := by decide

/-- A byte is a command exactly when it is a value of `OP`, and then it is the command `OP` selects (R80, R96). -/
theorem decodeCmd_eq_instr_iff (b : Byte) (r rest : List Byte) (i : Instr) :
    decodeCmd b r = .instr i rest ↔ ∃ op, i = selected op ∧ b = op.setWidth 8 ∧ r = rest := by
  constructor
  · intro h
    unfold decodeCmd at h
    split at h
    · next hb => cases h; exact ⟨0, rfl, hb, rfl⟩
    · split at h
      · next hb => cases h; exact ⟨1, rfl, hb, rfl⟩
      · split at h
        · next hb => cases h; exact ⟨2, rfl, hb, rfl⟩
        · split at h
          · next hb => cases h; exact ⟨3, rfl, hb, rfl⟩
          · cases h
  · rintro ⟨op, rfl, rfl, rfl⟩
    obtain rfl | rfl | rfl | rfl := op_cases op <;> rfl

/-! ## Headers -/

/-- Byte 0 alone decides the form of a header (R93): a short length other than 0, or the sentinel and the eight bytes
of a long length. -/
theorem decodeHdr_eq_instr_iff (b : Byte) (r rest : List Byte) (i : Instr) :
    decodeHdr b r = .instr i rest ↔
      (i = .hdrShort b ∧ b ≠ 0 ∧ r = rest) ∨
        ∃ hi lo, i = .hdrLong hi lo ∧ b = 0 ∧ r = unbe32 hi ++ unbe32 lo ++ rest := by
  constructor
  · intro h
    unfold decodeHdr at h
    split at h
    · next hb =>
      split at h
      · cases h
        exact .inr ⟨_, _, rfl, hb, by rw [unbe32_be32, unbe32_be32]; rfl⟩
      · cases h
    · next hb =>
      cases h
      exact .inl ⟨rfl, hb, rfl⟩
  · rintro (⟨rfl, hb, rfl⟩ | ⟨hi, lo, rfl, rfl, rfl⟩)
    · exact if_neg hb
    · have hhi := be32_of_unbe32 (v := hi) rfl
      have hlo := be32_of_unbe32 (v := lo) rfl
      simp only [decodeHdr, unbe32, List.cons_append, List.nil_append, if_true, hhi, hlo]

/-! ## Characters -/

/-- The row of a digit is the one `Instr.sym` lists at it. -/
theorem eq_sym_of_digit {i : Instr} {d : Digit} (h : i.digit? = some d) : i = .sym d := by
  cases i <;> simp [Instr.digit?] at h <;> subst h <;> rfl

@[simp] theorem format_sym : ∀ d, (Instr.sym d).format = .sym := by decide

@[simp] theorem wellFormed_sym : ∀ d, (Instr.sym d).wellFormed = true := by decide

@[simp] theorem encode_sym : ∀ d, encode (.sym d) = [romA d] := by decide

/-- A byte is a character exactly when it is the code of a digit, and then it is that digit's row (R86, R87). -/
theorem decodeSym_eq_instr_iff (c : Byte) (r rest : List Byte) (i : Instr) :
    decodeSym c r = .instr i rest ↔ ∃ d, i = .sym d ∧ c = romA d ∧ r = rest := by
  constructor
  · intro h
    unfold decodeSym at h
    split at h
    · next d hd =>
      cases h
      exact ⟨d, rfl, (romA_of_romD hd).symm, rfl⟩
    · cases h
  · rintro ⟨d, rfl, rfl, rfl⟩
    rw [decodeSym, romD_romA]

/-! ## All formats -/

/-- Settles O5: a row is a command, a header or a character, and the decoder of its format answers it on its word. -/
theorem decodeInvertsEncode : Obligations.DecodeInvertsEncode := by
  intro i rest hwf
  obtain ⟨op, rfl⟩ | ⟨hi, lo, rfl⟩ | ⟨n, rfl⟩ | ⟨d, hd⟩ := instr_cases i
  · rw [format_selected, encode_selected]
    exact (decodeCmd_eq_instr_iff _ _ _ _).mpr ⟨op, rfl, rfl, rfl⟩
  · exact (decodeHdr_eq_instr_iff _ _ _ _).mpr (.inr ⟨hi, lo, rfl, rfl, rfl⟩)
  · have hn : n ≠ 0 := by simpa [Instr.wellFormed] using hwf
    exact (decodeHdr_eq_instr_iff _ _ _ _).mpr (.inl ⟨rfl, hn, rfl⟩)
  · obtain rfl := eq_sym_of_digit hd
    rw [format_sym, encode_sym]
    exact (decodeSym_eq_instr_iff _ _ _ _).mpr ⟨d, rfl, rfl, rfl⟩

/-- Settles O6: what the decoder of each format answers is a row of that format, and the bytes are its word. -/
theorem encodeInvertsDecode : Obligations.EncodeInvertsDecode := by
  intro f bytes rest i h
  cases bytes with
  | nil => cases h
  | cons b r =>
    cases f with
    | cmd =>
      obtain ⟨op, rfl, rfl, rfl⟩ := (decodeCmd_eq_instr_iff _ _ _ _).mp h
      simp
    | hdr =>
      obtain ⟨rfl, hb, rfl⟩ | ⟨hi, lo, rfl, rfl, rfl⟩ := (decodeHdr_eq_instr_iff _ _ _ _).mp h
      · exact ⟨rfl, by simpa [Instr.wellFormed] using hb, rfl⟩
      · exact ⟨rfl, rfl, rfl⟩
    | sym =>
      obtain ⟨d, rfl, rfl, rfl⟩ := (decodeSym_eq_instr_iff _ _ _ _).mp h
      simp

/-- Settles O3: a value of `OP` decodes to the command it selects; its two bits over the four values. -/
theorem opSelectsTheCommand : Obligations.OpSelectsTheCommand := by
  intro op
  have hbits : ∀ op, (decodes op = true ↔ selected op = .bdec ∨ selected op = .fdec) ∧
      (framed op = true ↔ selected op = .fenc ∨ selected op = .fdec) := by decide
  exact ⟨(decodeCmd_eq_instr_iff _ _ _ _).mpr ⟨op, rfl, rfl, rfl⟩, format_selected op, hbits op⟩

/-- Settles O4, by running the decoder on each word. -/
theorem sampleWordsDecode : Obligations.SampleWordsDecode := by
  unfold Obligations.SampleWordsDecode
  decide

/-! ## The meaning of a character -/

/-- The accumulation on the whole 33-bit register, where it may wrap around (R85, 41_dec85.md R125). -/
theorem accumulate_toNat_mod (v : BitVec 33) (d : Digit) :
    (accumulate v d).toNat = (v.toNat * 85 + d.val) % 2 ^ 33 := by
  simp [accumulate, BitVec.toNat_add, BitVec.toNat_mul]

/-- Settles O23: every row of format `SYM` is `symbol` at its digit, which accumulates in the decode direction. -/
theorem characterAccumulatesItsDigit : Obligations.CharacterAccumulatesItsDigit := by
  intro s i d hd hdir
  have hexec := (exec_of_digit s hd).trans (symbol_of_decode d hdir)
  exact ⟨_, accumulate s.work.v d, hexec, accumulate_toNat_mod _ _, rfl⟩

end Sys2Proof.Machine
end

section
/-! SUPPORT. The script lines `LOAD`, `MOVE` and `CUT` of the host (30_encoding.md R98). -/

namespace Sys2Proof.Machine

/-! ## Runs of turns -/

/-- A run begins with the step of its first turn. -/
theorem runTurns_cons {turn : HostTurn} {turns : List HostTurn} {s t : State}
    (h : takeTurn turn { s with host := turns } = .next { t with host := turns }) :
    runTurns s (turn :: turns) = runTurns t turns :=
  run_succ h

/-- A host write of a cell of `IN` that exists completes between operations (10_state.md R36). -/
theorem hostWriteIn_of_not_busy {a : Nat} {s : State} (b : Byte) (hp : s.phase ≠ .busy)
    (h : fits s.capIn (a + 1) = true) : hostWriteIn a b s = .next { s with inp := s.inp.write a b } := by
  simp [hostWriteIn, h, hp]

/-- Writing cells one turn after another is one run of writes. -/
theorem runTurns_writeInTurns (turns : List HostTurn) (bytes : List Byte) (a : Nat) (s : State)
    (hp : s.phase ≠ .busy) (hfit : fits s.capIn (a + bytes.length) = true) :
    runTurns s (writeInTurns a bytes ++ turns) = runTurns { s with inp := s.inp.writeCells a bytes } turns := by
  induction bytes generalizing a s with
  | nil => rfl
  | cons b bs ih =>
    rw [List.length_cons] at hfit
    have hcell : fits s.capIn (a + 1) = true := fits_mono hfit (by omega)
    calc runTurns s (writeInTurns a (b :: bs) ++ turns)
      _ = runTurns { s with inp := s.inp.write a b } (writeInTurns (a + 1) bs ++ turns) :=
        runTurns_cons (hostWriteIn_of_not_busy (s := { s with host := _ }) b hp hcell)
      _ = runTurns { s with inp := s.inp.writeCells a (b :: bs) } turns :=
        ih (a + 1) { s with inp := s.inp.write a b } hp (fits_mono hfit (by omega))

/-- `LOAD` between operations, of bytes that `IN` holds (R98). -/
theorem runTurns_loadTurns {s : State} {bytes : List Byte} (hp : s.phase ≠ .busy)
    (hfit : fits s.capIn bytes.length = true) :
    runTurns s (loadTurns bytes) = .next { s with
      host := [], ilen := BitVec.ofNat 64 bytes.length, inp := s.inp.writeCells 0 bytes } :=
  runTurns_writeInTurns _ bytes 0 s hp (by rwa [Nat.zero_add])

/-- Cells written from index 0 on leave those behind them alone. -/
theorem read_writeCells_zero_of_le (m : Memory) {bytes : List Byte} {a : Nat} (h : bytes.length ≤ a) :
    (m.writeCells 0 bytes).read a = m.read a := by
  rw [Memory.read_writeCells, if_neg (by omega)]

/-- Settles O47: the turns of `LOAD` write the cells one by one, by induction on the bytes, and then `ILEN`. -/
theorem loadWritesTheInput : Obligations.LoadWritesTheInput := by
  intro s bytes hp hfit hlen
  have hcount : (BitVec.ofNat 64 bytes.length).toNat = bytes.length :=
    (BitVec.toNat_ofNat _ _).trans (Nat.mod_eq_of_lt hlen)
  exact ⟨_, runTurns_loadTurns hp hfit, hcount, Memory.readCells_writeCells _ _ _,
    fun _ ha => read_writeCells_zero_of_le _ ha, rfl⟩

/-! ## `MOVE` and `CUT` -/

/-- The cells of a delivered result, as `MOVE` reads them. -/
theorem map_outCell_of_delivers {s : State} {bytes : List Byte} (hd : Delivers bytes s) :
    (List.range s.olen.toNat).map (outCell s) = bytes := by
  obtain ⟨-, -, hlen, -⟩ := id hd
  refine List.ext_getElem (by simp [hlen]) fun a _ ha => ?_
  simpa using outCell_of_delivers hd (List.getElem?_eq_getElem ha)

/-- `MOVE` of a delivered result that `IN` holds. -/
theorem hostMove_of_delivers {s : State} {bytes : List Byte} (hd : Delivers bytes s) (hlen : bytes.length < 2 ^ 64)
    (hfit : fits s.capIn bytes.length = true) :
    hostMove s = .next { s with
      inp := s.inp.writeCells 0 bytes, ilen := s.olen.setWidth 64, draws := s.draws + 1 } := by
  obtain ⟨-, herr, holen, -⟩ := id hd
  rw [hostMove_of_fits herr (by omega) (by rwa [holen]), map_outCell_of_delivers hd]

/-- `MOVE` where there is nothing to copy. -/
theorem hostMove_of_olen_zero {s : State} (herr : s.err = .ok) (holen : s.olen = 0) :
    hostMove s = .next { s with ilen := 0, draws := s.draws + 1 } := by
  rw [hostMove_of_fits herr (by simp [holen]) (by simp [holen]), holen]
  rfl

/-- `MOVE` after an error, or of a result too long for `ILEN`, is refused (log 20). -/
theorem hostMove_of_not_legal {s : State} (h : s.err ≠ .ok ∨ 2 ^ 64 ≤ s.olen.toNat) :
    hostMove s = .refused .moveNotLegal :=
  if_neg fun ⟨herr, hlen⟩ => h.elim (fun hne => hne herr) (by omega)

theorem hostCut_of_le {k : Nat} {s : State} (h : k ≤ s.ilen.toNat) :
    hostCut k s = .next { s with ilen := s.ilen - BitVec.ofNat 64 k } :=
  if_pos h

theorem hostCut_of_lt {k : Nat} {s : State} (h : s.ilen.toNat < k) :
    hostCut k s = .next { s with ilen := Config.cutIlen s.draws, draws := s.draws + 1 } :=
  if_neg (by omega)

theorem toNat_sub_ofNat {n : Len} {k : Nat} (h : k ≤ n.toNat) : (n - BitVec.ofNat 64 k).toNat = n.toNat - k := by
  have hk : (BitVec.ofNat 64 k).toNat = k := (BitVec.toNat_ofNat _ _).trans (Nat.mod_eq_of_lt (by omega))
  rw [BitVec.toNat_sub_of_le (by rw [BitVec.le_def, hk]; exact h), hk]

/-- Settles O52: `MOVE` of a result, of nothing and out of its condition, and `CUT` within `ILEN` and beyond it. -/
theorem moveAndCut : Obligations.MoveAndCut := by
  refine ⟨fun s bytes turns hd hlen hfit hh => ?_, fun s turns herr holen hh => ?_, fun s turns h hh => ?_,
    fun s k turns hh => ⟨fun hk => ?_, fun hk => ?_⟩⟩
  · obtain ⟨-, -, holen, -⟩ := id hd
    have hmove : hostMove { s with host := turns } = .next _ := hostMove_of_delivers hd hlen hfit
    have hilen : (s.olen.setWidth 64).toNat = bytes.length := by
      rw [BitVec.toNat_setWidth, holen, Nat.mod_eq_of_lt hlen]
    exact ⟨_, (step_of_turn hh).trans hmove, hilen, Memory.readCells_writeCells _ _ _,
      fun _ ha => read_writeCells_zero_of_le _ ha, rfl⟩
  · exact (step_of_turn hh).trans (hostMove_of_olen_zero herr holen)
  · exact (step_of_turn hh).trans (hostMove_of_not_legal h)
  · exact ⟨_, toNat_sub_ofNat hk, (step_of_turn hh).trans (hostCut_of_le hk)⟩
  · exact ⟨_, (step_of_turn hh).trans (hostCut_of_lt hk)⟩

end Sys2Proof.Machine
end

section
/-! SUPPORT. ENC85 and the ends of the base commands (40_enc85.md, 41_dec85.md). -/

namespace Sys2Proof.Machine

/-! ## Ends of a command -/

theorem failsWith_raise (e : ErrCode) (s : State) : FailsWith e (raise e s) :=
  ⟨rfl, rfl, rfl, fun _ => rfl⟩

/-- A delivered result is all that `OUT` holds (10_state.md R31). -/
theorem read_out_of_delivers {bytes : List Byte} {t : State} (hd : Delivers bytes t) (a : Nat) :
    t.out.read a = bytes[a]? := by
  obtain ⟨-, -, -, hread, hnone⟩ := hd
  by_cases ha : a < bytes.length
  · simpa using ((Memory.readCells_eq_some_iff _ _ _ _).mp hread).2 a ha
  · rw [hnone a (by omega), List.getElem?_eq_none (by omega)]

/-- A command whose store is there and whose output fits delivers its result. -/
theorem exec_delivers_of_output {s : State} {xs bytes : List Byte} (op : BitVec 2) (hin : HasInput s xs)
    (hstore : fits s.capT (storeNeeded op s.work.ilenl) = true)
    (hresult : commandResult op s.work.ilenl xs s.draws = .ok bytes) (hfits : fits s.capOut bytes.length = true)
    (hlen : bytes.length < 2 ^ 65) :
    ∃ t, exec (selected op) s = .next t ∧ KeepsInputs s t ∧ Delivers bytes t := by
  obtain ⟨d, hexec⟩ := exec_selected_of_input hin op
  rw [withStore_of_fits _ hstore, hresult] at hexec
  exact ⟨_, hexec.trans (deliver_of_fits hfits), keepsInputs_finished _ _, delivers_finished _ hlen⟩

/-! ## ENC85 -/

/-- Settles O8: the digits of the statement are `digitOf` at the five places. -/
theorem enc85Characters : Obligations.Enc85Characters := fun v =>
  ⟨digitOf v.toNat 0, digitOf v.toNat 1, digitOf v.toNat 2, digitOf v.toNat 3, digitOf v.toNat 4,
    digitOf_val _ 0, digitOf_val _ 1, digitOf_val _ 2, by simp, by simp, rfl⟩

/-- Every code of the alphabet is a 7-bit one (30_encoding.md R86). -/
theorem romA_bit7 : ∀ d : Digit, (romA d).getLsbD 7 = false := by decide

/-- A text is made of the codes of the alphabet (40_enc85.md R117). -/
theorem eq_romA_of_getElem?_encodeText {xs : List Byte} {a : Nat} {c : Byte} (h : (encodeText xs)[a]? = some c) :
    ∃ d, c = romA d := by
  have ha : a < (encodeText xs).length := (List.getElem?_eq_some_iff.mp h).1
  rw [length_encodeText] at ha
  rw [← Nat.div_add_mod a 5, getElem?_encodeText xs (a / 5) (a % 5) (by omega) (by omega)] at h
  exact ⟨_, (Option.some.inj h).symm⟩

/-- Settles O24: every row of format `SYM` is `symbol` at its digit, one write of `OUT` in the encode direction. -/
theorem characterIsWrittenToOut : Obligations.CharacterIsWrittenToOut := by
  intro s i d hd hdir
  have hexec := (exec_of_digit s hd).trans (symbol_of_encode d hdir)
  refine ⟨_, hexec, fun hfits => ?_, fun hfits => ?_, fun a ha => ?_, ?_⟩
  · simp [charIndex, hfits]
  · simp [charIndex, hfits]
  · rw [writeOut_out]
    split
    · exact Memory.read_write_of_ne _ _ _ _ ha
    · rfl
  · rw [writeOut_eq]

/-! ## The base commands -/

/-- Settles O11: the result of `BENC` is the text of its input, which is delivered. -/
theorem bencEncodesTheInput : Obligations.BencEncodesTheInput := by
  intro s xs hin hm hfits
  have hlen : (encodeText xs).length = s.work.ilenl.toNat / 4 * 5 := by rw [length_encodeText, hin.length]
  have hresult : commandResult 0 s.work.ilenl xs s.draws = .ok (encodeText xs) :=
    if_neg (Decidable.not_not.mpr hm)
  obtain ⟨t, hexec, hkeeps, hd⟩ :=
    exec_delivers_of_output 0 hin (fits_zero _) hresult (by rwa [hlen]) (by omega)
  have hread := read_out_of_delivers hd
  obtain ⟨hphase, herr, holen, -, hnone⟩ := hd
  refine ⟨t, hexec, hkeeps, hphase, herr, holen.trans hlen, fun i k hi hk => ?_, fun a c hc => ?_, fun a ha => ?_⟩
  · rw [hread, getElem?_encodeText xs i k hi hk]
  · obtain ⟨d, rfl⟩ := eq_romA_of_getElem?_encodeText ((hread a).symm.trans hc)
    exact romA_bit7 d
  · exact hnone a (holen ▸ ha)

/-- Settles O12: past `CAP_IN` the length check is the first thing either base command does. -/
theorem baseCommandsRejectOtherLengths : Obligations.BaseCommandsRejectOtherLengths := by
  intro s hcap
  exact ⟨fun hm => ⟨_, (withCapacity_of_fits _ hcap).trans (if_pos hm), keepsInputs_raise _ _, failsWith_raise _ _⟩,
    fun hm => ⟨_, (withCapacity_of_fits _ hcap).trans (if_pos hm), keepsInputs_raise _ _, failsWith_raise _ _⟩⟩

/-! ## The empty input -/

/-- Every command makes nothing of the empty input (40_enc85.md R115, 41_dec85.md R131, 44_frame.md R171, R177). -/
theorem commandResult_zero (op : BitVec 2) (draw : Nat) : commandResult op 0 [] draw = .ok [] := by
  obtain rfl | rfl | rfl | rfl := op_cases op <;> rfl

/-- Settles O15: the empty input is written and needs no store, and the result of every command on it is empty. -/
theorem emptyInputIsNoError : Obligations.EmptyInputIsNoError := by
  intro s op h0
  have hin : HasInput s [] := by simp [HasInput, h0, Memory.readCells]
  refine exec_delivers_of_output op hin ?_ ?_ (fits_zero _) (by simp)
  · simp [storeNeeded, h0]
  · rw [h0]
    exact commandResult_zero op _

end Sys2Proof.Machine
end

section
/-! SUPPORT. DEC85, the inverse of ENC85, and `BDEC` group by group (41_dec85.md). -/

namespace Sys2Proof.Machine

/-! ## DEC85 -/

/-- The number that five digits spell, most significant first (30_encoding.md R85). -/
def digitsNumber (d0 d1 d2 d3 d4 : Digit) : Nat :=
  d0.val * 85 ^ 4 + d1.val * 85 ^ 3 + d2.val * 85 ^ 2 + d3.val * 85 + d4.val

theorem textNumber_of_digits {c0 c1 c2 c3 c4 : Byte} {d0 d1 d2 d3 d4 : Digit} (h0 : romD c0 = some d0)
    (h1 : romD c1 = some d1) (h2 : romD c2 = some d2) (h3 : romD c3 = some d3) (h4 : romD c4 = some d4) :
    textNumber [c0, c1, c2, c3, c4] 0 = some (digitsNumber d0 d1 d2 d3 d4) := by
  simp [textNumber, h0, h1, h2, h3, h4, digitsNumber]

/-- `DEC85` succeeds exactly on five characters of the alphabet whose digits spell a 32-bit number (R125 to R127). -/
theorem dec85_eq_some_iff_digits (c0 c1 c2 c3 c4 : Byte) (v : BitVec 32) :
    dec85 c0 c1 c2 c3 c4 = some v ↔ ∃ d0 d1 d2 d3 d4, romD c0 = some d0 ∧ romD c1 = some d1 ∧ romD c2 = some d2 ∧
      romD c3 = some d3 ∧ romD c4 = some d4 ∧ digitsNumber d0 d1 d2 d3 d4 = v.toNat := by
  rw [dec85_eq_some_iff c0 c1 c2 c3 c4 []]
  constructor
  · intro h
    unfold textNumber at h
    split at h
    · next d0 d1 d2 d3 d4 h0 h1 h2 h3 h4 => exact ⟨d0, d1, d2, d3, d4, h0, h1, h2, h3, h4, Option.some.inj h⟩
    · cases h
  · rintro ⟨d0, d1, d2, d3, d4, h0, h1, h2, h3, h4, hv⟩
    rw [textNumber_of_digits h0 h1 h2 h3 h4, hv]

/-- The five digits of a 32-bit number spell it. -/
theorem digitsNumber_digitOf {n : Nat} (h : n < 2 ^ 32) :
    digitsNumber (digitOf n 0) (digitOf n 1) (digitOf n 2) (digitOf n 3) (digitOf n 4) = n := by
  simp only [digitsNumber, digitOf_val]
  omega

/-- Five digits are the digits of the number they spell. -/
theorem digitOf_digitsNumber (d0 d1 d2 d3 d4 : Digit) :
    digitOf (digitsNumber d0 d1 d2 d3 d4) 0 = d0 ∧ digitOf (digitsNumber d0 d1 d2 d3 d4) 1 = d1 ∧
      digitOf (digitsNumber d0 d1 d2 d3 d4) 2 = d2 ∧ digitOf (digitsNumber d0 d1 d2 d3 d4) 3 = d3 ∧
      digitOf (digitsNumber d0 d1 d2 d3 d4) 4 = d4 := by
  have h0 := d0.isLt
  have h1 := d1.isLt
  have h2 := d2.isLt
  have h3 := d3.isLt
  have h4 := d4.isLt
  simp only [Fin.ext_iff, digitOf_val, digitsNumber]
  omega

/-- Settles O9: recognised characters spell the number of their digits, and a group fails by its number or by a
character that has none. -/
theorem dec85Accumulates : Obligations.Dec85Accumulates := by
  intro c0 c1 c2 c3 c4
  refine ⟨fun d0 d1 d2 d3 d4 h0 h1 h2 h3 h4 n hn => ?_, fun hnone => ?_⟩
  · have hnum : digitsNumber d0 d1 d2 d3 d4 = n := by rw [digitsNumber, hn]; omega
    have htext := textNumber_of_digits h0 h1 h2 h3 h4
    rw [hnum] at htext
    refine ⟨fun hlt => ?_, fun hge => ?_⟩
    · have hv : (BitVec.ofNat 32 n).toNat = n := (BitVec.toNat_ofNat _ _).trans (Nat.mod_eq_of_lt hlt)
      exact ⟨BitVec.ofNat 32 n, (dec85_eq_some_iff _ _ _ _ _ [] _).mpr (by rw [htext, hv]), hv⟩
    · refine (dec85_eq_none_iff c0 c1 c2 c3 c4 []).mpr fun v hv => ?_
      rwa [← Option.some.inj (htext.symm.trans hv)]
  · refine Option.eq_none_iff_forall_ne_some.mpr fun v hv => ?_
    obtain ⟨d0, d1, d2, d3, d4, h0, h1, h2, h3, h4, -⟩ := (dec85_eq_some_iff_digits _ _ _ _ _ _).mp hv
    simp [h0, h1, h2, h3, h4] at hnone

/-- `DEC85` succeeds with `v` exactly on the five characters of `v` (R128). -/
theorem dec85_eq_some_iff_enc85 (c0 c1 c2 c3 c4 : Byte) (v : BitVec 32) :
    dec85 c0 c1 c2 c3 c4 = some v ↔ enc85 v = [c0, c1, c2, c3, c4] := by
  rw [dec85_eq_some_iff_digits]
  constructor
  · rintro ⟨d0, d1, d2, d3, d4, h0, h1, h2, h3, h4, hv⟩
    obtain ⟨k0, k1, k2, k3, k4⟩ := digitOf_digitsNumber d0 d1 d2 d3 d4
    rw [enc85, ← hv, k0, k1, k2, k3, k4, romA_of_romD h0, romA_of_romD h1, romA_of_romD h2, romA_of_romD h3,
      romA_of_romD h4]
  · intro h
    simp only [enc85, List.cons.injEq, and_true] at h
    obtain ⟨rfl, rfl, rfl, rfl, rfl⟩ := h
    exact ⟨_, _, _, _, _, romD_romA _, romD_romA _, romD_romA _, romD_romA _, romD_romA _,
      digitsNumber_digitOf v.isLt⟩

/-- Settles O10: the two directions of `dec85_eq_some_iff_enc85`. -/
theorem dec85InvertsEnc85 : Obligations.Dec85InvertsEnc85 :=
  ⟨fun v c0 c1 c2 c3 c4 => (dec85_eq_some_iff_enc85 c0 c1 c2 c3 c4 v).mpr,
    fun v c0 c1 c2 c3 c4 => (dec85_eq_some_iff_enc85 c0 c1 c2 c3 c4 v).mp⟩

/-- No digit has the code of an unrecognised character (30_encoding.md R87, R88). -/
theorem romD_eq_none {c : Byte} (h : ∀ d : Digit, romA d ≠ c) : romD c = none :=
  Option.eq_none_iff_forall_ne_some.mpr fun d hd => h d (romA_of_romD hd)

/-- An unrecognised character is no word (R126). -/
theorem fetchSymbol_of_unrecognised {s : State} {c : Byte} (hdir : decodes s.work.opl = true)
    (hread : s.inp.read (charIndex s) = some c) (hc : romD c = none) : fetchSymbol s = .error .encodingFailure := by
  simp only [fetchSymbol, hdir, if_true, hread, decode, decodeSym, hc]
  rfl

/-- Settles O25: the character is no word, so the step of the block raises its error. -/
theorem unrecognisedCharacterEndsTheOperation : Obligations.UnrecognisedCharacterEndsTheOperation := by
  intro s c hp hh hs hk hdir hread hc
  have hword : wordHere true s = some (fetchSymbol s) := by simp only [wordHere, hs, hk, if_true]
  have hblock : blockStep true s = .next (raise .encodingFailure s) := by
    rw [blockStep_of_busy true hp, hword, fetchSymbol_of_unrecognised hdir hread (romD_eq_none hc)]
    rfl
  exact ⟨_, (step_of_no_turn hh).trans hblock, keepsInputs_raise _ _, failsWith_raise _ _⟩

/-! ## `BDEC` -/

theorem commandResult_benc {n : Len} (xs : List Byte) (draw : Nat) (h : n.toNat % 4 = 0) :
    commandResult 0 n xs draw = .ok (encodeText xs) :=
  if_neg (Decidable.not_not.mpr h)

/-- `BDEC` on whole groups is the group loop (R129, R132). -/
theorem commandResult_bdec {n : Len} (text : List Byte) (draw : Nat) (h : n.toNat % 5 = 0) :
    commandResult 1 n text draw = (decodeText text).elim (.error .encodingFailure) .ok := by
  cases hd : decodeText text <;> simp [commandResult, framed, decodes, h, hd]

/-- A command whose store is there and whose result is an error ends with that error. -/
theorem exec_fails_of_error {s : State} {xs : List Byte} {e : ErrCode} (op : BitVec 2) (hin : HasInput s xs)
    (hstore : fits s.capT (storeNeeded op s.work.ilenl) = true)
    (hresult : commandResult op s.work.ilenl xs s.draws = .error e) :
    ∃ t, exec (selected op) s = .next t ∧ KeepsInputs s t ∧ FailsWith e t := by
  obtain ⟨d, hexec⟩ := exec_selected_of_input hin op
  rw [withStore_of_fits _ hstore, hresult] at hexec
  exact ⟨_, hexec, keepsInputs_raise _ _, failsWith_raise _ _⟩

/-- A command ends with an error code only if that is its result. -/
theorem commandResult_of_err {s t : State} {xs : List Byte} {op : BitVec 2} (hin : HasInput s xs)
    (h : exec (selected op) s = .next t) (herr : t.err ≠ .ok) :
    commandResult op s.work.ilenl xs s.draws = .error t.err := by
  obtain ⟨d, hexec⟩ := exec_selected_of_input hin op
  obtain ⟨-, hc⟩ := (withStore_eq_next_iff _ _ _ _).mp (hexec.symm.trans h)
  cases hr : commandResult op s.work.ilenl xs s.draws with
  | error e =>
    rw [hr] at hc
    cases hc
    rfl
  | ok bytes =>
    rw [hr] at hc
    obtain ⟨-, rfl⟩ := (deliver_eq_next_iff _ _ _).mp hc
    exact absurd rfl herr

/-- Settles O13: the group loop succeeds, and its bytes are delivered. -/
theorem bdecDecodesTheInput : Obligations.BdecDecodesTheInput := by
  intro s text bytes hin hm hdec hfits
  have hl := hin.length
  have hb := (decodeText_eq_some_iff text bytes (by omega)).mpr hdec
  have hresult : commandResult 1 s.work.ilenl text s.draws = .ok bytes := by rw [commandResult_bdec _ _ hm, hb]; rfl
  obtain ⟨hlen, -⟩ := hdec
  obtain ⟨t, hexec, hkeeps, hd⟩ := exec_delivers_of_output 1 hin (fits_zero _) hresult hfits (by omega)
  obtain ⟨-, -, holen, -⟩ := id hd
  exact ⟨t, hexec, hkeeps, hd, by rw [holen, hlen, hl]⟩

/-- Settles O14: the group loop fails exactly when a group does, and on whole groups `BDEC` has no other error. -/
theorem bdecFailsExactlyOnAFailingGroup : Obligations.BdecFailsExactlyOnAFailingGroup := by
  intro s text hin hm
  have hgroup := decodeText_eq_none_iff text (by rw [hin.length]; exact hm)
  have hresult := commandResult_bdec text s.draws hm
  refine ⟨fun hfail => ?_, fun t hexec herr => ?_⟩
  · rw [hgroup.mpr hfail] at hresult
    exact exec_fails_of_error 1 hin (fits_zero _) hresult
  · rw [commandResult_of_err (op := 1) hin hexec herr] at hresult
    cases hd : decodeText text with
    | none =>
      rw [hd] at hresult
      exact ⟨Except.error.inj hresult, hgroup.mp hd⟩
    | some bytes => rw [hd] at hresult; cases hresult

end Sys2Proof.Machine
end

section
/-! SUPPORT. One command, `MOVE`, and another command: what the two deliver together, and the round trip of the base
layer (30_encoding.md R98, 41_dec85.md R134). -/

namespace Sys2Proof.Machine

/-! ## The group loops undo each other -/

/-- The decoder's loop on a text that begins with an encoded group. -/
theorem decodeText_enc85_append (v : BitVec 32) (text : List Byte) :
    decodeText (enc85 v ++ text) = (decodeText text).map (unbe32 v ++ ·) := by
  have hv : dec85 (romA (digitOf v.toNat 0)) (romA (digitOf v.toNat 1)) (romA (digitOf v.toNat 2))
      (romA (digitOf v.toNat 3)) (romA (digitOf v.toNat 4)) = some v := (dec85_eq_some_iff_enc85 _ _ _ _ _ v).mpr rfl
  simp only [enc85, List.cons_append, List.nil_append, decodeText, hv]
  cases decodeText text <;> rfl

/-- Decoding the text of whole groups gives them back, group by group. -/
theorem decodeText_encodeText : ∀ xs : List Byte, xs.length % 4 = 0 → decodeText (encodeText xs) = some xs
  | [], _ => rfl
  | [_], h => by simp at h
  | [_, _], h => by simp at h
  | [_, _, _], h => by simp at h
  | b0 :: b1 :: b2 :: b3 :: rest, h => by
    have ih := decodeText_encodeText rest (by simp only [List.length_cons] at h; omega)
    rw [encodeText, decodeText_enc85_append, ih, unbe32_be32]
    rfl

/-- Encoding what a text decodes to gives the text back, group by group. -/
theorem encodeText_of_decodeText : ∀ text bytes : List Byte, text.length % 5 = 0 → decodeText text = some bytes →
    encodeText bytes = text
  | [], _, _, h => by cases h; rfl
  | [_], _, hm, _ => by simp at hm
  | [_, _], _, hm, _ => by simp at hm
  | [_, _, _], _, hm, _ => by simp at hm
  | [_, _, _, _], _, hm, _ => by simp at hm
  | c0 :: c1 :: c2 :: c3 :: c4 :: rest, bytes, hm, h => by
    rw [decodeText] at h
    split at h
    · next v ys hv hys =>
      cases h
      have ih := encodeText_of_decodeText rest ys (by simp only [List.length_cons] at hm; omega) hys
      calc encodeText (unbe32 v ++ ys)
        _ = enc85 v ++ encodeText ys := by
          rw [← be32_of_unbe32 (v := v) rfl, unbe32_be32]; rfl
        _ = c0 :: c1 :: c2 :: c3 :: c4 :: rest := by rw [(dec85_eq_some_iff_enc85 _ _ _ _ _ v).mp hv, ih]; rfl
    · cases h

/-! ## Commands in a script -/

/-- A script line of a command that is admitted and succeeds delivers its result (R98). -/
theorem runTurns_commandTurns {s : State} {xs bytes : List Byte} (op : BitVec 2) (turns : List HostTurn)
    (hready : ReadyWith s xs) (hstore : fits s.capT (storeNeeded op s.ilen) = true)
    (hresult : commandResult op s.ilen xs s.draws = .ok bytes) (hfits : fits s.capOut bytes.length = true)
    (hlen : bytes.length < 2 ^ 65) :
    ∃ t, runTurns s (commandTurns op ++ turns) = runTurns t turns ∧
      KeepsInputs { s with op := op, host := turns } t ∧ Delivers bytes t := by
  obtain ⟨hp, hinput⟩ := hready
  have hexec : ∀ h, ∃ t, exec (selected op) (latch { s with op := op, host := h }) = .next t ∧
      KeepsInputs { s with op := op, host := h } t ∧ Delivers bytes t := fun h =>
    exec_delivers_of_output (s := latch { s with op := op, host := h }) op hinput hstore hresult hfits hlen
  obtain ⟨u, hadmitted, -⟩ := hexec (.wait :: turns)
  obtain ⟨t, hrun, hkeeps, hd⟩ := hexec turns
  have hhost : { t with host := turns } = t := by
    obtain ⟨-, -, -, -, -, -, hh, -⟩ := hkeeps
    cases hh
    rfl
  have hwait : blockStep true (latch { s with op := op, host := turns }) = .next { t with host := turns } := by
    rw [hhost, ← hrun]
    exact blockStep_of_word rfl rfl (fetchCommand_eq _)
  refine ⟨t, ?_, hkeeps, hd⟩
  calc runTurns s (commandTurns op ++ turns)
    _ = runTurns { s with op := op } (.start :: .wait :: turns) := runTurns_cons rfl
    _ = runTurns (latch { s with op := op }) (.wait :: turns) := runTurns_cons (hostStart_of_step hp hadmitted)
    _ = runTurns t turns := runTurns_cons hwait

/-- After `MOVE` of a delivered result the next command finds it as its input (R98). -/
theorem runTurns_move {s : State} {bytes : List Byte} (turns : List HostTurn) (hd : Delivers bytes s)
    (hlen : bytes.length < 2 ^ 64) (hfit : fits s.capIn bytes.length = true) :
    ∃ t, runTurns s (.move :: turns) = runTurns t turns ∧ ReadyWith t bytes ∧ t.ilen.toNat = bytes.length ∧
      t.capOut = s.capOut ∧ t.capT = s.capT := by
  obtain ⟨hp, -, holen, -⟩ := id hd
  have hilen : (s.olen.setWidth 64).toNat = bytes.length := by
    rw [BitVec.toNat_setWidth, holen, Nat.mod_eq_of_lt hlen]
  refine ⟨_, runTurns_cons (t := { s with
    inp := s.inp.writeCells 0 bytes, ilen := s.olen.setWidth 64, draws := s.draws + 1 })
    (hostMove_of_delivers (s := { s with host := turns }) hd hlen hfit), ⟨?_, ?_, ?_⟩, hilen, rfl, rfl⟩
  · rw [hp]; decide
  · rwa [hilen]
  · rw [hilen]
    exact Memory.readCells_writeCells _ _ _

/-- Two commands with a `MOVE` between them deliver what the second makes of the result of the first. -/
theorem runTurns_command_move_command {s : State} {xs ys zs : List Byte} (op₁ op₂ : BitVec 2) (n : Len)
    (hready : ReadyWith s xs) (hstore₁ : fits s.capT (storeNeeded op₁ s.ilen) = true)
    (hresult₁ : commandResult op₁ s.ilen xs s.draws = .ok ys) (hfits₁ : fits s.capOut ys.length = true)
    (hn : n.toNat = ys.length) (hin : fits s.capIn ys.length = true)
    (hstore₂ : fits s.capT (storeNeeded op₂ n) = true)
    (hresult₂ : ∀ draw, commandResult op₂ n ys draw = .ok zs) (hfits₂ : fits s.capOut zs.length = true)
    (hlen : zs.length < 2 ^ 65) :
    ∃ t, runTurns s (commandTurns op₁ ++ [.move] ++ commandTurns op₂) = .next t ∧ Delivers zs t := by
  obtain ⟨t₁, hrun₁, ⟨-, -, -, hcapIn, hcapOut, hcapT, -, -⟩, hd₁⟩ :=
    runTurns_commandTurns op₁ (.move :: commandTurns op₂) hready hstore₁ hresult₁ hfits₁ (by omega)
  obtain ⟨t₂, hrun₂, hready₂, hilen, hout₂, ht₂⟩ :=
    runTurns_move (commandTurns op₂) hd₁ (by omega) (by rw [hcapIn]; exact hin)
  have hout : t₂.capOut = s.capOut := hout₂.trans hcapOut
  have ht : t₂.capT = s.capT := ht₂.trans hcapT
  obtain rfl : t₂.ilen = n := BitVec.eq_of_toNat_eq (hilen.trans hn.symm)
  obtain ⟨t, hrun, -, hd⟩ := runTurns_commandTurns op₂ [] hready₂ (by rwa [ht]) (hresult₂ _) (by rwa [hout]) hlen
  refine ⟨{ t with host := [] }, ?_, hd⟩
  calc runTurns s (commandTurns op₁ ++ [.move] ++ commandTurns op₂)
    _ = runTurns t₁ (.move :: commandTurns op₂) := hrun₁
    _ = runTurns t₂ (commandTurns op₂) := hrun₂
    _ = runTurns t [] := hrun

/-! ## The round trip of the base layer -/

theorem ReadyWith.length {s : State} {xs : List Byte} (h : ReadyWith s xs) : xs.length = s.ilen.toNat := by
  obtain ⟨-, -, hread⟩ := h
  exact Memory.length_readCells _ _ _ _ hread

theorem toNat_ofNat_length {xs : List Byte} (h : xs.length < 2 ^ 64) :
    (BitVec.ofNat 64 xs.length).toNat = xs.length :=
  (BitVec.toNat_ofNat _ _).trans (Nat.mod_eq_of_lt h)

/-- Settles O57: each command's result is a group loop, and the two loops undo each other. -/
theorem baseRoundTrip : Obligations.BaseRoundTrip := by
  refine ⟨fun s xs hready hm hlt hout hin => ?_, fun s text bytes hready hm hdec hout => ?_⟩
  · have hl := hready.length
    have htext := length_encodeText xs
    have hn := toNat_ofNat_length (xs := encodeText xs) (by omega)
    refine runTurns_command_move_command 0 1 _ hready (fits_zero _) (commandResult_benc xs _ (by omega))
      (by rwa [htext]) hn (by rwa [htext]) (fits_zero _) (fun draw => ?_) (fits_mono hout (by omega)) (by omega)
    rw [commandResult_bdec _ _ (by omega), decodeText_encodeText xs hm]
    rfl
  · have hl := hready.length
    have hb := (decodeText_eq_some_iff text bytes hm).mpr hdec
    obtain ⟨hbytes, -⟩ := hdec
    obtain ⟨-, hcap, -⟩ := id hready
    have hlt := s.ilen.isLt
    have hn := toNat_ofNat_length (xs := bytes) (by omega)
    have hresult : commandResult 1 s.ilen text s.draws = .ok bytes := by
      rw [commandResult_bdec _ _ (by omega), hb]; rfl
    refine runTurns_command_move_command 1 0 _ hready (fits_zero _) hresult (fits_mono hout (by omega)) hn
      (fits_mono hcap (by omega)) (fits_zero _) (fun draw => ?_) hout (by omega)
    rw [commandResult_benc _ _ (by omega), encodeText_of_decodeText text bytes hm hb]

end Sys2Proof.Machine
end

section
/-! SUPPORT. LHDR byte by byte: the two header forms, that reading a header undoes writing it, and the rows of format
`HDR` in both directions (42_lhdr.md, 44_frame.md R183). -/

namespace Sys2Proof.Machine

/-! ## Big-endian bytes -/

/-- Byte `j` of a 32-bit number, most significant first (00_scope.md R14). -/
theorem getElem?_unbe32 (v : BitVec 32) {j : Nat} (h : j < 4) :
    ∃ b : Byte, (unbe32 v)[j]? = some b ∧ b.toNat = v.toNat / 2 ^ (8 * (3 - j)) % 256 := by
  refine ⟨v.extractLsb' (8 * (3 - j)) 8, ?_, ?_⟩
  · match j, h with
    | 0, _ | 1, _ | 2, _ | 3, _ => rfl
  · rw [BitVec.extractLsb'_toNat, Nat.shiftRight_eq_div_pow]

theorem toNat_highHalf (n : Len) : (n.extractLsb' 32 32).toNat = n.toNat / 2 ^ 32 := by
  have hn := n.isLt
  rw [BitVec.extractLsb'_toNat, Nat.shiftRight_eq_div_pow, Nat.mod_eq_of_lt (by omega)]

theorem toNat_lowHalf (n : Len) : (n.extractLsb' 0 32).toNat = n.toNat % 2 ^ 32 := by
  rw [BitVec.extractLsb'_toNat, Nat.shiftRight_zero]

/-- Byte `j` of a 64-bit number whose high half comes first (20_memory.md R52). -/
theorem getElem?_unbe32_halves (n : Len) {j : Nat} (h : j < 8) :
    ∃ b : Byte, (unbe32 (n.extractLsb' 32 32) ++ unbe32 (n.extractLsb' 0 32))[j]? = some b ∧
      b.toNat = n.toNat / 2 ^ (8 * (7 - j)) % 256 := by
  by_cases hj : j < 4
  · obtain ⟨b, hb, hnat⟩ := getElem?_unbe32 (n.extractLsb' 32 32) hj
    refine ⟨b, by rwa [List.getElem?_append_left hj], ?_⟩
    rw [hnat, toNat_highHalf, Nat.div_div_eq_div_mul, ← Nat.pow_add, show 32 + 8 * (3 - j) = 8 * (7 - j) by omega]
  · obtain ⟨b, hb, hnat⟩ := getElem?_unbe32 (n.extractLsb' 0 32) (j := j - 4) (by omega)
    refine ⟨b, by rwa [List.getElem?_append_right (Nat.le_of_not_lt hj)], ?_⟩
    rw [hnat, toNat_lowHalf, show 3 - (j - 4) = 7 - j by omega]
    obtain rfl | rfl | rfl | rfl : j = 4 ∨ j = 5 ∨ j = 6 ∨ j = 7 := by omega
    all_goals omega

theorem be64_toNat (hi lo : BitVec 32) : (be64 hi lo).toNat = hi.toNat * 2 ^ 32 + lo.toNat := by
  rw [be64, BitVec.toNat_append, ← Nat.shiftLeft_add_eq_or_of_lt lo.isLt, Nat.shiftLeft_eq]

/-- `be64` puts the two halves of a length together again. -/
theorem be64_halves (n : Len) : be64 (n.extractLsb' 32 32) (n.extractLsb' 0 32) = n := by
  apply BitVec.eq_of_toNat_eq
  rw [be64_toNat, toNat_highHalf, toNat_lowHalf, Nat.div_add_mod']

/-! ## The two forms -/

theorem hdrenc_of_short {n : Len} (h : n.toNat ≤ 255) : hdrenc n = [n.setWidth 8] := if_pos h

theorem hdrenc_of_long {n : Len} (h : 255 < n.toNat) :
    hdrenc n = 0 :: (unbe32 (n.extractLsb' 32 32) ++ unbe32 (n.extractLsb' 0 32)) := if_neg (by omega)

theorem hdrdec_of_short {b0 : Byte} (rest : List Byte) (h : b0 ≠ 0) :
    hdrdec (b0 :: rest) = some (1, b0.setWidth 64) := if_pos h

theorem hdrdec_of_sentinel (rest : List Byte) : hdrdec (0 :: rest) = (longLength rest).map fun d => (9, d) := rfl

/-- The eight bytes of a long length are read as its two halves, whatever follows them (42_lhdr.md R144). -/
theorem longLength_unbe32_append (hi lo : BitVec 32) (rest : List Byte) :
    longLength (unbe32 hi ++ unbe32 lo ++ rest) = some (be64 hi lo) := by
  rw [← be32_of_unbe32 (v := hi) rfl, ← be32_of_unbe32 (v := lo) rfl, unbe32_be32, unbe32_be32]
  rfl

/-- A length byte is the length itself. -/
theorem toNat_setWidth_byte {n : Len} (h : n.toNat ≤ 255) : (n.setWidth 8).toNat = n.toNat := by
  rw [BitVec.toNat_setWidth, Nat.mod_eq_of_lt (by omega)]

/-- A byte read as a length is the same number. -/
theorem toNat_setWidth_len (b : Byte) : (b.setWidth 64).toNat = b.toNat := by
  have hb := b.isLt
  rw [BitVec.toNat_setWidth, Nat.mod_eq_of_lt (by omega)]

/-- Settles O16: each form is written out in `HDRENC`, and the bytes of the long one are those of its halves. -/
theorem hdrencForms : Obligations.HdrencForms := by
  refine fun n => ⟨fun h => ⟨_, hdrenc_of_short h, toNat_setWidth_byte h⟩, fun h => ?_⟩
  rw [hdrenc_of_long h]
  exact ⟨rfl, rfl, fun j hj => getElem?_unbe32_halves n hj⟩

/-- Settles O17: the form is byte 0, and eight more bytes are a long length or too few for one. -/
theorem hdrdecForms : Obligations.HdrdecForms := by
  refine fun b0 rest => ⟨fun h => ⟨_, hdrdec_of_short rest h, toNat_setWidth_len b0⟩, ?_, ?_⟩
  · rintro rfl hlen
    rw [hdrdec_of_sentinel, longLength_of_short hlen]
    rfl
  · rintro rfl hlen
    obtain ⟨d, hd, hnat⟩ := longLength_toNat hlen
    exact ⟨d, by rw [hdrdec_of_sentinel, hd]; rfl, hnat⟩

/-- Settles O18: a short length other than 0 is no sentinel, and the halves of a long length make it again. -/
theorem hdrdecInvertsHdrenc : Obligations.HdrdecInvertsHdrenc := by
  intro n rest hn
  by_cases h : n.toNat ≤ 255
  · have hbyte := toNat_setWidth_byte h
    have hne : n.setWidth 8 ≠ 0 := fun h0 => by
      rw [h0] at hbyte
      exact hn (BitVec.eq_of_toNat_eq hbyte.symm)
    have hback : (n.setWidth 8).setWidth 64 = n :=
      BitVec.eq_of_toNat_eq ((toNat_setWidth_len _).trans hbyte)
    rw [hdrenc_of_short h]
    calc hdrdec ([n.setWidth 8] ++ rest)
      _ = some (1, (n.setWidth 8).setWidth 64) := hdrdec_of_short rest hne
      _ = some (1, n) := by rw [hback]
  · rw [hdrenc_of_long (by omega)]
    calc hdrdec (0 :: (unbe32 (n.extractLsb' 32 32) ++ unbe32 (n.extractLsb' 0 32)) ++ rest)
      _ = some (9, be64 (n.extractLsb' 32 32) (n.extractLsb' 0 32)) := by
        rw [List.cons_append, hdrdec_of_sentinel, longLength_unbe32_append]; rfl
      _ = some (9, n) := by rw [be64_halves]

/-! ## The header rows in both directions -/

section Rows

variable {s : State}

theorem exec_hdrShort_of_encode (n : Byte) (h : decodes s.work.opl = false) :
    exec (.hdrShort n) s = putHeader [n] s := if_neg (by simp [h])

theorem exec_hdrShort_of_decode (n : Byte) (h : decodes s.work.opl = true) :
    exec (.hdrShort n) s = takeHeader 1 (n.setWidth 64) s := if_pos h

theorem exec_hdrLong_of_encode (hi lo : BitVec 32) (h : decodes s.work.opl = false) :
    exec (.hdrLong hi lo) s = putHeader (0 :: (unbe32 hi ++ unbe32 lo)) s := if_neg (by simp [h])

theorem exec_hdrLong_of_decode (hi lo : BitVec 32) (h : decodes s.work.opl = true) (hlen : 9 ≤ s.work.tlen.toNat) :
    exec (.hdrLong hi lo) s = takeHeader 9 (be64 hi lo) s := (if_pos h).trans (if_neg (by omega))

theorem exec_hdrLong_of_truncated (hi lo : BitVec 32) (h : decodes s.work.opl = true)
    (hlen : s.work.tlen.toNat < 9) : exec (.hdrLong hi lo) s = .next (raise .truncatedInput s) :=
  (if_pos h).trans (if_pos hlen)

end Rows

/-- Cells written from index 0 on hold the bytes written. -/
theorem read_writeCells_zero_of_lt (m : Memory) {bytes : List Byte} {a : Nat} (h : a < bytes.length) :
    (m.writeCells 0 bytes).read a = bytes[a]? := by
  rw [Memory.read_writeCells, if_pos (by omega), Nat.sub_zero]

/-- Settles O21: the header mux of `FENC` writes one cell of `T`, that of `FDEC` takes the byte as the length. -/
theorem hdrShortBothDirections : Obligations.HdrShortBothDirections := by
  intro s n
  refine ⟨fun h => ⟨_, exec_hdrShort_of_encode n h, ?_, fun a ha => ?_, rfl⟩,
    fun h => ⟨_, _, exec_hdrShort_of_decode n h, toNat_setWidth_len n, rfl⟩⟩
  · exact read_writeCells_zero_of_lt s.t (bytes := [n]) Nat.one_pos
  · exact read_writeCells_zero_of_le s.t ha

/-- Settles O22: the header mux of `FENC` writes the sentinel and the bytes of the two halves to `T`, that of `FDEC`
takes the halves as the length, unless `T` is too short for them. -/
theorem hdrLongBothDirections : Obligations.HdrLongBothDirections := by
  intro s hi lo
  have hread : ∀ a, a < 9 → (s.t.writeCells 0 (0 :: (unbe32 hi ++ unbe32 lo))).read a =
      (0 :: (unbe32 hi ++ unbe32 lo))[a]? := fun a ha => read_writeCells_zero_of_lt s.t ha
  refine ⟨fun h => ⟨_, exec_hdrLong_of_encode hi lo h, hread 0 (by omega), fun j hj => ?_, fun j hj => ?_,
      fun a ha => read_writeCells_zero_of_le s.t ha, rfl⟩,
    fun h hlen => ⟨_, _, exec_hdrLong_of_decode hi lo h hlen, be64_toNat hi lo, rfl⟩,
    fun h hlen => ⟨_, exec_hdrLong_of_truncated hi lo h hlen, keepsInputs_raise _ s, failsWith_raise _ s⟩⟩
  · obtain ⟨b, hb, hnat⟩ := getElem?_unbe32 hi hj
    refine ⟨b, (hread (1 + j) (by omega)).trans ?_, hnat⟩
    rw [Nat.add_comm, List.getElem?_cons_succ, List.getElem?_append_left hj, hb]
  · obtain ⟨b, hb, hnat⟩ := getElem?_unbe32 lo hj
    refine ⟨b, (hread (5 + j) (by omega)).trans ?_, hnat⟩
    rw [show 5 + j = 4 + j + 1 by omega, List.getElem?_cons_succ,
      List.getElem?_append_right (Nat.le_add_right 4 j), length_unbe32, Nat.add_sub_cancel_left, hb]

end Sys2Proof.Machine
end

section
/-! SUPPORT. PADC: the pad count, the cut of `STRIP`, and what the pad draw can change in the output of `FENC`
(43_padc.md). -/

namespace Sys2Proof.Machine

/-! ## The pad count and the cut -/

theorem padcalc_lt (total : Nat) : padcalc total < 4 := Nat.mod_lt _ (by decide)

theorem add_padcalc_mod (total : Nat) : (total + padcalc total) % 4 = 0 := by
  unfold padcalc
  omega

theorem padcalc_le_of_mod {total p : Nat} (h : (total + p) % 4 = 0) : padcalc total ≤ p := by
  unfold padcalc
  omega

/-- Both header lengths are 1 modulo 4, so behind a header the pad depends on the payload alone (R156). -/
theorem padcalc_add_of_mod {h : Nat} (n : Nat) (hh : h % 4 = 1) : padcalc (h + n) = 3 - n % 4 := by
  unfold padcalc
  omega

theorem length_hdrenc_mod (n : Len) : (hdrenc n).length % 4 = 1 := by
  rw [length_hdrenc]
  split <;> rfl

/-- Settles O19: `PADCALC` fills up to the next multiple of 4, and both header lengths are 1 modulo 4. -/
theorem padcalcIsTheLeastPad : Obligations.PadcalcIsTheLeastPad := fun total =>
  ⟨rfl, add_padcalc_mod total, fun _ => padcalc_le_of_mod,
    fun n => ⟨padcalc_add_of_mod n rfl, padcalc_add_of_mod n rfl⟩⟩

/-- Settles O20: the test is the sum's on natural numbers, and past it the slice lies within the buffer. -/
theorem stripCutsTheDeclaredPayload : Obligations.StripCutsTheDeclaredPayload := by
  refine fun buffer h d => ⟨fun hlong => if_pos hlong, fun hle => ⟨_, if_neg (by omega), ?_, fun i hi => ?_⟩⟩
  · rw [List.length_take, List.length_drop]
    omega
  · rw [List.getElem?_take_of_lt hi, List.getElem?_drop]

/-! ## The pad draw -/

/-- The text of the whole groups of a sequence stands at the start of the text of every longer one (R53). -/
theorem encodeText_prefix_append (ys : List Byte) : ∀ xs : List Byte, encodeText xs <+: encodeText (xs ++ ys)
  | [] | [_] | [_, _] | [_, _, _] => List.nil_prefix
  | _ :: _ :: _ :: _ :: rest => (List.prefix_append_right_inj _).mpr (encodeText_prefix_append ys rest)

theorem getElem?_encodeText_append {xs : List Byte} (ys : List Byte) {a : Nat} (h : a < xs.length / 4 * 5) :
    (encodeText (xs ++ ys))[a]? = (encodeText xs)[a]? := by
  obtain ⟨tail, htail⟩ := encodeText_prefix_append ys xs
  rw [← htail, List.getElem?_append_left (by rwa [length_encodeText])]

theorem commandResult_fenc {n : Len} (xs : List Byte) (draw : Nat) (h : n ≠ 0) :
    commandResult 2 n xs draw = .ok (encodeText (assemble xs n draw)) :=
  if_neg fun hzero => h hzero.2

/-- The pad is less than a group, so every character before the last group is one of `header ++ payload` (R163). -/
theorem getElem?_encodeText_assemble {xs : List Byte} {n : Len} {draw a : Nat}
    (h : a + 5 < (encodeText (assemble xs n draw)).length) (hxs : xs.length = n.toNat) :
    (encodeText (assemble xs n draw))[a]? = (encodeText (hdrenc n ++ xs))[a]? := by
  refine getElem?_encodeText_append _ ?_
  have hpad := padcalc_lt ((hdrenc n).length + n.toNat)
  rw [length_encodeText, length_assemble draw hxs] at h
  rw [List.length_append, hxs]
  omega

/-- Without a pad the buffer does not depend on the draw (R156). -/
theorem assemble_of_no_pad {n : Len} (xs : List Byte) (draw : Nat) (h : n.toNat % 4 = 3) :
    assemble xs n draw = hdrenc n ++ xs := by
  have hpad : padcalc ((hdrenc n).length + n.toNat) = 0 := by
    rw [padcalc_add_of_mod _ (length_hdrenc_mod n), h]
  simp [assemble, hpad, padBytes]

/-- The two results of a `FENC` under two draws: texts of one length that differ in the last group at most, and not at
all without a pad. -/
theorem commandResult_fenc_draws {n : Len} {xs : List Byte} (d₁ d₂ : Nat) (hxs : xs.length = n.toNat) :
    ∃ text₁ text₂, commandResult 2 n xs d₁ = .ok text₁ ∧ commandResult 2 n xs d₂ = .ok text₂ ∧
      text₁.length = text₂.length ∧ (∀ a, a + 5 < text₁.length → text₁[a]? = text₂[a]?) ∧
      (n.toNat % 4 = 3 → text₁ = text₂) := by
  by_cases h0 : n = 0
  · subst h0
    exact ⟨[], [], rfl, rfl, rfl, fun _ _ => rfl, fun _ => rfl⟩
  · have hlen : (encodeText (assemble xs n d₁)).length = (encodeText (assemble xs n d₂)).length := by
      rw [length_encodeText, length_encodeText, length_assemble d₁ hxs, length_assemble d₂ hxs]
    refine ⟨_, _, commandResult_fenc xs d₁ h0, commandResult_fenc xs d₂ h0, hlen, fun a ha => ?_, fun h3 => ?_⟩
    · rw [getElem?_encodeText_assemble ha hxs, getElem?_encodeText_assemble (hlen ▸ ha) hxs]
    · rw [assemble_of_no_pad xs d₁ h3, assemble_of_no_pad xs d₂ h3]

/-- A command with a step whose result is no error ends with that result in `OUT`. -/
theorem output_of_commandResult {s t : State} {xs bytes : List Byte} {op : BitVec 2} (hin : HasInput s xs)
    (h : exec (selected op) s = .next t) (hresult : commandResult op s.work.ilenl xs s.draws = .ok bytes) :
    t.err = .ok ∧ t.olen = BitVec.ofNat 65 bytes.length ∧ ∀ a, t.out.read a = bytes[a]? := by
  obtain ⟨d, hexec⟩ := exec_selected_of_input hin op
  obtain ⟨-, hc⟩ := (withStore_eq_next_iff _ _ _ _).mp (hexec.symm.trans h)
  rw [hresult] at hc
  obtain ⟨-, rfl⟩ := (deliver_eq_next_iff _ _ _).mp hc
  exact ⟨rfl, rfl, read_delivered bytes⟩

/-- Settles O28: both outputs are results of `FENC`, and those differ in the last group at most. -/
theorem padDrawChangesOnlyTheLastGroup : Obligations.PadDrawChangesOnlyTheLastGroup := by
  intro s₁ s₂ t₁ t₂ xs hn hin₁ hin₂ hexec₁ hexec₂
  obtain ⟨text₁, text₂, hr₁, hr₂, hlen, hchars, hsame⟩ := commandResult_fenc_draws s₁.draws s₂.draws hin₁.length
  obtain ⟨herr₁, holen₁, hread₁⟩ := output_of_commandResult (op := 2) hin₁ hexec₁ hr₁
  obtain ⟨herr₂, holen₂, hread₂⟩ := output_of_commandResult (op := 2) hin₂ hexec₂ (hn ▸ hr₂)
  have hle : t₁.olen.toNat ≤ text₁.length := by
    rw [holen₁, BitVec.toNat_ofNat]
    exact Nat.mod_le _ _
  refine ⟨herr₁.trans herr₂.symm, by rw [holen₁, holen₂, hlen], fun a ha => ?_, fun h3 a => ?_⟩
  · rw [hread₁, hread₂, hchars a (by omega)]
  · rw [hread₁, hread₂, hsame h3]

end Sys2Proof.Machine
end

section
/-! SUPPORT. FRAME: what `FENC` assembles and what `FDEC` takes out of it, the ends of both, and the round trip of the
framed layer (44_frame.md). -/

namespace Sys2Proof.Machine

/-! ## The lengths of a `FENC` -/

/-- The cases of the closed form (R173). -/
theorem framedTextLength_cases (n : Nat) :
    (n = 0 ∧ framedTextLength n = 0) ∨ (0 < n ∧ n ≤ 255 ∧ framedTextLength n = 5 * (n / 4 + 1)) ∨
      (255 < n ∧ framedTextLength n = 5 * (n / 4 + 3)) := by
  unfold framedTextLength
  by_cases h0 : n = 0
  · exact .inl ⟨h0, if_pos h0⟩
  · rw [if_neg h0]
    by_cases h : n ≤ 255
    · exact .inr (.inl ⟨Nat.pos_of_ne_zero h0, h, if_pos h⟩)
    · exact .inr (.inr ⟨Nat.lt_of_not_le h, if_neg h⟩)

/-- Every group of the text of a `FENC` has five characters (R173). -/
theorem framedTextLength_mod (n : Nat) : framedTextLength n % 5 = 0 := by
  have hcases := framedTextLength_cases n
  omega

/-- A text is no shorter than its payload. -/
theorem le_framedTextLength (n : Nat) : n ≤ framedTextLength n := by
  have hcases := framedTextLength_cases n
  omega

theorem framedTextLength_lt {n : Nat} (h : n < 2 ^ 64) : framedTextLength n < 2 ^ 65 := by
  have hcases := framedTextLength_cases n
  omega

/-- `TLEN` of a `FENC` is four bytes for every five characters of its text (R170, R173). -/
theorem framedLength_eq_textLength {n : Len} (h : n ≠ 0) : framedLength n = framedTextLength n.toNat / 5 * 4 := by
  have hpos : n.toNat ≠ 0 := BitVec.toNat_ne.mp h
  rw [framedLength_eq, framedTextLength, if_neg hpos]
  split <;> omega

/-- The store that a `FENC` needs, the empty one included (10_state.md R40). -/
theorem storeNeeded_fenc (n : Len) : storeNeeded 2 n = framedTextLength n.toNat / 5 * 4 := by
  by_cases h : n = 0
  · subst h
    rfl
  · rw [← framedLength_eq_textLength h]
    exact if_neg fun hor => hor.elim (by decide) h

/-- The store that an `FDEC` of whole groups needs (10_state.md R40). -/
theorem storeNeeded_fdec {n : Len} (h : n.toNat % 5 = 0) : storeNeeded 3 n = n.toNat / 5 * 4 := by
  by_cases h0 : n = 0
  · subst h0
    rfl
  · exact (if_neg fun hor => hor.elim (by decide) h0).trans (if_pos h)

section Assemble

variable {n : Len} {xs : List Byte} (hxs : xs.length = n.toNat) (hn : n ≠ 0)
include hxs hn

theorem length_assemble_eq_textLength (draw : Nat) :
    (assemble xs n draw).length = framedTextLength xs.length / 5 * 4 := by
  rw [hxs, ← framedLength_eq_textLength hn]
  exact length_assemble draw hxs

theorem length_encodeText_assemble (draw : Nat) :
    (encodeText (assemble xs n draw)).length = framedTextLength xs.length := by
  have hm := framedTextLength_mod xs.length
  rw [length_encodeText, length_assemble_eq_textLength hxs hn]
  omega

theorem decodeText_encodeText_assemble (draw : Nat) :
    decodeText (encodeText (assemble xs n draw)) = some (assemble xs n draw) :=
  decodeText_encodeText _ (by rw [length_assemble_eq_textLength hxs hn, Nat.mul_mod_left])

/-- The header of an assembled buffer declares the payload, and the pad stands behind it (R180). -/
theorem unframe_assemble (draw : Nat) : unframe (assemble xs n draw) = some xs := by
  have hbuffer : assemble xs n draw =
      hdrenc n ++ (xs ++ padBytes draw (padcalc ((hdrenc n).length + n.toNat))) := List.append_assoc _ _ _
  have hheader : hdrdec (assemble xs n draw) = some ((hdrenc n).length, n) := by
    rw [hbuffer]
    exact hdrdecInvertsHdrenc n _ hn
  have hroom : ¬ (hdrenc n).length + n.toNat > (assemble xs n draw).length := by
    rw [length_assemble draw hxs]
    omega
  calc unframe (assemble xs n draw)
    _ = strip (assemble xs n draw) (hdrenc n).length n := by rw [unframe, hheader]
    _ = some (((assemble xs n draw).drop (hdrenc n).length).take n.toNat) := if_neg hroom
    _ = some xs := by rw [hbuffer, List.drop_left, ← hxs, List.take_left]

end Assemble

/-! ## The results of the framed commands -/

/-- `FDEC` on whole groups is the group loop and then the cut (R176, R179). -/
theorem commandResult_fdec {n : Len} (text : List Byte) (draw : Nat) (h0 : n ≠ 0) (hm : n.toNat % 5 = 0) :
    commandResult 3 n text draw = (decodeText text).elim (.error .encodingFailure) fun buffer =>
      (unframe buffer).elim (.error .truncatedInput) .ok := by
  have hne : n ≠ 0#64 := h0
  cases hd : decodeText text <;> simp [commandResult, framed, decodes, hne, hm, hd]

/-- The result of a `FENC` has the length of the closed form, and `FDEC` makes the payload of it, under any draw
(R173, R181). -/
theorem commandResult_fenc_fdec {n : Len} {xs : List Byte} (draw : Nat) (hxs : xs.length = n.toNat) :
    ∃ text, commandResult 2 n xs draw = .ok text ∧ text.length = framedTextLength xs.length ∧
      ∀ (m : Len) (draw' : Nat), m.toNat = text.length → commandResult 3 m text draw' = .ok xs := by
  by_cases h0 : n = 0
  · subst h0
    obtain rfl := List.eq_nil_of_length_eq_zero hxs
    refine ⟨[], rfl, rfl, fun m draw' hm => ?_⟩
    obtain rfl : m = 0 := BitVec.eq_of_toNat_eq hm
    exact commandResult_zero 3 draw'
  · have hlen := length_encodeText_assemble hxs h0 draw
    have hmod := framedTextLength_mod xs.length
    have hle := le_framedTextLength xs.length
    have hpos : n.toNat ≠ 0 := BitVec.toNat_ne.mp h0
    refine ⟨_, commandResult_fenc xs draw h0, hlen, fun m draw' hm => ?_⟩
    have hm0 : m ≠ 0 := BitVec.toNat_ne.mpr (show m.toNat ≠ 0 by omega)
    rw [commandResult_fdec _ _ hm0 (by omega), decodeText_encodeText_assemble hxs h0, Option.elim_some,
      unframe_assemble hxs h0, Option.elim_some]

/-! ## The round trip -/

/-- Settles O58: the result of `FENC` is a text of which `FDEC` makes the payload. -/
theorem framedRoundTrip : Obligations.FramedRoundTrip := by
  intro s xs hready hlt hout hin hstore
  have hl := hready.length
  obtain ⟨text, hresult, hlen, hback⟩ := commandResult_fenc_fdec s.draws hl
  have hn := toNat_ofNat_length (xs := text) (by omega)
  have hmod := framedTextLength_mod xs.length
  refine runTurns_command_move_command 2 3 _ hready ?_ hresult (by rwa [hlen]) hn (by rwa [hlen]) ?_
    (fun draw => hback _ draw hn) (fits_mono hout (le_framedTextLength _)) ?_
  · rwa [storeNeeded_fenc, ← hl]
  · rwa [storeNeeded_fdec (by omega), hn, hlen]
  · rw [hl]
    omega

/-! ## The intermediate buffer -/

/-- Bytes 1 to 8 of a long header are the length (42_lhdr.md R140, R144). -/
theorem groupNumber_hdrenc_of_long {n : Len} (h : 255 < n.toNat) :
    groupNumber ((hdrenc n).drop 1) 0 * 2 ^ 32 + groupNumber ((hdrenc n).drop 1) 1 = n.toNat := by
  have hread := longLength_unbe32_append (n.extractLsb' 32 32) (n.extractLsb' 0 32) []
  rw [List.append_nil, be64_halves] at hread
  rw [hdrenc_of_long h, List.drop_one, List.tail_cons]
  obtain ⟨m, hm, hnat⟩ := longLength_toNat
    (rest := unbe32 (n.extractLsb' 32 32) ++ unbe32 (n.extractLsb' 0 32)) (Nat.le_refl 8)
  rw [← hnat, Option.some.inj (hread.symm.trans hm)]

theorem eq_padFill_of_getElem? {draw p j : Nat} {b : Byte} (h : (padBytes draw p)[j]? = some b) :
    b = Config.padFill draw j := by
  rw [padBytes, List.getElem?_map] at h
  obtain ⟨i, hi, rfl⟩ := Option.map_eq_some_iff.mp h
  obtain ⟨_, hj⟩ := List.getElem?_eq_some_iff.mp hi
  rw [← hj, List.getElem_range]

/-- Settles O59: `BDEC` decodes the text of the assembled buffer, whose header is that of the payload's length. -/
theorem bdecShowsTheIntermediateBuffer : Obligations.BdecShowsTheIntermediateBuffer := by
  intro s xs hready h0 hlt hout hin hstore
  have hl := hready.length
  have hlen := length_encodeText_assemble hl h0 s.draws
  have hbuffer := length_assemble_eq_textLength hl h0 s.draws
  have hmod := framedTextLength_mod xs.length
  have hn := toNat_ofNat_length (xs := encodeText (assemble xs s.ilen s.draws)) (by omega)
  obtain ⟨t, hrun, hd⟩ := runTurns_command_move_command (zs := assemble xs s.ilen s.draws) 2 1 _ hready
    (by rwa [storeNeeded_fenc, ← hl]) (commandResult_fenc xs _ h0) (by rwa [hlen]) hn (by rwa [hlen]) (fits_zero _)
    (fun draw => by rw [commandResult_bdec _ _ (by omega), decodeText_encodeText_assemble hl h0]; rfl)
    (fits_mono hout (by omega)) (by omega)
  obtain ⟨hshort, hlong⟩ := hdrencForms s.ilen
  refine ⟨t, hdrenc s.ilen, padBytes s.draws (padcalc ((hdrenc s.ilen).length + s.ilen.toNat)), hrun, hd, ?_, ?_,
    fun _ _ => eq_padFill_of_getElem?, fun h => ?_, fun h => ?_⟩
  · exact (congrArg (· % 4) hbuffer).trans (Nat.mul_mod_left _ _)
  · rw [length_padBytes]
    exact padcalc_lt _
  · rw [hl] at h ⊢
    exact hshort h
  · rw [hl] at h ⊢
    obtain ⟨hnine, hzero, -⟩ := hlong h
    exact ⟨hnine, hzero, groupNumber_hdrenc_of_long h⟩

/-! ## `FENC` -/

/-- Settles O26: the result of `FENC` is the text of the assembled buffer, which is delivered. -/
theorem fencEncodesTheFramedPayload : Obligations.FencEncodesTheFramedPayload := by
  intro s xs buffer hin h0 hbuffer hout hstore
  obtain rfl : buffer = assemble xs s.work.ilenl s.draws := hbuffer
  have hl := hin.length
  have hlen := length_encodeText_assemble hl h0 s.draws
  have hbytes := length_assemble_eq_textLength hl h0 s.draws
  have htext := length_encodeText (assemble xs s.work.ilenl s.draws)
  have hshort : (encodeText (assemble xs s.work.ilenl s.draws)).length < 2 ^ 65 := by
    rw [hlen, hl]
    exact framedTextLength_lt s.work.ilenl.isLt
  obtain ⟨t, hexec, hkeeps, hd⟩ := exec_delivers_of_output 2 hin (by rwa [storeNeeded_fenc, ← hl, ← hbytes])
    (commandResult_fenc xs _ h0) (by rwa [htext]) hshort
  have hread := read_out_of_delivers hd
  obtain ⟨hphase, herr, holen, -, hnone⟩ := hd
  exact ⟨t, hexec, hkeeps, hphase, herr, by rw [hbytes, Nat.mul_mod_left], holen.trans htext,
    fun i k hi hk => (hread _).trans (getElem?_encodeText _ i k hi hk), fun a ha => hnone a (holen ▸ ha)⟩

/-- A `FENC` with a step has its input. -/
theorem hasInput_of_execFenc {s t : State} (h : execFenc s = .next t) : ∃ xs, HasInput s xs := by
  obtain ⟨hcap, h⟩ := (withCapacity_eq_next_iff _ _ _).mp h
  split at h
  · next h0 => exact ⟨[], hcap, by rw [h0]; rfl⟩
  · obtain ⟨-, h⟩ := (withStore_eq_next_iff _ _ _ _).mp h
    obtain ⟨xs, hread, -⟩ := (withInput_eq_next_iff _ _ _).mp h
    exact ⟨xs, hcap, hread⟩

/-- `OLEN` of every `FENC` that has a step (R173). -/
theorem olen_of_execFenc {s t : State} (h : execFenc s = .next t) :
    t.olen.toNat = framedTextLength s.work.ilenl.toNat := by
  obtain ⟨xs, hin⟩ := hasInput_of_execFenc h
  obtain ⟨text, hresult, hlen, -⟩ := commandResult_fenc_fdec s.draws hin.length
  obtain ⟨-, holen, -⟩ := output_of_commandResult (op := 2) hin h hresult
  rw [holen, hlen, hin.length, BitVec.toNat_ofNat, Nat.mod_eq_of_lt (framedTextLength_lt s.work.ilenl.isLt)]

/-- Settles O27: `OLEN` is `framedTextLength`, of which the three clauses are the branches. -/
theorem fencOutputLength : Obligations.FencOutputLength := by
  intro s t h
  have holen := olen_of_execFenc h
  have hcases := framedTextLength_cases s.work.ilenl.toNat
  refine ⟨fun h0 => ?_, fun hpos hle => ?_, fun hlong => ?_⟩
  · rw [h0] at holen
    exact BitVec.eq_of_toNat_eq holen
  · omega
  · omega

/-! ## `FDEC` -/

/-- The header that `HDRDEC` reads is one that the buffer has. -/
theorem hasHeader_of_hdrdec {buffer : List Byte} {h : Nat} {n : Len} (hdec : hdrdec buffer = some (h, n)) :
    HasHeader buffer h n.toNat := by
  cases buffer with
  | nil => cases hdec
  | cons b0 rest =>
    rw [hdrdec_cons] at hdec
    split at hdec
    · next hb =>
      cases hdec
      exact .inl ⟨hb, rfl, toNat_setWidth_len b0⟩
    · next hb =>
      obtain ⟨d, hd, hpair⟩ := Option.map_eq_some_iff.mp hdec
      cases hpair
      have hlen : 8 ≤ rest.length := Nat.le_of_not_lt fun hshort => by
        rw [longLength_of_short hshort] at hd
        cases hd
      obtain ⟨m, hm, hnat⟩ := longLength_toNat hlen
      obtain rfl := Option.some.inj (hd.symm.trans hm)
      exact .inr ⟨Decidable.not_not.mp hb, Nat.succ_le_succ hlen, rfl, hnat⟩

/-- A buffer is truncated when no header it has declares a payload that is there (42_lhdr.md R146, R160). -/
theorem unframe_of_truncated {buffer : List Byte} (h : ∀ k d, HasHeader buffer k d → buffer.length < k + d) :
    unframe buffer = none := by
  unfold unframe
  split
  · next hdec => exact if_pos (h _ _ (hasHeader_of_hdrdec hdec))
  · rfl

/-- Settles O29: the result of `FDEC` is the cut of the decoded buffer, which is delivered. -/
theorem fdecDeliversTheDeclaredPayload : Obligations.FdecDeliversTheDeclaredPayload := by
  intro s text buffer h d hin h0 hm hdec hh hle hout hstore
  have hl := hin.length
  have hlt := s.work.ilenl.isLt
  have hb := (decodeText_eq_some_iff text buffer (by omega)).mpr hdec
  obtain ⟨hbytes, -⟩ := hdec
  have hlen : ((buffer.drop h).take d).length = d := by
    rw [List.length_take, List.length_drop]
    omega
  have hresult : commandResult 3 s.work.ilenl text s.draws = .ok ((buffer.drop h).take d) := by
    rw [commandResult_fdec text _ h0 hm, hb, Option.elim_some, unframe_of_hasHeader hh hle, Option.elim_some]
  obtain ⟨t, hexec, hkeeps, hd⟩ := exec_delivers_of_output 3 hin
    (by rwa [storeNeeded_fdec hm, ← hl, ← hbytes]) hresult (by rwa [hlen]) (by omega)
  obtain ⟨-, -, holen, -⟩ := id hd
  exact ⟨t, hexec, hkeeps, holen.trans hlen, hd⟩

/-- Settles O30: the empty bypass, the length check, and on whole groups the three ends of the loop and the cut. -/
theorem fdecErrorOrder : Obligations.FdecErrorOrder := by
  intro s hcap
  refine ⟨emptyInputIsNoError s 3, fun hm => ?_, fun text hin h0 hm hstore => ?_⟩
  · have h0 : s.work.ilenl ≠ 0 := fun h0 => hm (by rw [h0]; rfl)
    exact ⟨_, (withCapacity_of_fits _ hcap).trans ((if_neg h0).trans (if_pos hm)), keepsInputs_raise _ _,
      failsWith_raise _ _⟩
  · have hl : text.length % 5 = 0 := by rw [hin.length, hm]
    have hneeded : fits s.capT (storeNeeded 3 s.work.ilenl) = true := by rwa [storeNeeded_fdec hm]
    have hresult := commandResult_fdec text s.draws h0 hm
    refine ⟨fun hfail => ?_, fun buffer hdec => ⟨fun htrunc => ?_, fun h d hh hle hout => ?_⟩⟩
    · rw [(decodeText_eq_none_iff text hl).mpr hfail] at hresult
      exact exec_fails_of_error 3 hin hneeded hresult
    · rw [(decodeText_eq_some_iff text buffer hl).mpr hdec, Option.elim_some, unframe_of_truncated htrunc] at hresult
      exact exec_fails_of_error 3 hin hneeded hresult
    · obtain ⟨hbytes, -⟩ := id hdec
      obtain ⟨t, hexec, hkeeps, -, -, herr, -⟩ :=
        fdecDeliversTheDeclaredPayload s text buffer h d hin h0 hm hdec hh hle hout (by rwa [hbytes, hin.length])
      exact ⟨t, hexec, hkeeps, herr⟩

end Sys2Proof.Machine
end

section
/-! SUPPORT. Errors: their entry, the codes each command can end with, and how long a result lasts
(60_exceptions.md). -/

namespace Sys2Proof.Machine

/-! ## The entry of an error -/

/-- Settles O31: `raise` fails with its code, writes nothing of the host's, and leaves `T` without a value. -/
theorem raiseIsTheErrorEntry : Obligations.RaiseIsTheErrorEntry := fun e s =>
  ⟨failsWith_raise e s, keepsInputs_raise e s, fun _ => rfl⟩

/-! ## The codes of each command -/

/-- Every end of a command is in `DONE` (60_exceptions.md R204, R214). -/
theorem CommandEnds.phase_done {s t : State} (h : CommandEnds s t) : t.phase = .done := by
  cases h with
  | error => rfl
  | output => rfl

/-- An end with an error code has no output (60_exceptions.md R206). -/
theorem CommandEnds.no_output_of_err {s t : State} (h : CommandEnds s t) (herr : t.err ≠ .ok) :
    t.olen = 0 ∧ t.out = [] := by
  cases h with
  | error => exact ⟨rfl, rfl⟩
  | output => exact absurd rfl herr

theorem err_of_deliver {bytes : List Byte} {s t : State} (h : deliver bytes s = .next t) : t.err = .ok := by
  obtain ⟨-, rfl⟩ := (deliver_eq_next_iff _ _ _).mp h
  rfl

/-- The codes of `BENC`: its only error is that of the length check (40_enc85.md R114). -/
theorem err_of_execBenc {s t : State} (h : execBenc s = .next t) : t.err = .ok ∨ t.err = .invalidLength := by
  obtain ⟨-, h⟩ := (withCapacity_eq_next_iff _ _ _).mp h
  split at h
  · cases h
    exact .inr rfl
  · obtain ⟨xs, -, h⟩ := (withInput_eq_next_iff _ _ _).mp h
    exact .inl (err_of_deliver h)

/-- The codes of `BDEC`: the length check and the group loop have one error each (41_dec85.md R130, R132). -/
theorem err_of_execBdec {s t : State} (h : execBdec s = .next t) :
    t.err = .ok ∨ t.err = .invalidLength ∨ t.err = .encodingFailure := by
  obtain ⟨-, h⟩ := (withCapacity_eq_next_iff _ _ _).mp h
  split at h
  · cases h
    exact .inr (.inl rfl)
  · obtain ⟨xs, -, h⟩ := (withInput_eq_next_iff _ _ _).mp h
    split at h
    · exact .inl (err_of_deliver h)
    · cases h
      exact .inr (.inr rfl)

/-- `FENC` has no error: on every input it has a text to deliver (44_frame.md R172). -/
theorem err_of_execFenc {s t : State} (h : execFenc s = .next t) : t.err = .ok := by
  obtain ⟨xs, hin⟩ := hasInput_of_execFenc h
  obtain ⟨text, hresult, -⟩ := commandResult_fenc_fdec s.draws hin.length
  obtain ⟨herr, -⟩ := output_of_commandResult (op := 2) hin h hresult
  exact herr

/-- Settles O32, by the ends of a command (`CommandEnds`) and the codes of the three commands that lack some. -/
theorem endCodesOfEachCommand : Obligations.EndCodesOfEachCommand := fun _ _ =>
  ⟨fun h => ⟨(execBenc_ends h).phase_done, err_of_execBenc h⟩,
    fun h => ⟨(execBdec_ends h).phase_done, by obtain he | he | he := err_of_execBdec h <;> simp [he]⟩,
    fun h => ⟨(execFenc_ends h).phase_done, err_of_execFenc h⟩,
    fun h => (execFdec_ends h).phase_done,
    fun _ h => (exec_selected_ends h).no_output_of_err⟩

/-! ## How long a result lasts -/

/-- Settles O50: in `DONE` the block does nothing, and of the host's turns only `START` and reset touch the result. -/
theorem resultLastsUntilTheNextStart : Obligations.ResultLastsUntilTheNextStart := by
  intro s t hdone hstart hreset hstep
  have hrest : s.phase ≠ .busy := by simp [hdone]
  obtain ⟨-, hb⟩ | ⟨turn, turns, hs, hturn⟩ := step_next_cases hstep
  · cases (blockStep_of_not_busy true hrest).symm.trans hb
    exact ⟨hdone, rfl, rfl, rfl⟩
  · have hhead : s.host.head? = some turn := by simp [hs]
    cases takeTurn_moves hturn with
    | host | input => exact ⟨hdone, rfl, rfl, rfl⟩
    | start ht => exact absurd (ht ▸ hhead) hstart
    | reset ht => exact absurd (ht ▸ hhead) hreset
    | block whole _ _ hb =>
      cases (blockStep_of_not_busy (s := { s with host := turns }) whole hrest).symm.trans hb
      exact ⟨hdone, rfl, rfl, rfl⟩

end Sys2Proof.Machine
end

section
/-! SUPPORT. Reset, and a `START` that is lost (70_reset_and_hazards.md R230, R236). -/

namespace Sys2Proof.Machine

/-- Settles O38: the turn is `hostReset`, which leaves no register and no cell of the block as it was. -/
theorem resetAtAnyTime : Obligations.ResetAtAnyTime :=
  fun _ _ hh => ⟨_, step_of_turn hh, rfl, rfl, rfl, rfl, rfl, fun _ => ⟨rfl, rfl, rfl⟩, rfl, rfl, rfl, rfl⟩

theorem hostStart_of_busy {s : State} (hp : s.phase = .busy) : hostStart s = .next s := if_pos hp

/-- Settles O44: `hostStart` answers the state itself while `BUSY`. -/
theorem startWhileBusyIsIgnored : Obligations.StartWhileBusyIsIgnored :=
  fun s turns hp hh => (step_of_turn hh).trans (hostStart_of_busy (s := { s with host := turns }) hp)

end Sys2Proof.Machine
end

section
/-! SUPPORT. Runs of the sequencer, word by word (log 3): single passes, and runs of a bounded number of them. -/

namespace Sys2Proof.Machine

/-! ## Runs of passes -/

/-- `f` takes `s` to `u`, whatever turns the host still has. -/
def Answers (f : State → Host.Outcome State Fault Refusal) (s u : State) : Prop :=
  ∀ turns, f { s with host := turns } = .next { u with host := turns }

/-- At most `n` passes of the block take `s` to `t`. -/
inductive PassesTo : Nat → State → State → Prop
  | refl (n : Nat) (s : State) : PassesTo n s s
  | pass {n : Nat} {s u t : State} (first : Answers (blockStep false) s u) (rest : PassesTo n u t) :
      PassesTo (n + 1) s t

theorem PassesTo.single {s t : State} (h : Answers (blockStep false) s t) : PassesTo 1 s t := .pass h (.refl 0 t)

theorem PassesTo.mono {m n : Nat} {s t : State} (h : PassesTo m s t) (hmn : m ≤ n) : PassesTo n s t := by
  induction h generalizing n with
  | refl _ s => exact .refl n s
  | pass first _ ih =>
    obtain ⟨k, rfl⟩ : ∃ k, n = k + 1 := ⟨n - 1, by omega⟩
    exact .pass first (ih (by omega))

theorem PassesTo.trans {m n : Nat} {s u t : State} (h : PassesTo m s u) (h' : PassesTo n u t) :
    PassesTo (m + n) s t := by
  induction h with
  | refl m _ => exact h'.mono (by omega)
  | pass first _ ih => exact (PassesTo.pass first (ih h')).mono (by omega)

/-- A run of passes is a run of the machine on that many turns `pass`. -/
theorem PassesTo.run {n : Nat} {s t : State} (h : PassesTo n s t) : ∃ m, m ≤ n ∧ ∀ turns,
    Host.Core.run core m { s with host := List.replicate m .pass ++ turns } = .next { t with host := turns } := by
  induction h with
  | refl n s => exact ⟨0, Nat.zero_le n, fun _ => rfl⟩
  | @pass n s u t first _ ih =>
    obtain ⟨m, hm, hrun⟩ := ih
    refine ⟨m + 1, Nat.succ_le_succ hm, fun turns => ?_⟩
    have hstep : step { s with host := List.replicate (m + 1) .pass ++ turns } =
        .next { u with host := List.replicate m .pass ++ turns } := first _
    exact (run_succ hstep).trans (hrun turns)

/-! ## One pass, by the place of the sequencer -/

section Places

variable {s u : State} (hp : s.phase = .busy)
include hp

theorem pass_of_control (hw : wordHere false s = none) (h : Answers controlHere s u) :
    Answers (blockStep false) s u := by
  intro turns
  have hw' : wordHere false { s with host := turns } = none := hw
  rw [blockStep_of_busy (s := { s with host := turns }) false hp, hw']
  exact h turns

theorem pass_of_fetch {f : Fetch} (hw : wordHere false s = some f) (h : Answers (runFetched f) s u) :
    Answers (blockStep false) s u := by
  intro turns
  have hw' : wordHere false { s with host := turns } = some f := hw
  rw [blockStep_of_busy (s := { s with host := turns }) false hp, hw']
  exact h turns

theorem pass_command (hs : s.work.stage = .command) (h : Answers beginOperation s u) :
    Answers (blockStep false) s u :=
  pass_of_control hp (by simp [wordHere, hs]) fun turns => by simpa only [controlHere, hs] using h turns

theorem pass_pad (hs : s.work.stage = .pad) (h : Answers padStep s u) : Answers (blockStep false) s u :=
  pass_of_control hp (by simp [wordHere, hs]) fun turns => by simpa only [controlHere, hs] using h turns

theorem pass_strip (hs : s.work.stage = .strip) (h : Answers stripStep s u) : Answers (blockStep false) s u :=
  pass_of_control hp (by simp [wordHere, hs]) fun turns => by simpa only [controlHere, hs] using h turns

theorem pass_group (hs : s.work.stage = .group) (h : Answers nextGroup s u) : Answers (blockStep false) s u :=
  pass_of_control hp (by simp [wordHere, hs]) fun turns => by simpa only [controlHere, hs] using h turns

theorem pass_endGroup (hs : s.work.stage = .symbol) (hk : s.work.k = 5) (h : Answers endGroup s u) :
    Answers (blockStep false) s u :=
  pass_of_control hp (by simp [wordHere, hs, hk]) fun turns => by simpa only [controlHere, hs] using h turns

theorem pass_header (hs : s.work.stage = .header) (h : Answers (runFetched (fetchHeader s)) s u) :
    Answers (blockStep false) s u :=
  pass_of_fetch hp (by simp [wordHere, hs]) h

theorem pass_symbol (hs : s.work.stage = .symbol) (hk : s.work.k < 5) (h : Answers (runFetched (fetchSymbol s)) s u) :
    Answers (blockStep false) s u :=
  pass_of_fetch hp (by simp [wordHere, hs, hk]) h

end Places

/-! ## Cells in a row -/

theorem Memory.readCells_cons_iff (m : Memory) (a : Nat) (b : Byte) (bs : List Byte) :
    m.readCells a (b :: bs).length = some (b :: bs) ↔ m.read a = some b ∧ m.readCells (a + 1) bs.length = some bs := by
  simp only [List.length_cons, Memory.readCells]
  cases m.read a <;> cases m.readCells (a + 1) bs.length <;> simp

/-- Any slice of a run that was written into an empty memory reads back. -/
theorem readCells_slice (bytes : List Byte) (a n : Nat) (h : a + n ≤ bytes.length) :
    (Memory.writeCells [] 0 bytes).readCells a n = some ((bytes.drop a).take n) := by
  refine (Memory.readCells_eq_some_iff _ _ _ _).mpr ⟨by simp; omega, fun i hi => ?_⟩
  rw [read_delivered, List.getElem?_take_of_lt hi, List.getElem?_drop]

theorem writeOut_of_fits {s : State} {a : Nat} (b : Byte) (h : fits s.capOut (a + 1) = true) :
    writeOut s a b = { s with out := s.out.write a b } := by
  rw [writeOut, if_pos h]

/-- Within `CAP_OUT` a run of block writes is a run of cells. -/
theorem writeOutCells_of_fits {s : State} {a : Nat} (bs : List Byte) (h : fits s.capOut (a + bs.length) = true) :
    writeOutCells s a bs = { s with out := s.out.writeCells a bs } := by
  induction bs generalizing s a with
  | nil => rfl
  | cons b bs ih =>
    rw [List.length_cons, Nat.add_comm bs.length, ← Nat.add_assoc] at h
    rw [writeOutCells, writeOut_of_fits b (fits_mono h (by omega))]
    exact ih h

theorem toNat_add_one {gi : BitVec 64} {n : Nat} (h : gi.toNat < n) (hn : n ≤ 2 ^ 63) :
    (gi + 1).toNat = gi.toNat + 1 := by
  rw [BitVec.toNat_add, show (1 : BitVec 64).toNat = 1 from rfl]
  omega

end Sys2Proof.Machine
end

section
/-! SUPPORT. The group loop in the encode direction, word by word: seven passes a group (40_enc85.md R110, R113). -/

namespace Sys2Proof.Machine

/-- The sequencer at the first character of a group, with `v` in `V`. -/
def inGroup (v : BitVec 33) (s : State) : State := { s with work := { s.work with v := v, k := 0, stage := .symbol } }

/-- The sequencer past the fifth character of a group, which left `v` in `V`. -/
def pastGroup (v : BitVec 33) (s : State) : State := nextIndex { s with work := { s.work with v := v, k := 5 } }

@[simp] theorem pastGroup_gi (v : BitVec 33) (s : State) : (pastGroup v s).work.gi = s.work.gi + 1 := rfl

/-- The sequencer stands before a group of an encoding, and `xs` is what is left of the bytes to encode. -/
structure EncodesNext (xs : List Byte) (s : State) : Prop where
  phase : s.phase = .busy
  stage : s.work.stage = .group
  decodes : decodes s.work.opl = false
  source : (if framed s.work.opl then s.t else s.inp).readCells (4 * s.work.gi.toNat) xs.length = some xs
  count : groupCount s = s.work.gi.toNat + xs.length / 4
  mod : xs.length % 4 = 0
  small : groupCount s ≤ 2 ^ 63
  fits : fits s.capOut (groupCount s * 5) = true

theorem symbol_of_encode_fits {s : State} (d : Digit) (hd : decodes s.work.opl = false)
    (hfit : fits s.capOut (charIndex s + 1) = true) : symbol d s = .next { s with
      out := s.out.write (charIndex s) (romA d), work := { s.work with k := s.work.k + 1 } } := by
  rw [symbol_of_encode d hd, writeOut_of_fits _ hfit]

/-- The next character of a group goes to its cell of `OUT`. -/
theorem pass_character_encode {s : State} (hp : s.phase = .busy) (hs : s.work.stage = .symbol) (hk : s.work.k < 5)
    (hd : decodes s.work.opl = false) (hfit : fits s.capOut (charIndex s + 1) = true) :
    Answers (blockStep false) s { s with
      out := s.out.write (charIndex s) (romA (digitOf s.work.v.toNat s.work.k))
      work := { s.work with k := s.work.k + 1 } } := by
  refine pass_symbol hp hs hk fun turns => ?_
  have hfetch : fetchSymbol s = .word (.sym (digitOf s.work.v.toNat s.work.k)) := by simp [fetchSymbol, hd]
  rw [hfetch]
  exact (exec_of_digit _ (digit?_sym _)).trans (symbol_of_encode_fits (s := { s with host := turns }) _ hd hfit)

/-- The five characters and the end of a group whose value is `v`. -/
theorem passes_characters_encode {s : State} {v : BitVec 32} (hp : s.phase = .busy) (hd : decodes s.work.opl = false)
    (hfit : fits s.capOut (5 * s.work.gi.toNat + 5) = true) :
    PassesTo 6 (inGroup (v.setWidth 33) s)
      (pastGroup (v.setWidth 33) { s with out := s.out.writeCells (5 * s.work.gi.toNat) (enc85 v) }) := by
  have hchar : ∀ (k : Nat) (m : Memory), k < 5 →
      Answers (blockStep false)
        { s with out := m, work := { s.work with v := v.setWidth 33, k := k, stage := .symbol } }
        { s with
          out := m.write (5 * s.work.gi.toNat + k) (romA (digitOf v.toNat k))
          work := { s.work with v := v.setWidth 33, k := k + 1, stage := .symbol } } := by
    intro k m hk
    have hv : (v.setWidth 33).toNat = v.toNat := by rw [BitVec.toNat_setWidth]; omega
    rw [← hv]
    exact pass_character_encode
      (s := { s with out := m, work := { s.work with v := v.setWidth 33, k := k, stage := .symbol } }) hp rfl hk hd
      (fits_mono hfit (by simp only [charIndex]; omega))
  refine .pass (hchar 0 _ (by decide)) <| .pass (hchar 1 _ (by decide)) <| .pass (hchar 2 _ (by decide)) <|
    .pass (hchar 3 _ (by decide)) <| .pass (hchar 4 _ (by decide)) <| .single ?_
  refine pass_endGroup hp rfl rfl fun turns => ?_
  simp only [endGroup, hd, Bool.false_eq_true, if_false]
  rfl

theorem loadGroup_of_read {s : State} {b0 b1 b2 b3 : Byte} (hd : decodes s.work.opl = false)
    (h : (if framed s.work.opl then s.t else s.inp).readCells (4 * s.work.gi.toNat) 4 = some [b0, b1, b2, b3]) :
    loadGroup s = .next (inGroup ((be32 b0 b1 b2 b3).setWidth 33) s) := by
  simp only [loadGroup, hd, Bool.false_eq_true, if_false, h]
  rfl

/-- One group of the loop: seven passes. -/
theorem EncodesNext.passes_group {b0 b1 b2 b3 : Byte} {xs : List Byte} {s u : State}
    (h : EncodesNext (b0 :: b1 :: b2 :: b3 :: xs) s)
    (hu : u = pastGroup ((be32 b0 b1 b2 b3).setWidth 33)
      { s with out := s.out.writeCells (5 * s.work.gi.toNat) (enc85 (be32 b0 b1 b2 b3)) }) :
    PassesTo 7 s u ∧ EncodesNext xs u ∧ u.work.gi.toNat = s.work.gi.toNat + 1 := by
  obtain ⟨hp, hs, hd, hsource, hcount, hmod, hsmall, hfits⟩ := h
  simp only [List.length_cons] at hcount hmod
  have hlt : s.work.gi.toNat < groupCount s := by omega
  have hgi := toNat_add_one hlt hsmall
  simp only [Memory.readCells_cons_iff] at hsource
  obtain ⟨h0, h1, h2, h3, hrest⟩ := hsource
  have hgroup : (if framed s.work.opl then s.t else s.inp).readCells (4 * s.work.gi.toNat) 4 =
      some [b0, b1, b2, b3] := by
    simp only [Memory.readCells, h0, h1, h2, h3, Option.map_some]
  subst hu
  refine ⟨.pass (pass_group hp hs fun turns => (if_pos hlt).trans ?_)
    (passes_characters_encode hp hd (fits_mono hfits (by omega))), ⟨hp, rfl, hd, ?_, ?_, by omega, hsmall, hfits⟩, hgi⟩
  · exact loadGroup_of_read (s := { s with host := turns }) hd hgroup
  · rw [show 4 * s.work.gi.toNat + 1 + 1 + 1 + 1 = 4 * (s.work.gi + 1).toNat by omega] at hrest
    exact hrest
  · exact hcount.trans (by simp only [pastGroup_gi, hgi]; omega)

/-- The whole loop and the end of the operation. -/
theorem EncodesNext.passes : ∀ {xs : List Byte} {s : State}, EncodesNext xs s →
    PassesTo (7 * (xs.length / 4) + 1) s (finished (groupCount s * 5)
      { s with out := s.out.writeCells (5 * s.work.gi.toNat) (encodeText xs) })
  | [], s, h => by
    refine .single (pass_group h.phase h.stage fun turns => ?_)
    have hge : ¬ s.work.gi.toNat < groupCount s := by rw [h.count]; simp
    refine (if_neg hge).trans ?_
    simp only [endGroups, h.decodes, Bool.not_false, if_true]
    exact finish_of_fits h.fits
  | [_], _, h => by simpa using h.mod
  | [_, _], _, h => by simpa using h.mod
  | [_, _, _], _, h => by simpa using h.mod
  | b0 :: b1 :: b2 :: b3 :: xs, s, h => by
    obtain ⟨hgroup, hnext, hgi⟩ := h.passes_group rfl
    have hrest := hgroup.trans hnext.passes
    rw [hgi, show 5 * (s.work.gi.toNat + 1) = 5 * s.work.gi.toNat + (enc85 (be32 b0 b1 b2 b3)).length from rfl] at hrest
    rw [encodeText, Memory.writeCells_append]
    exact hrest.mono (by simp only [List.length_cons]; omega)

/-- The loop from the first group on, into an empty `OUT`. -/
theorem EncodesNext.passes_from_start {xs : List Byte} {s : State} (h : EncodesNext xs s) (hgi : s.work.gi = 0)
    (hout : s.out = []) : PassesTo (7 * (xs.length / 4) + 1) s
      (finished (encodeText xs).length { s with out := Memory.writeCells [] 0 (encodeText xs) }) := by
  have hloop := h.passes
  have hcount : groupCount s * 5 = (encodeText xs).length := by
    rw [length_encodeText, h.count, hgi, show (0 : BitVec 64).toNat = 0 from rfl, Nat.zero_add]
  rwa [hcount, hout, hgi] at hloop

end Sys2Proof.Machine
end

section
/-! SUPPORT. The group loop in the decode direction, word by word: at most seven passes a group, and fewer up to the
first failing one (41_dec85.md R125, R129, R132). -/

namespace Sys2Proof.Machine

/-! ## The characters of a group -/

/-- `V` after the characters `cs`; `none` when one of them is not in the alphabet (R125, R126). -/
def accumulateText (v : BitVec 33) : List Byte → Option (BitVec 33)
  | [] => some v
  | c :: cs => (romD c).bind fun d => accumulateText (accumulate v d) cs

/-- `DEC85` is the accumulation of its five characters and the overflow test. -/
theorem dec85_eq_accumulateText (c0 c1 c2 c3 c4 : Byte) : dec85 c0 c1 c2 c3 c4 =
    (accumulateText 0 [c0, c1, c2, c3, c4]).bind fun v => if overflows v then none else some (groupValue v) := by
  unfold dec85
  split
  · next h0 h1 h2 h3 h4 => simp [accumulateText, h0, h1, h2, h3, h4]
  · next h =>
    cases h0 : romD c0 with
    | none => simp [accumulateText, h0]
    | some d0 =>
    cases h1 : romD c1 with
    | none => simp [accumulateText, h0, h1]
    | some d1 =>
    cases h2 : romD c2 with
    | none => simp [accumulateText, h0, h1, h2]
    | some d2 =>
    cases h3 : romD c3 with
    | none => simp [accumulateText, h0, h1, h2, h3]
    | some d3 =>
    cases h4 : romD c4 with
    | none => simp [accumulateText, h0, h1, h2, h3, h4]
    | some d4 => exact absurd h4 (h d0 d1 d2 d3 d4 h0 h1 h2 h3)

section Character

variable {s : State} {c : Byte} (hp : s.phase = .busy) (hs : s.work.stage = .symbol) (hk : s.work.k < 5)
  (hd : decodes s.work.opl = true) (hc : s.inp.read (charIndex s) = some c)
include hp hs hk hd hc

/-- A recognised character goes into `V`. -/
theorem pass_character_decode {d : Digit} (h : romD c = some d) : Answers (blockStep false) s
    { s with work := { s.work with v := accumulate s.work.v d, k := s.work.k + 1 } } := by
  refine pass_symbol hp hs hk fun turns => ?_
  have hfetch : fetchSymbol s = .word (.sym d) := by simp [fetchSymbol, hd, hc, decode, decodeSym, h, Fetch.ofDecoded]
  rw [hfetch]
  exact (exec_of_digit _ (digit?_sym _)).trans (symbol_of_decode (s := { s with host := turns }) _ hd)

/-- An unrecognised one ends the operation (R126). -/
theorem pass_character_unrecognised (h : romD c = none) :
    Answers (blockStep false) s (raise .encodingFailure s) := by
  refine pass_symbol hp hs hk fun turns => ?_
  have hfetch : fetchSymbol s = .error .encodingFailure := by
    simp [fetchSymbol, hd, hc, decode, decodeSym, h, Fetch.ofDecoded]
  rw [hfetch]
  rfl

end Character

/-- The characters left of a group: all of them go into `V`, or one of them ends the operation. -/
theorem passes_characters_decode (cs : List Byte) (v : BitVec 33) (k : Nat) {s : State} (hp : s.phase = .busy)
    (hs : s.work.stage = .symbol) (hd : decodes s.work.opl = true) (hk : k + cs.length = 5)
    (hread : s.inp.readCells (5 * s.work.gi.toNat + k) cs.length = some cs) :
    PassesTo cs.length { s with work := { s.work with v := v, k := k } }
      ((accumulateText v cs).elim (raise .encodingFailure s) fun v' =>
        { s with work := { s.work with v := v', k := 5 } }) := by
  induction cs generalizing v k with
  | nil =>
    obtain rfl : k = 5 := hk
    exact .refl _ _
  | cons c cs ih =>
    rw [List.length_cons] at hk
    obtain ⟨hc, hrest⟩ := (Memory.readCells_cons_iff _ _ _ _).mp hread
    cases hr : romD c with
    | none =>
      rw [accumulateText, hr]
      exact (PassesTo.single (pass_character_unrecognised
        (s := { s with work := { s.work with v := v, k := k } }) hp hs (by simp only; omega) hd hc hr)).mono
        (by simp)
    | some d =>
      rw [accumulateText, hr]
      exact .pass (pass_character_decode
        (s := { s with work := { s.work with v := v, k := k } }) hp hs (by simp only; omega) hd hc hr)
        (ih (accumulate v d) (k + 1) (by omega) hrest)

/-! ## Where the decoded bytes go -/

/-- `BDEC` writes decoded bytes to `OUT` (R129), `FDEC` to `T` (44_frame.md R176). -/
def storeDecoded (a : Nat) (bytes : List Byte) (s : State) : State :=
  if framed s.work.opl then { s with t := s.t.writeCells a bytes } else writeOutCells s a bytes

theorem storeDecoded_framed {s : State} (a : Nat) (bytes : List Byte) (hf : framed s.work.opl = true) :
    storeDecoded a bytes s = { s with t := s.t.writeCells a bytes } := if_pos hf

theorem storeDecoded_base {s : State} (a : Nat) (bytes : List Byte) (hf : framed s.work.opl = false) :
    storeDecoded a bytes s = writeOutCells s a bytes := if_neg (by simp [hf])

@[simp] theorem storeDecoded_nil (a : Nat) (s : State) : storeDecoded a [] s = s := by
  unfold storeDecoded
  split <;> rfl

section Store

variable (a : Nat) (bytes : List Byte) (s : State)

@[simp] theorem storeDecoded_phase : (storeDecoded a bytes s).phase = s.phase := by
  unfold storeDecoded
  split <;> simp

@[simp] theorem storeDecoded_work : (storeDecoded a bytes s).work = s.work := by
  unfold storeDecoded
  split <;> simp

@[simp] theorem storeDecoded_inp : (storeDecoded a bytes s).inp = s.inp := by
  unfold storeDecoded
  split <;> simp

@[simp] theorem storeDecoded_host : (storeDecoded a bytes s).host = s.host := by
  unfold storeDecoded
  split <;> simp

theorem groupCount_pastGroup (v : BitVec 33) : groupCount (pastGroup v (storeDecoded a bytes s)) = groupCount s := by
  simp [groupCount, pastGroup, nextIndex]

/-- An error drops what was stored (60_exceptions.md R204). -/
theorem raise_storeDecoded (e : ErrCode) : raise e (storeDecoded a bytes s) = raise e s := by
  unfold storeDecoded
  split
  · rfl
  · rw [writeOutCells_eq]
    rfl

theorem writeOutCells_append (more : List Byte) :
    writeOutCells s a (bytes ++ more) = writeOutCells (writeOutCells s a bytes) (a + bytes.length) more := by
  induction bytes generalizing s a with
  | nil => rfl
  | cons b bs ih =>
    rw [List.cons_append, writeOutCells, ih, writeOutCells, List.length_cons, Nat.add_right_comm, Nat.add_assoc]

theorem storeDecoded_append (more : List Byte) :
    storeDecoded a (bytes ++ more) s = storeDecoded (a + bytes.length) more (storeDecoded a bytes s) := by
  cases hf : framed s.work.opl with
  | true =>
    rw [storeDecoded_framed _ _ hf, storeDecoded_framed (s := storeDecoded a bytes s) _ _ (by simpa using hf),
      storeDecoded_framed _ _ hf, Memory.writeCells_append]
  | false =>
    rw [storeDecoded_base _ _ hf, storeDecoded_base (s := storeDecoded a bytes s) _ _ (by simpa using hf),
      storeDecoded_base _ _ hf, writeOutCells_append]

variable (w : Work) (turns : List HostTurn)

theorem writeOutCells_work_host : writeOutCells { s with work := w, host := turns } a bytes =
    { writeOutCells s a bytes with work := w, host := turns } := by
  induction bytes generalizing s a with
  | nil => rfl
  | cons b bs ih =>
    have hb : writeOut { s with work := w, host := turns } a b = { writeOut s a b with work := w, host := turns } := by
      unfold writeOut
      split <;> rfl
    rw [writeOutCells, hb, ih, writeOutCells]

/-- The store looks at no working register but `OPL`, and not at the host. -/
theorem storeDecoded_work_host (h : w.opl = s.work.opl) : storeDecoded a bytes { s with work := w, host := turns } =
    { storeDecoded a bytes s with work := w, host := turns } := by
  cases hf : framed s.work.opl with
  | true =>
    rw [storeDecoded_framed _ _ hf]
    exact storeDecoded_framed (s := { s with work := w, host := turns }) _ _ (h ▸ hf)
  | false =>
    rw [storeDecoded_base _ _ hf, ← writeOutCells_work_host]
    exact storeDecoded_base (s := { s with work := w, host := turns }) _ _ (h ▸ hf)

/-- The place of the sequencer and the store do not interfere. -/
theorem storeDecoded_pastGroup (v : BitVec 33) :
    storeDecoded a bytes (pastGroup v s) = pastGroup v (storeDecoded a bytes s) := by
  have h := storeDecoded_work_host a bytes s (pastGroup v s).work s.host rfl
  rw [← storeDecoded_host a bytes s] at h
  simpa [pastGroup, nextIndex] using h

end Store

/-! ## The end of a group -/

theorem endGroup_of_overflow {s : State} (hd : decodes s.work.opl = true) (ho : overflows s.work.v = true) :
    endGroup s = .next (raise .encodingFailure s) := by
  simp only [endGroup, hd, ho, if_true]

theorem endGroup_of_decode {s : State} (hd : decodes s.work.opl = true) (ho : overflows s.work.v = false) :
    endGroup s = .next (nextIndex (storeDecoded (4 * s.work.gi.toNat) (unbe32 (groupValue s.work.v)) s)) := by
  simp only [endGroup, hd, ho, if_true, Bool.false_eq_true, if_false, storeDecoded]
  split <;> rfl

/-! ## The loop -/

/-- The sequencer stands before a group of a decoding, and `cs` is what is left of the text. -/
structure DecodesNext (cs : List Byte) (s : State) : Prop where
  phase : s.phase = .busy
  stage : s.work.stage = .group
  decodes : decodes s.work.opl = true
  source : s.inp.readCells (5 * s.work.gi.toNat) cs.length = some cs
  count : groupCount s = s.work.gi.toNat + cs.length / 5
  mod : cs.length % 5 = 0

section Group

variable {c0 c1 c2 c3 c4 : Byte} {cs : List Byte} {s : State} (h : DecodesNext (c0 :: c1 :: c2 :: c3 :: c4 :: cs) s)
include h

theorem DecodesNext.gi_lt : s.work.gi.toNat < groupCount s := by
  rw [h.count]
  simp only [List.length_cons]
  omega

theorem DecodesNext.toNat_gi : (s.work.gi + 1).toNat = s.work.gi.toNat + 1 :=
  toNat_add_one h.gi_lt (by rw [groupCount_decode h.decodes]; omega)

/-- The start of a group and its five characters. -/
theorem DecodesNext.passes_characters :
    PassesTo 6 s ((accumulateText 0 [c0, c1, c2, c3, c4]).elim (raise .encodingFailure s) fun v =>
      { s with work := { s.work with v := v, k := 5, stage := .symbol } }) := by
  have hsource := h.source
  simp only [Memory.readCells_cons_iff] at hsource
  obtain ⟨h0, h1, h2, h3, h4, -⟩ := hsource
  have hgroup : s.inp.readCells (5 * s.work.gi.toNat) 5 = some [c0, c1, c2, c3, c4] := by
    simp only [Memory.readCells, h0, h1, h2, h3, h4, Option.map_some]
  refine .pass (u := inGroup 0 s) (pass_group h.phase h.stage fun turns => (if_pos h.gi_lt).trans ?_)
    (passes_characters_decode [c0, c1, c2, c3, c4] 0 0 (s := inGroup 0 s) h.phase rfl h.decodes rfl hgroup)
  exact if_pos h.decodes

/-- After the group the rest of the text is left. -/
theorem DecodesNext.next (v : BitVec 33) (bytes : List Byte) :
    DecodesNext cs (pastGroup v (storeDecoded (4 * s.work.gi.toNat) bytes s)) := by
  have hgi := h.toNat_gi
  obtain ⟨hp, hs, hd, hsource, hcount, hmod⟩ := h
  simp only [List.length_cons] at hcount hmod
  simp only [Memory.readCells_cons_iff] at hsource
  obtain ⟨-, -, -, -, -, hrest⟩ := hsource
  rw [show 5 * s.work.gi.toNat + 1 + 1 + 1 + 1 + 1 = 5 * (s.work.gi + 1).toNat by omega] at hrest
  refine ⟨by simpa [pastGroup, nextIndex] using hp, rfl, ?_, ?_, ?_, by omega⟩
  · simpa [pastGroup, nextIndex] using hd
  · simpa [pastGroup, nextIndex] using hrest
  · rw [groupCount_pastGroup, hcount, pastGroup_gi, storeDecoded_work, hgi]
    omega

theorem DecodesNext.group_fails (hdec : dec85 c0 c1 c2 c3 c4 = none) :
    PassesTo 7 s (raise .encodingFailure s) := by
  have hchars := h.passes_characters
  rw [dec85_eq_accumulateText] at hdec
  cases hv : accumulateText 0 [c0, c1, c2, c3, c4] with
  | none =>
    rw [hv] at hchars
    exact hchars.mono (by decide)
  | some v =>
    rw [hv] at hchars hdec
    have ho : overflows v = true := by simpa using hdec
    refine hchars.trans (.single (pass_endGroup h.phase rfl rfl fun turns => ?_))
    exact endGroup_of_overflow
      (s := { s with work := { s.work with v := v, k := 5, stage := .symbol }, host := turns }) h.decodes ho

theorem DecodesNext.group_decodes {n : BitVec 32} (hdec : dec85 c0 c1 c2 c3 c4 = some n) : ∃ v,
    PassesTo 7 s (pastGroup v (storeDecoded (4 * s.work.gi.toNat) (unbe32 n) s)) ∧
      DecodesNext cs (pastGroup v (storeDecoded (4 * s.work.gi.toNat) (unbe32 n) s)) := by
  have hchars := h.passes_characters
  rw [dec85_eq_accumulateText] at hdec
  cases hv : accumulateText 0 [c0, c1, c2, c3, c4] with
  | none =>
    rw [hv] at hdec
    cases hdec
  | some v =>
    rw [hv] at hchars hdec
    obtain ⟨ho, rfl⟩ : overflows v = false ∧ groupValue v = n := by simpa using hdec
    refine ⟨v, hchars.trans (.single (pass_endGroup h.phase rfl rfl fun turns => ?_)), ?_⟩
    · have hend := endGroup_of_decode
        (s := { s with work := { s.work with v := v, k := 5, stage := .symbol }, host := turns }) h.decodes ho
      have hstore := storeDecoded_work_host (4 * s.work.gi.toNat) (unbe32 (groupValue v)) s
        { s.work with v := v, k := 5, stage := .symbol } turns rfl
      refine (hend.trans (congrArg (fun u => Host.Outcome.next (nextIndex u)) hstore)).trans ?_
      simp only [pastGroup, nextIndex, storeDecoded_work]
    · exact h.next v _

end Group

/-- A text with a failing group: the loop ends with the error of that group. -/
theorem DecodesNext.fails : ∀ {cs : List Byte} {s : State}, DecodesNext cs s → decodeText cs = none →
    PassesTo (7 * (cs.length / 5)) s (raise .encodingFailure s)
  | [], _, _, hdec => by cases hdec
  | [_], _, h, _ => by simpa using h.mod
  | [_, _], _, h, _ => by simpa using h.mod
  | [_, _, _], _, h, _ => by simpa using h.mod
  | [_, _, _, _], _, h, _ => by simpa using h.mod
  | c0 :: c1 :: c2 :: c3 :: c4 :: cs, s, h, hdec => by
    cases hv : dec85 c0 c1 c2 c3 c4 with
    | none => exact (h.group_fails hv).mono (by simp only [List.length_cons]; omega)
    | some n =>
      obtain ⟨v, hgroup, hnext⟩ := h.group_decodes hv
      have hcs : decodeText cs = none := by
        rw [decodeText, hv] at hdec
        cases hd : decodeText cs with
        | none => rfl
        | some bytes => rw [hd] at hdec; cases hdec
      have hraise : raise .encodingFailure (pastGroup v (storeDecoded (4 * s.work.gi.toNat) (unbe32 n) s)) =
          raise .encodingFailure s := raise_storeDecoded _ _ s _
      have hrest := hgroup.trans (hnext.fails hcs)
      rw [hraise] at hrest
      exact hrest.mono (by simp only [List.length_cons]; omega)

/-- A text that decodes: the loop stands behind its last group, with the bytes stored. -/
theorem DecodesNext.succeeds : ∀ {cs bytes : List Byte} {s : State}, DecodesNext cs s → decodeText cs = some bytes →
    ∃ gi v k, PassesTo (7 * (cs.length / 5)) s { storeDecoded (4 * s.work.gi.toNat) bytes s with
      work := { s.work with gi := gi, v := v, k := k, stage := .group } } ∧ gi.toNat = groupCount s
  | [], bytes, s, h, hdec => by
    cases hdec
    refine ⟨s.work.gi, s.work.v, s.work.k, ?_, h.count.symm⟩
    rw [storeDecoded_nil, ← h.stage]
    exact .refl _ s
  | [_], _, _, h, _ => by simpa using h.mod
  | [_, _], _, _, h, _ => by simpa using h.mod
  | [_, _, _], _, _, h, _ => by simpa using h.mod
  | [_, _, _, _], _, _, h, _ => by simpa using h.mod
  | c0 :: c1 :: c2 :: c3 :: c4 :: cs, bytes, s, h, hdec => by
    rw [decodeText] at hdec
    split at hdec
    · next n rest hv hrest =>
      cases hdec
      obtain ⟨v, hgroup, hnext⟩ := h.group_decodes hv
      obtain ⟨gi, v', k, hloop, hgi⟩ := hnext.succeeds hrest
      refine ⟨gi, v', k, ?_, ?_⟩
      · rw [pastGroup_gi, storeDecoded_work, h.toNat_gi, show 4 * (s.work.gi.toNat + 1) = 4 * s.work.gi.toNat +
          (unbe32 n).length from rfl, storeDecoded_pastGroup, ← storeDecoded_append] at hloop
        simp only [pastGroup, nextIndex, storeDecoded_work] at hloop hgroup
        exact (hgroup.trans hloop).mono (by simp only [List.length_cons]; omega)
      · rw [hgi, groupCount_pastGroup]
    · cases hdec

end Sys2Proof.Machine
end

section
/-! SUPPORT. A whole operation word by word: the control decisions around the group loops, and the end of each command
(44_frame.md R182; 70_reset_and_hazards.md R239). -/

namespace Sys2Proof.Machine

/-! ## The header and the strip of `FDEC` -/

/-- The two forms in which `HDRDEC` finds a header (42_lhdr.md R144). -/
theorem header_of_hdrdec {b0 : Byte} {rest : List Byte} {h : Nat} {d : Len}
    (hdec : hdrdec (b0 :: rest) = some (h, d)) :
    (h = 1 ∧ b0 ≠ 0 ∧ d = b0.setWidth 64) ∨ (h = 9 ∧ b0 = 0 ∧ longLength rest = some d) := by
  rw [hdrdec_cons] at hdec
  split at hdec
  · next hb =>
    cases hdec
    exact .inl ⟨rfl, hb, rfl⟩
  · next hb =>
    obtain ⟨d', hd', heq⟩ := Option.map_eq_some_iff.mp hdec
    cases heq
    exact .inr ⟨rfl, Decidable.not_not.mp hb, hd'⟩

theorem longLength_eq_some {rest : List Byte} {d : Len} (h : longLength rest = some d) :
    ∃ h0 h1 h2 h3 l0 l1 l2 l3 more, rest = h0 :: h1 :: h2 :: h3 :: l0 :: l1 :: l2 :: l3 :: more ∧
      d = be64 (be32 h0 h1 h2 h3) (be32 l0 l1 l2 l3) := by
  unfold longLength at h
  split at h
  · exact ⟨_, _, _, _, _, _, _, _, _, rfl, (Option.some.inj h).symm⟩
  · cases h

theorem length_of_longLength_eq_none {rest : List Byte} (h : longLength rest = none) : rest.length < 8 := by
  rcases rest with _ | ⟨_, _ | ⟨_, _ | ⟨_, _ | ⟨_, _ | ⟨_, _ | ⟨_, _ | ⟨_, _ | ⟨_, _⟩⟩⟩⟩⟩⟩⟩⟩
  case cons.cons.cons.cons.cons.cons.cons.cons => cases h
  all_goals simp

theorem decodeHdr_of_short {rest : List Byte} (h : rest.length < 8) :
    decodeHdr 0 rest = .error .truncatedHeader := by
  unfold decodeHdr
  rw [if_pos rfl]
  split
  · simp only [List.length_cons] at h
    omega
  · rfl

theorem decodeHdr_of_ne_zero {b0 : Byte} (rest : List Byte) (h : b0 ≠ 0) :
    decodeHdr b0 rest = .instr (.hdrShort b0) rest := if_neg h

section Header

variable {s : State} {buffer : List Byte} (hp : s.phase = .busy) (hs : s.work.stage = .header)
  (hd : decodes s.work.opl = true) (hlen : s.work.tlen.toNat = buffer.length)
  (ht : s.t = Memory.writeCells [] 0 buffer)

section Fetch

include hd hlen ht

/-- The sequencer decodes the first nine bytes of the buffer (R146). -/
theorem fetchHeader_of_buffer : fetchHeader s = .ofDecoded .truncatedInput (decode .hdr (buffer.take 9)) := by
  have hread := readCells_slice buffer 0 (min 9 buffer.length) (by omega)
  have htake : buffer.take (min 9 buffer.length) = buffer.take 9 := List.take_eq_take_iff.mpr (by omega)
  rw [List.drop_zero, htake] at hread
  rw [fetchHeader, if_pos hd, ht, hlen, hread]

end Fetch

include hp hs hd hlen ht

/-- No header in the buffer: `TruncatedInput` (R146). -/
theorem pass_header_truncated (hne : buffer ≠ []) (hdec : hdrdec buffer = none) :
    Answers (blockStep false) s (raise .truncatedInput s) := by
  refine pass_header hp hs ?_
  rw [fetchHeader_of_buffer hd hlen ht]
  cases buffer with
  | nil => exact absurd rfl hne
  | cons b0 rest =>
    rw [hdrdec_cons] at hdec
    split at hdec
    · cases hdec
    · next hb =>
      obtain rfl : b0 = 0 := Decidable.not_not.mp hb
      have hshort := length_of_longLength_eq_none (Option.map_eq_none_iff.mp hdec)
      rw [List.take_succ_cons, decode, decodeHdr_of_short (by rw [List.length_take]; omega)]
      exact fun _ => rfl

/-- A header in the buffer: its length and the declared length are taken, and the strip comes next (R144, R183). -/
theorem pass_header_taken {h : Nat} {d : Len} (hdec : hdrdec buffer = some (h, d)) :
    Answers (blockStep false) s
      { s with work := { s.work with hlen := BitVec.ofNat 4 h, dlen := d, stage := .strip } } := by
  refine pass_header hp hs ?_
  rw [fetchHeader_of_buffer hd hlen ht]
  cases buffer with
  | nil => cases hdec
  | cons b0 rest =>
    obtain ⟨rfl, hb, rfl⟩ | ⟨rfl, rfl, hlong⟩ := header_of_hdrdec hdec
    · rw [List.take_succ_cons, decode, decodeHdr_of_ne_zero _ hb]
      exact fun _ => if_pos hd
    · obtain ⟨h0, h1, h2, h3, l0, l1, l2, l3, more, rfl, rfl⟩ := longLength_eq_some hlong
      have h9 : ¬ s.work.tlen.toNat < 9 := by rw [hlen]; simp only [List.length_cons]; omega
      exact fun _ => (if_pos hd).trans (if_neg h9)

end Header

theorem hlen_of_hdrdec {buffer : List Byte} {h : Nat} {d : Len} (hdec : hdrdec buffer = some (h, d)) :
    (BitVec.ofNat 4 h).toNat = h := by
  cases buffer with
  | nil => cases hdec
  | cons b0 rest =>
    obtain ⟨rfl, -, -⟩ | ⟨rfl, -, -⟩ := header_of_hdrdec hdec <;> rfl

/-- Header, truncation test and slice: `FDEC` on its whole buffer ends as `unframe` says (44_frame.md R178). -/
theorem passes_unframe {s : State} {buffer : List Byte} (hp : s.phase = .busy) (hs : s.work.stage = .header)
    (hd : decodes s.work.opl = true) (hne : buffer ≠ []) (hlen : s.work.tlen.toNat = buffer.length)
    (ht : s.t = Memory.writeCells [] 0 buffer) :
    (unframe buffer = none → PassesTo 2 s (raise .truncatedInput s)) ∧
      ∀ payload, unframe buffer = some payload → fits s.capOut payload.length = true →
        PassesTo 2 s (finished payload.length { s with out := Memory.writeCells [] 0 payload }) := by
  rw [unframe]
  cases hdec : hdrdec buffer with
  | none =>
    exact ⟨fun _ => (PassesTo.single (pass_header_truncated hp hs hd hlen ht hne hdec)).mono (by decide),
      fun _ h => by cases h⟩
  | some header =>
    obtain ⟨h, d⟩ := header
    have hhead := pass_header_taken hp hs hd hlen ht hdec
    have hh := hlen_of_hdrdec hdec
    simp only [strip]
    by_cases htrunc : h + d.toNat > buffer.length
    · rw [if_pos htrunc]
      refine ⟨fun _ => .pass hhead (.single (pass_strip hp rfl fun turns => ?_)), fun _ h => by cases h⟩
      simp only [stripStep, hh, hlen, if_pos htrunc]
      rfl
    · rw [if_neg htrunc]
      refine ⟨fun h => (by cases h), fun payload hpay hfits => .pass hhead (.single (pass_strip hp rfl fun turns => ?_))⟩
      cases hpay
      have hread := readCells_slice buffer h d.toNat (by omega)
      simp only [stripStep, hh, hlen, if_neg htrunc, ht, hread]
      exact deliver_of_fits hfits

/-! ## The header and the pad of `FENC` -/

/-- `FENC` writes the header of its length into an empty `T` (42_lhdr.md R140, R141). -/
theorem pass_header_put {s : State} (hp : s.phase = .busy) (hs : s.work.stage = .header)
    (hd : decodes s.work.opl = false) (ht : s.t = []) : Answers (blockStep false) s { s with
      t := Memory.writeCells [] 0 (hdrenc s.work.ilenl)
      work := { s.work with hlen := BitVec.ofNat 4 (hdrenc s.work.ilenl).length, stage := .pad } } := by
  refine pass_header hp hs ?_
  have hfetch : fetchHeader s = .word (headerOf s.work.ilenl) := by simp [fetchHeader, hd]
  rw [hfetch, headerOf, hdrenc, ← ht]
  split <;> exact fun _ => if_neg (by simp [hd])

/-- The pad step completes `T` and enters the group loop (44_frame.md R172). -/
theorem pass_pad_assemble {s : State} {xs : List Byte} (hp : s.phase = .busy) (hs : s.work.stage = .pad)
    (hdlen : s.work.dlen = s.work.ilenl) (hhlen : s.work.hlen.toNat = (hdrenc s.work.ilenl).length)
    (ht : s.t = Memory.writeCells [] 0 (hdrenc s.work.ilenl)) (hin : HasInput s xs) :
    ∃ total padn, Answers (blockStep false) s (enterGroups { s with
      t := Memory.writeCells [] 0 (assemble xs s.work.ilenl s.draws)
      draws := s.draws + 1
      work := { s.work with
        total := total, padn := padn, tlen := BitVec.ofNat 65 (framedLength s.work.ilenl) } }) := by
  have hbuffer : ((Memory.writeCells [] 0 (hdrenc s.work.ilenl)).writeCells (hdrenc s.work.ilenl).length xs).writeCells
      ((hdrenc s.work.ilenl).length + s.work.ilenl.toNat)
      (padBytes s.draws (padcalc ((hdrenc s.work.ilenl).length + s.work.ilenl.toNat))) =
      Memory.writeCells [] 0 (assemble xs s.work.ilenl s.draws) := by
    simp only [assemble, Memory.writeCells_append, List.length_append, hin.length, Nat.zero_add]
  refine ⟨BitVec.ofNat 65 ((hdrenc s.work.ilenl).length + s.work.ilenl.toNat),
    BitVec.ofNat 2 (padcalc ((hdrenc s.work.ilenl).length + s.work.ilenl.toNat)), pass_pad hp hs fun turns =>
      (withInput_of_read (s := { s with host := turns }) _ hin.2).trans ?_⟩
  simp only [hhlen, hdlen, ht, hbuffer]
  rfl

/-! ## The first decision of an operation, case by case (44_frame.md R182) -/

section Begin

variable {s : State} (hcap : fits s.capIn s.work.ilenl.toNat = true)
include hcap

theorem beginOperation_empty (hf : framed s.work.opl = true) (h0 : s.work.ilenl = 0) :
    beginOperation s = .next (finished 0 s) := by
  rw [beginOperation, withCapacity_of_fits _ hcap, ← finish_of_fits (fits_zero _)]
  simp [hf, h0]

theorem beginOperation_decode_invalid (hd : decodes s.work.opl = true) (hm : s.work.ilenl.toNat % 5 ≠ 0) :
    beginOperation s = .next (raise .invalidLength s) := by
  have h0 : s.work.ilenl.toNat ≠ 0 := by omega
  rw [beginOperation, withCapacity_of_fits _ hcap]
  simp [hd, hm, h0]

theorem beginOperation_encode_invalid (hf : framed s.work.opl = false) (hd : decodes s.work.opl = false)
    (hm : s.work.ilenl.toNat % 4 ≠ 0) : beginOperation s = .next (raise .invalidLength s) := by
  rw [beginOperation, withCapacity_of_fits _ hcap]
  simp [hf, hd, hm]

theorem beginOperation_benc (hf : framed s.work.opl = false) (hd : decodes s.work.opl = false)
    (hm : s.work.ilenl.toNat % 4 = 0) : beginOperation s = .next (enterGroups s) := by
  rw [beginOperation, withCapacity_of_fits _ hcap]
  simp [hf, hd, hm]

theorem beginOperation_bdec (hf : framed s.work.opl = false) (hd : decodes s.work.opl = true)
    (hm : s.work.ilenl.toNat % 5 = 0) : beginOperation s = .next (enterGroups s) := by
  rw [beginOperation, withCapacity_of_fits _ hcap]
  simp [hf, hd, hm]

theorem beginOperation_fenc (hf : framed s.work.opl = true) (hd : decodes s.work.opl = false)
    (h0 : s.work.ilenl ≠ 0) (hst : fits s.capT (framedLength s.work.ilenl) = true) : beginOperation s =
      .next { s with work := { s.work with dlen := s.work.ilenl, stage := .header } } := by
  have h0 : s.work.ilenl.toNat ≠ 0 := fun h => h0 (BitVec.eq_of_toNat_eq h)
  rw [beginOperation, withCapacity_of_fits _ hcap]
  simp [hf, hd, h0, withStore_of_fits _ hst]

theorem beginOperation_fdec (hf : framed s.work.opl = true) (hd : decodes s.work.opl = true)
    (h0 : s.work.ilenl ≠ 0) (hm : s.work.ilenl.toNat % 5 = 0)
    (hst : fits s.capT (s.work.ilenl.toNat / 5 * 4) = true) : beginOperation s =
      .next (enterGroups
        { s with work := { s.work with tlen := BitVec.ofNat 65 (s.work.ilenl.toNat / 5 * 4) } }) := by
  have h0 : s.work.ilenl.toNat ≠ 0 := fun h => h0 (BitVec.eq_of_toNat_eq h)
  rw [beginOperation, withCapacity_of_fits _ hcap]
  simp [hf, hd, h0, hm, withStore_of_fits _ hst]

end Begin

/-! ## Each command, from its latch to its end -/

theorem decodesNext_enterGroups {s : State} {xs : List Byte} (hp : s.phase = .busy) (hd : decodes s.work.opl = true)
    (hxs : s.inp.readCells 0 s.work.ilenl.toNat = some xs) (hm : s.work.ilenl.toNat % 5 = 0) :
    DecodesNext xs (enterGroups s) := by
  have hl := Memory.length_readCells _ _ _ _ hxs
  rw [← hl] at hxs hm
  refine ⟨hp, rfl, hd, hxs, ?_, hm⟩
  rw [groupCount_decode (s := enterGroups s) hd, hl]
  exact (Nat.zero_add _).symm

section LastGroup

variable {s : State} (hp : s.phase = .busy) (hs : s.work.stage = .group) (hd : decodes s.work.opl = true)
  (hgi : s.work.gi.toNat = groupCount s)
include hp hs hd hgi

/-- Behind its last group `BDEC` ends. -/
theorem pass_last_bdec (hf : framed s.work.opl = false) (hfits : fits s.capOut (groupCount s * 4) = true) :
    Answers (blockStep false) s (finished (groupCount s * 4) s) := by
  have hge : ¬ s.work.gi.toNat < groupCount s := by omega
  refine pass_group hp hs fun turns => (if_neg hge).trans ?_
  simp only [endGroups, hd, hf, Bool.not_true, Bool.false_eq_true, if_false]
  exact finish_of_fits hfits

/-- Behind its last group `FDEC` goes on to the header in `T`. -/
theorem pass_last_fdec (hf : framed s.work.opl = true) :
    Answers (blockStep false) s { s with work := { s.work with stage := .header } } := by
  have hge : ¬ s.work.gi.toNat < groupCount s := by omega
  refine pass_group hp hs fun turns => (if_neg hge).trans ?_
  simp only [endGroups, hd, hf, Bool.not_true, Bool.false_eq_true, if_false, if_true]

end LastGroup

section Decoded

variable {s : State} {xs bytes : List Byte} (hp : s.phase = .busy) (hd : decodes s.work.opl = true)
  (hxs : s.inp.readCells 0 s.work.ilenl.toNat = some xs) (hm : s.work.ilenl.toNat % 5 = 0)
  (hdec : decodeText xs = some bytes)
include hp hd hxs hm hdec

/-- `BDEC` from its first group on (R129). -/
theorem passes_groups_bdec (hf : framed s.work.opl = false) (hout : s.out = [])
    (hfits : fits s.capOut bytes.length = true) : PassesTo (7 * (s.work.ilenl.toNat / 5) + 1) (enterGroups s)
      (finished bytes.length { s with out := Memory.writeCells [] 0 bytes }) := by
  have hl := Memory.length_readCells _ _ _ _ hxs
  obtain ⟨gi, v, k, hgroups, hgi⟩ := (decodesNext_enterGroups hp hd hxs hm).succeeds hdec
  have hcount : groupCount (enterGroups s) * 4 = bytes.length := by
    rw [length_of_decodeText (by omega) hdec, groupCount_decode (s := enterGroups s) hd, hl]
    rfl
  have hstored : storeDecoded (4 * (enterGroups s).work.gi.toNat) bytes (enterGroups s) =
      { enterGroups s with out := Memory.writeCells [] 0 bytes } := by
    rw [show 4 * (enterGroups s).work.gi.toNat = 0 from rfl, storeDecoded_base (s := enterGroups s) _ _ hf,
      writeOutCells_of_fits _ (by simpa using hfits), enterGroups_out, hout]
  rw [hstored, hl] at hgroups
  rw [← hcount] at hfits ⊢
  exact hgroups.trans (.single (pass_last_bdec
    (s := { s with
      out := Memory.writeCells [] 0 bytes, work := { s.work with gi := gi, v := v, k := k, stage := .group } })
    hp rfl hd hgi hf hfits))

/-- `FDEC` from its first group to the header in its whole buffer (R176, R178). -/
theorem passes_groups_fdec (hf : framed s.work.opl = true) (ht : s.t = []) : ∃ w,
    PassesTo (7 * (s.work.ilenl.toNat / 5) + 1) (enterGroups s)
      { s with t := Memory.writeCells [] 0 bytes, work := w } ∧
      w.opl = s.work.opl ∧ w.tlen = s.work.tlen ∧ w.stage = .header := by
  have hl := Memory.length_readCells _ _ _ _ hxs
  obtain ⟨gi, v, k, hgroups, hgi⟩ := (decodesNext_enterGroups hp hd hxs hm).succeeds hdec
  have hstored : storeDecoded (4 * (enterGroups s).work.gi.toNat) bytes (enterGroups s) =
      { enterGroups s with t := Memory.writeCells [] 0 bytes } := by
    rw [show 4 * (enterGroups s).work.gi.toNat = 0 from rfl, storeDecoded_framed (s := enterGroups s) _ _ hf,
      enterGroups_t, ht]
  rw [hstored, hl] at hgroups
  exact ⟨_, hgroups.trans (.single (pass_last_fdec
    (s := { s with
      t := Memory.writeCells [] 0 bytes, work := { s.work with gi := gi, v := v, k := k, stage := .group } })
    hp rfl hd hgi hf)), rfl, rfl, rfl⟩

end Decoded

section Commands

variable {s t : State} (hp : s.phase = .busy) (hs : s.work.stage = .command)
include hp hs

theorem passes_benc (hop : s.work.opl = 0) (hout : s.out = []) (h : execBenc s = .next t) :
    PassesTo (2 * s.work.ilenl.toNat + 40) s t := by
  have hf : framed s.work.opl = false := by rw [hop]; rfl
  have hd : decodes s.work.opl = false := by rw [hop]; rfl
  obtain ⟨hcap, h⟩ := (withCapacity_eq_next_iff _ _ _).mp h
  split at h
  · next hm =>
    cases h
    exact (PassesTo.single (pass_command hp hs fun turns =>
      beginOperation_encode_invalid (s := { s with host := turns }) hcap hf hd hm)).mono (by omega)
  · next hm =>
    obtain ⟨xs, hxs, h⟩ := (withInput_eq_next_iff _ _ _).mp h
    obtain ⟨hfits, rfl⟩ := (deliver_eq_next_iff _ _ _).mp h
    have hl := Memory.length_readCells _ _ _ _ hxs
    have hcount : groupCount (enterGroups s) = xs.length / 4 := by
      rw [groupCount_encode (s := enterGroups s) hd, hl]
      simp [hf]
    have hloop : EncodesNext xs (enterGroups s) :=
      { phase := hp, stage := rfl, decodes := hd
        source := by simpa [hf, hl] using hxs
        count := by simpa using hcount
        mod := by omega
        small := by omega
        fits := by rwa [hcount, ← length_encodeText] }
    have hbegin : Answers (blockStep false) s (enterGroups s) := pass_command hp hs fun turns =>
      beginOperation_benc (s := { s with host := turns }) hcap hf hd (by simpa using hm)
    exact (PassesTo.pass hbegin (hloop.passes_from_start rfl hout)).mono (by omega)

/-- The empty bypass (R171, R177). -/
theorem passes_empty (hcap : fits s.capIn s.work.ilenl.toNat = true) (hf : framed s.work.opl = true)
    (h0 : s.work.ilenl = 0) (hout : s.out = []) (h : deliver [] s = .next t) : PassesTo 1 s t := by
  obtain ⟨-, rfl⟩ := (deliver_eq_next_iff _ _ _).mp h
  rw [List.length_nil, Memory.writeCells_nil, ← hout]
  exact .single (pass_command hp hs fun turns =>
    beginOperation_empty (s := { s with host := turns }) hcap hf h0)

/-- The length check of the decode direction (R130, R176). -/
theorem passes_decode_invalid (hcap : fits s.capIn s.work.ilenl.toNat = true) (hd : decodes s.work.opl = true)
    (hm : s.work.ilenl.toNat % 5 ≠ 0) : PassesTo 1 s (raise .invalidLength s) :=
  .single (pass_command hp hs fun turns =>
    beginOperation_decode_invalid (s := { s with host := turns }) hcap hd hm)

/-- Begin, header and pad of a `FENC`: `T` is assembled, and the group loop is next (R172). -/
theorem passes_assemble {xs : List Byte} (hin : HasInput s xs) (hf : framed s.work.opl = true)
    (hd : decodes s.work.opl = false) (h0 : s.work.ilenl ≠ 0) (ht : s.t = [])
    (hst : fits s.capT (framedLength s.work.ilenl) = true) :
    ∃ w, PassesTo 3 s { s with
      t := Memory.writeCells [] 0 (assemble xs s.work.ilenl s.draws), draws := s.draws + 1, work := w } ∧
      w.opl = s.work.opl ∧ w.stage = .group ∧ w.gi = 0 ∧ w.tlen = BitVec.ofNat 65 (framedLength s.work.ilenl) := by
  have hbegin : Answers (blockStep false) s
      { s with work := { s.work with dlen := s.work.ilenl, stage := .header } } :=
    pass_command hp hs fun turns => beginOperation_fenc (s := { s with host := turns }) hin.1 hf hd h0 hst
  have hput := pass_header_put
    (s := { s with work := { s.work with dlen := s.work.ilenl, stage := .header } }) hp rfl hd ht
  have hhlen : (BitVec.ofNat 4 (hdrenc s.work.ilenl).length).toNat = (hdrenc s.work.ilenl).length := by
    rw [length_hdrenc]
    split <;> rfl
  obtain ⟨total, padn, hpad⟩ := pass_pad_assemble (s := { s with
    t := Memory.writeCells [] 0 (hdrenc s.work.ilenl)
    work := { s.work with
      dlen := s.work.ilenl, hlen := BitVec.ofNat 4 (hdrenc s.work.ilenl).length, stage := .pad } })
    hp rfl rfl hhlen rfl hin
  exact ⟨_, .pass hbegin (.pass hput (.single hpad)), rfl, rfl, rfl, rfl⟩

theorem passes_fenc (hop : s.work.opl = 2) (hout : s.out = []) (ht : s.t = []) (h : execFenc s = .next t) :
    PassesTo (2 * s.work.ilenl.toNat + 40) s t := by
  have hf : framed s.work.opl = true := by rw [hop]; rfl
  have hd : decodes s.work.opl = false := by rw [hop]; rfl
  obtain ⟨hcap, h⟩ := (withCapacity_eq_next_iff _ _ _).mp h
  split at h
  · next h0 => exact (passes_empty hp hs hcap hf h0 hout h).mono (by omega)
  · next h0 =>
    obtain ⟨hst, h⟩ := (withStore_eq_next_iff _ _ _ _).mp h
    obtain ⟨xs, hxs, h⟩ := (withInput_eq_next_iff _ _ _).mp h
    obtain ⟨hfits, rfl⟩ := (deliver_eq_next_iff _ _ _).mp h
    obtain ⟨w, hpasses, hopl, hstage, hgi, htlen⟩ := passes_assemble hp hs ⟨hcap, hxs⟩ hf hd h0 ht hst
    have hl : (assemble xs s.work.ilenl s.draws).length = framedLength s.work.ilenl :=
      length_assemble s.draws (Memory.length_readCells _ _ _ _ hxs)
    have hlen := framedLength_eq s.work.ilenl
    have htn : w.tlen.toNat = framedLength s.work.ilenl := by
      rw [htlen, BitVec.toNat_ofNat, Nat.mod_eq_of_lt (by rw [hlen]; split <;> omega)]
    have hcount : groupCount { s with
        t := Memory.writeCells [] 0 (assemble xs s.work.ilenl s.draws), draws := s.draws + 1, work := w } =
        framedLength s.work.ilenl / 4 := by
      simp [groupCount, hopl, hd, hf, htn]
    have hloop : EncodesNext (assemble xs s.work.ilenl s.draws) { s with
        t := Memory.writeCells [] 0 (assemble xs s.work.ilenl s.draws), draws := s.draws + 1, work := w } :=
      { phase := hp, stage := hstage, decodes := hopl ▸ hd
        source := by simpa [hopl, hf, hgi] using Memory.readCells_writeCells [] 0 (assemble xs s.work.ilenl s.draws)
        count := by simpa [hgi, hl] using hcount
        mod := by rw [hl, hlen]; split <;> omega
        small := by rw [hcount, hlen]; split <;> omega
        fits := by rwa [hcount, ← hl, ← length_encodeText] }
    exact (hpasses.trans (hloop.passes_from_start hgi hout)).mono (by rw [hl, hlen]; split <;> omega)

theorem passes_bdec (hop : s.work.opl = 1) (hout : s.out = []) (h : execBdec s = .next t) :
    PassesTo (2 * s.work.ilenl.toNat + 40) s t := by
  have hf : framed s.work.opl = false := by rw [hop]; rfl
  have hd : decodes s.work.opl = true := by rw [hop]; rfl
  obtain ⟨hcap, h⟩ := (withCapacity_eq_next_iff _ _ _).mp h
  split at h
  · next hm =>
    cases h
    exact (passes_decode_invalid hp hs hcap hd hm).mono (by omega)
  · next hm =>
    have hm : s.work.ilenl.toNat % 5 = 0 := Decidable.not_not.mp hm
    obtain ⟨xs, hxs, h⟩ := (withInput_eq_next_iff _ _ _).mp h
    have hbegin : Answers (blockStep false) s (enterGroups s) := pass_command hp hs fun turns =>
      beginOperation_bdec (s := { s with host := turns }) hcap hf hd hm
    split at h
    · next bytes hdec =>
      obtain ⟨hfits, rfl⟩ := (deliver_eq_next_iff _ _ _).mp h
      exact (PassesTo.pass hbegin (passes_groups_bdec hp hd hxs hm hdec hf hout hfits)).mono (by omega)
    · next hdec =>
      cases h
      have hl := Memory.length_readCells _ _ _ _ hxs
      exact (PassesTo.pass hbegin ((decodesNext_enterGroups hp hd hxs hm).fails hdec)).mono (by omega)

theorem passes_fdec (hop : s.work.opl = 3) (hout : s.out = []) (ht : s.t = []) (h : execFdec s = .next t) :
    PassesTo (2 * s.work.ilenl.toNat + 40) s t := by
  have hf : framed s.work.opl = true := by rw [hop]; rfl
  have hd : decodes s.work.opl = true := by rw [hop]; rfl
  obtain ⟨hcap, h⟩ := (withCapacity_eq_next_iff _ _ _).mp h
  split at h
  · next h0 => exact (passes_empty hp hs hcap hf h0 hout h).mono (by omega)
  split at h
  · next hm =>
    cases h
    exact (passes_decode_invalid hp hs hcap hd hm).mono (by omega)
  next h0 hm =>
  have hm : s.work.ilenl.toNat % 5 = 0 := Decidable.not_not.mp hm
  have hpos : s.work.ilenl.toNat ≠ 0 := fun h => h0 (BitVec.eq_of_toNat_eq h)
  obtain ⟨hst, h⟩ := (withStore_eq_next_iff _ _ _ _).mp h
  obtain ⟨xs, hxs, h⟩ := (withInput_eq_next_iff _ _ _).mp h
  have hl := Memory.length_readCells _ _ _ _ hxs
  have hbegin : Answers (blockStep false) s (enterGroups
      { s with work := { s.work with tlen := BitVec.ofNat 65 (s.work.ilenl.toNat / 5 * 4) } }) :=
    pass_command hp hs fun turns => beginOperation_fdec (s := { s with host := turns }) hcap hf hd h0 hm hst
  split at h
  · next hdec =>
    cases h
    have hloop := decodesNext_enterGroups
      (s := { s with work := { s.work with tlen := BitVec.ofNat 65 (s.work.ilenl.toNat / 5 * 4) } }) hp hd hxs hm
    exact (PassesTo.pass hbegin (hloop.fails hdec)).mono (by omega)
  next buffer hdec =>
  have hb := length_of_decodeText (by omega) hdec
  obtain ⟨w, hgroups, hopl, htlen, hstage⟩ := passes_groups_fdec
    (s := { s with work := { s.work with tlen := BitVec.ofNat 65 (s.work.ilenl.toNat / 5 * 4) } })
    hp hd hxs hm hdec hf ht
  have htn : w.tlen.toNat = buffer.length := by
    rw [htlen, BitVec.toNat_ofNat]
    omega
  have hne : buffer ≠ [] := List.ne_nil_of_length_pos (by omega)
  obtain ⟨hfails, hdelivers⟩ := passes_unframe (s := { s with t := Memory.writeCells [] 0 buffer, work := w })
    hp hstage (hopl ▸ hd) hne htn rfl
  split at h
  · next hu =>
    cases h
    exact (PassesTo.pass hbegin (hgroups.trans (hfails hu))).mono (by simp only; omega)
  · next payload hu =>
    obtain ⟨hfits, rfl⟩ := (deliver_eq_next_iff _ _ _).mp h
    exact (PassesTo.pass hbegin (hgroups.trans (hdelivers payload hu hfits))).mono (by simp only; omega)

end Commands

/-- Settles O56: each command, run word by word from its latch, passes to its own end (`PassesTo`), and a run of passes
is a run of the machine on turns `pass`. -/
theorem wordByWordRunEqualsTheWhole : Obligations.WordByWordRunEqualsTheWhole := by
  intro s t hp hs hout ht h
  have hpasses : PassesTo (2 * s.work.ilenl.toNat + 40) s t := by
    obtain hop | hop | hop | hop := op_cases s.work.opl <;> rw [hop] at h
    · exact passes_benc hp hs hop hout h
    · exact passes_bdec hp hs hop hout h
    · exact passes_fenc hp hs hop hout ht h
    · exact passes_fdec hp hs hop hout ht h
  obtain ⟨n, hn, hrun⟩ := hpasses.run
  obtain ⟨-, -, -, -, -, -, hhost, -⟩ := (exec_frame h).inputs
  refine ⟨n, hn, (hrun s.host).trans ?_⟩
  rw [← hhost]

end Sys2Proof.Machine
end
